-- ==== Sys2Proof/Word.lean ====
section
/-! DEFINITION. The word types of the tamp codec core (00_scope.md R10, R11: every value is unsigned; a value of
stated width n has bits n-1 .. 0). -/

namespace Sys2Proof

/-- A byte of a stream, of the window RAM or of the lookahead (10_state.md R21, R22, R23, R25). -/
abbrev Byte := BitVec 8

/-- A 4-bit field: a configuration register, a header field, a match length field (R24, R91, R96). -/
abbrev Nibble := BitVec 4

/-- The 16-bit operand lines `value`, `distance`, `d` (R108). -/
abbrev Half := BitVec 16

/-- The 5-bit operand lines `n_bits`, `n`, `length` (R108). -/
abbrev Five := BitVec 5

end Sys2Proof
end

