-- ==== Sys2Proof/Config.lean ====
section
/-! DEFINITION. The fixed constants of 00_scope.md R6 and the supported parameter ranges of R5. The hardware leaves
no value open to the model besides `window_bits` and `literal_bits` (93_implementation_defined.md, part 1), so
there is no free value here. -/

namespace Sys2Proof.Config

/-- R6 `MAX_WRITE_BITS`: the widest single write or read of the bit stream. -/
def maxWriteBits : Nat := 16
/-- R6 `MIN_MATCH`. -/
def minMatch : Nat := 2
/-- R6 `LEN_BITS`: the width of the match length field. -/
def lenBits : Nat := 4
/-- R6 `MAX_MATCH` = `MIN_MATCH + 2^LEN_BITS - 1`. -/
def maxMatch : Nat := 17
/-- R6 `HEADER_BITS`. -/
def headerBits : Nat := 16
/-- R6 `VERSION`: the one recognised value of the 4-bit version field. -/
def version : Nat := 1
/-- R6 `LA_DEPTH`: the depth of the compressor's lookahead. -/
def laDepth : Nat := 17
/-- R6 `W_MAX`: the physical window RAM has `2^W_MAX` byte cells. -/
def wMax : Nat := 15

/-- R5: `window_bits` is 8 to 15 inclusive. -/
abbrev legalW (w : Nat) : Prop := 8 ≤ w ∧ w ≤ 15
/-- R5: `literal_bits` is 5 to 8 inclusive. -/
abbrev legalL (l : Nat) : Prop := 5 ≤ l ∧ l ≤ 8

end Sys2Proof.Config
end

