-- ==== Sys2Proof/Syntax.lean ====
section
/-! DEFINITION. The syntax: one constructor of `Instr` per row of spec/opcode_table.json (stream elements,
30_encoding.md R90 to R100; operations, R108), and what an operation looks like at the ports (R108, R109). -/

namespace Sys2Proof

/-- The two instances of the sliding_window_dictionary block (R2, R20). -/
inductive Win where
  | cwin   -- the compressor's
  | dwin   -- the decompressor's
  deriving DecidableEq, Repr

/-- Everything the hardware can be asked to do. The operands are the fields the encoding carries, before any bias
(R97) is applied. -/
inductive Instr where
  -- elements of the compressed stream
  /-- `HDR`, the five fields of R91. -/
  | hdr (version windowBits literalBits : Nibble) (sizeKnown : BitVec 1) (reserved : BitVec 3)
  /-- `LIT_L5` .. `LIT_L8`, the short literal of R94 under each `literal_bits`. -/
  | litL5 (c : BitVec 5)
  | litL6 (c : BitVec 6)
  | litL7 (c : BitVec 7)
  | litL8 (c : BitVec 8)
  /-- `ESC_L5` .. `ESC_L7`, the escaped literal of R95. -/
  | escL5 (r : Byte)
  | escL6 (r : Byte)
  | escL7 (r : Byte)
  /-- `MATCH_W8` .. `MATCH_W15`, the match of R96: `d` is the field DIST, `n` the field LEN. -/
  | matchW8 (d : BitVec 8) (n : Nibble)
  | matchW9 (d : BitVec 9) (n : Nibble)
  | matchW10 (d : BitVec 10) (n : Nibble)
  | matchW11 (d : BitVec 11) (n : Nibble)
  | matchW12 (d : BitVec 12) (n : Nibble)
  | matchW13 (d : BitVec 13) (n : Nibble)
  | matchW14 (d : BitVec 14) (n : Nibble)
  | matchW15 (d : BitVec 15) (n : Nibble)
  /-- `PAD`, `k` zero bits after the last token (R100, R106). -/
  | pad (k : Nat)
  -- bitstream_encoder
  | bseClear
  | bseWriteBits (value : Half) (nBits : Five)
  | bseFlush
  -- bitstream_decoder
  | bsdClear
  | bsdFeed (b : Byte)
  | bsdEnd
  | bsdReadBits (nBits : Five)
  | bsdSkipBits (n : Five)
  | bsdAvail
  | bsdPeekBits (nBits off : Five)
  | bsdTailIsPad
  -- sliding_window_dictionary
  | swdClear (i : Win) (w : Nat)
  | swdPush (i : Win) (b : Byte)
  /-- `SWD.COPY` is "Decompressor only" (R174): it acts on `dwin`. -/
  | swdCopy (distance : Half) (length : Five)
  | swdHist (i : Win) (d : Half)
  -- token_emitter
  | temEmitHeader (w l : Nibble)
  | temEmitLiteral (b : Byte)
  | temEmitMatch (distance : Half) (length : Five)
  -- token_interpreter
  | tinParseHeader
  | tinParseToken
  -- match_search_engine and the compressor sequencer
  | mseSearch
  | csqEncodeStep
  -- host commands of the compressor
  | cReset
  /-- `C.OPEN(w, l)`: natural numbers, as R109 allows; the ports carry 4 bits each (WellFormed). -/
  | cOpen (w l : Nat)
  | cWrite (b : Byte)
  | cClose
  -- host commands of the decompressor, and its autonomous step
  | dReset
  | dFeed (b : Byte)
  | dEnd
  | dStep
  -- codes that name no operation
  | reservedDOp3
  | noneBse
  | noneBsd
  | noneSwd (i : Win)
  | noneTem
  | noneCOp
  | noneDOp
  /-- code 6 (`low = 0`) or 7 (`low = 1`) on the BSD's `op` port. -/
  | reservedBsdOp (low : BitVec 1)
  deriving DecidableEq, Repr

/-- Where an operation can be presented. The first nine are the select ports of R108 and R109 (the SWD block has
two instances, each with its own `op` port). The operations R108 gives no select code (queries, the internal step,
the autonomous step) each have a line of their own: assumption log 2. -/
inductive Port where
  | bsdOp | bseOp | cwinOp | dwinOp | temOp | cRst | cOp | dRst | dOp
  | availLine | peekLine | tailLine | cwinHistLine | dwinHistLine
  | parseHeaderLine | parseTokenLine | searchLine | encodeStepLine | stepLine
  deriving DecidableEq, Repr

/-- One operation as presented: the port, the select code on it, and the operand lines. `x` carries the wide
operand (`value`, `distance`, `d`, `byte`, `W`, `w`, `off`), `y` the narrow one (`n_bits`, `n`, `length`, `L`, `l`). -/
structure PortWord where
  port : Port
  code : BitVec 3
  x    : Half
  y    : Five
  deriving DecidableEq, Repr

end Sys2Proof
end

