-- ==== Sys2Proof/WellFormed.lean ====
section
/-! DEFINITION. When an instruction is one the encoding can carry: the legality of a header (30_encoding.md R92), the
escape codes that are no literal (R94), the length of padding (R100), and the width of the operand ports that the
syntax holds as natural numbers (R109). -/

namespace Sys2Proof

/-- R92: the header is legal. -/
def headerLegal (version windowBits literalBits : Nibble) (sizeKnown : BitVec 1) (reserved : BitVec 3) : Bool :=
  version.toNat == Config.version && decide (Config.legalW windowBits.toNat) &&
    decide (Config.legalL literalBits.toNat) && sizeKnown.toNat == 0 && reserved.toNat == 0

/-- The well-formed instructions. -/
def Instr.wellFormed : Instr → Bool
  | .hdr v w l k r => headerLegal v w l k r
  | .litL5 c => c.toNat != 31
  | .litL6 c => c.toNat != 63
  | .litL7 c => c.toNat != 127
  | .litL8 _ => true
  | .escL5 _ => true
  | .escL6 _ => true
  | .escL7 _ => true
  | .matchW8 _ _ => true
  | .matchW9 _ _ => true
  | .matchW10 _ _ => true
  | .matchW11 _ _ => true
  | .matchW12 _ _ => true
  | .matchW13 _ _ => true
  | .matchW14 _ _ => true
  | .matchW15 _ _ => true
  | .pad k => decide (k ≤ 7)
  | .bseClear => true
  | .bseWriteBits _ _ => true
  | .bseFlush => true
  | .bsdClear => true
  | .bsdFeed _ => true
  | .bsdEnd => true
  | .bsdReadBits _ => true
  | .bsdSkipBits _ => true
  | .bsdAvail => true
  | .bsdPeekBits _ _ => true
  | .bsdTailIsPad => true
  | .swdClear _ w => decide (w < 16)
  | .swdPush _ _ => true
  | .swdCopy _ _ => true
  | .swdHist _ _ => true
  | .temEmitHeader _ _ => true
  | .temEmitLiteral _ => true
  | .temEmitMatch _ _ => true
  | .tinParseHeader => true
  | .tinParseToken => true
  | .mseSearch => true
  | .csqEncodeStep => true
  | .cReset => true
  | .cOpen w l => decide (w < 16) && decide (l < 16)
  | .cWrite _ => true
  | .cClose => true
  | .dReset => true
  | .dFeed _ => true
  | .dEnd => true
  | .dStep => true
  | .reservedDOp3 => true
  | .noneBse => true
  | .noneBsd => true
  | .noneSwd _ => true
  | .noneTem => true
  | .noneCOp => true
  | .noneDOp => true
  | .reservedBsdOp _ => true

end Sys2Proof
end

