-- ==== Sys2Proof/Decode.lean ====
section
/-! DEFINITION. From bits and port signals to instructions and back (20_memory.md R61, R62; 30_encoding.md R91 to R100,
R108). A stream element is decoded from the unread bits, in transmission order; an operation from what is presented
at a port. Every decoder is total and rejects by name. -/

namespace Sys2Proof

/-! ## Bits in transmission order -/

/-- R62: the `n` bits of a field of value `v`, most significant first (bits of `v` at and above `n` are ignored). -/
def bitsOf : Nat → Nat → List Bool
  | 0, _ => []
  | n + 1, v => v.testBit n :: bitsOf n v

/-- R62: the value a bit string spells, first bit most significant. -/
def valueOf : List Bool → Nat
  | [] => 0
  | b :: t => b.toNat * 2 ^ t.length + valueOf t

/-- R61: `StreamBit(s, p) = s[p div 8][7 - (p mod 8)]`. -/
def streamBit (s : List Byte) (p : Nat) : Bool := (s.getD (p / 8) 0).getLsbD (7 - p % 8)

/-- The `n` bits of a byte sequence from stream position `p` on. -/
def streamBits (s : List Byte) : Nat → Nat → List Bool
  | _, 0 => []
  | p, n + 1 => streamBit s p :: streamBits s (p + 1) n

/-! ## Rejections -/

/-- Why a decoder answers no instruction. -/
inductive DecodeError where
  /-- the element is not all there yet (R211, R212 `NeedMore`). -/
  | needMore
  /-- tokens have no meaning outside the 32 supported pairs (R212: "Requires a parsed header"). -/
  | badConfiguration
  /-- the tail is longer than 7 bits or not all zero (R100). -/
  | notPadding
  /-- the port is 1 or 2 bits wide and cannot carry this code (R108). -/
  | noSuchCode
  /-- a reset input that is not asserted is no operation (R108: `C.RESET` and `D.RESET` are the value 1). -/
  | resetNotAsserted
  /-- `SWD.COPY` is "Decompressor only" (R174). -/
  | copyOnCompressorWindow
  deriving DecidableEq, Repr

/-! ## Stream elements -/

/-- R91: the 16 header bits. Every 16-bit value is read as a header; whether it is legal is R92 (`wellFormed`). -/
def headerOfValue (h : Nat) : Instr :=
  .hdr (.ofNat 4 (h / 0x1000)) (.ofNat 4 (h / 0x100)) (.ofNat 4 (h / 0x10)) (.ofNat 1 (h / 8)) (.ofNat 3 h)

/-- The header at the front of the bits (R91), with the bits after it. -/
def decodeHeader (bits : List Bool) : Except DecodeError (Instr × List Bool) :=
  if bits.length < Config.headerBits then .error .needMore
  else .ok (headerOfValue (valueOf (bits.take Config.headerBits)), bits.drop Config.headerBits)

/-- R94: the short literal with code `c` under `literal_bits` = `l`. -/
def literalOf (l c : Nat) : Except DecodeError Instr :=
  match l with
  | 5 => .ok (.litL5 (.ofNat 5 c))
  | 6 => .ok (.litL6 (.ofNat 6 c))
  | 7 => .ok (.litL7 (.ofNat 7 c))
  | 8 => .ok (.litL8 (.ofNat 8 c))
  | _ => .error .badConfiguration

/-- R95: the escaped literal with raw byte `r` under `literal_bits` = `l`; at L = 8 there is no escape. -/
def escapeOf (l r : Nat) : Except DecodeError Instr :=
  match l with
  | 5 => .ok (.escL5 (.ofNat 8 r))
  | 6 => .ok (.escL6 (.ofNat 8 r))
  | 7 => .ok (.escL7 (.ofNat 8 r))
  | _ => .error .badConfiguration

/-- R96: the match with the fields DIST = `d` and LEN = `n` under `window_bits` = `w`. -/
def matchOf (w d n : Nat) : Except DecodeError Instr :=
  match w with
  | 8 => .ok (.matchW8 (.ofNat 8 d) (.ofNat 4 n))
  | 9 => .ok (.matchW9 (.ofNat 9 d) (.ofNat 4 n))
  | 10 => .ok (.matchW10 (.ofNat 10 d) (.ofNat 4 n))
  | 11 => .ok (.matchW11 (.ofNat 11 d) (.ofNat 4 n))
  | 12 => .ok (.matchW12 (.ofNat 12 d) (.ofNat 4 n))
  | 13 => .ok (.matchW13 (.ofNat 13 d) (.ofNat 4 n))
  | 14 => .ok (.matchW14 (.ofNat 14 d) (.ofNat 4 n))
  | 15 => .ok (.matchW15 (.ofNat 15 d) (.ofNat 4 n))
  | _ => .error .badConfiguration

/-- The token at the front of the bits under `window_bits` = `w` and `literal_bits` = `l`, with the bits after it
(R93 to R98): the marker selects, a match has fixed length, the literal code tells whether an escape follows. -/
def decodeToken (w l : Nat) (bits : List Bool) : Except DecodeError (Instr × List Bool) :=
  if ¬ (Config.legalW w ∧ Config.legalL l) then .error .badConfiguration
  else match bits with
  | [] => .error .needMore
  | true :: t =>
    if t.length < l then .error .needMore
    else if l < 8 ∧ valueOf (t.take l) = 2 ^ l - 1 then
      if t.length < l + 8 then .error .needMore
      else (escapeOf l (valueOf ((t.drop l).take 8))).map fun i => (i, t.drop (l + 8))
    else (literalOf l (valueOf (t.take l))).map fun i => (i, t.drop l)
  | false :: t =>
    if t.length < w + Config.lenBits then .error .needMore
    else (matchOf w (valueOf (t.take w)) (valueOf ((t.drop w).take Config.lenBits))).map
      fun i => (i, t.drop (w + Config.lenBits))

/-- R100: what is left at a token boundary once the input has ended, if it is padding. -/
def decodeTail (bits : List Bool) : Except DecodeError Instr :=
  if bits.length ≤ 7 ∧ bits.all (! ·) then .ok (.pad bits.length) else .error .notPadding

/-- Under which pair (`window_bits`, `literal_bits`) a token is a token (the "valid when" of the opcode table). -/
def Instr.validUnder (w l : Nat) : Instr → Bool
  | .litL5 _ => l == 5
  | .litL6 _ => l == 6
  | .litL7 _ => l == 7
  | .litL8 _ => l == 8
  | .escL5 _ => l == 5
  | .escL6 _ => l == 6
  | .escL7 _ => l == 7
  | .matchW8 _ _ => w == 8
  | .matchW9 _ _ => w == 9
  | .matchW10 _ _ => w == 10
  | .matchW11 _ _ => w == 11
  | .matchW12 _ _ => w == 12
  | .matchW13 _ _ => w == 13
  | .matchW14 _ _ => w == 14
  | .matchW15 _ _ => w == 15
  | _ => false

/-! ## Operations at the ports -/

/-- R108: the operation a port's signals ask for. Operand lines an operation does not use are ignored. -/
def decodePort (p : PortWord) : Except DecodeError Instr :=
  match p.port with
  | .bseOp =>
    match p.code.toNat with
    | 0 => .ok .noneBse
    | 1 => .ok .bseClear
    | 2 => .ok (.bseWriteBits p.x p.y)
    | 3 => .ok .bseFlush
    | _ => .error .noSuchCode
  | .bsdOp =>
    match p.code.toNat with
    | 0 => .ok .noneBsd
    | 1 => .ok .bsdClear
    | 2 => .ok (.bsdFeed (p.x.setWidth 8))
    | 3 => .ok .bsdEnd
    | 4 => .ok (.bsdReadBits p.y)
    | 5 => .ok (.bsdSkipBits p.y)
    | 6 => .ok (.reservedBsdOp 0)
    | _ => .ok (.reservedBsdOp 1)
  | .cwinOp =>
    match p.code.toNat with
    | 0 => .ok (.noneSwd .cwin)
    | 1 => .ok (.swdClear .cwin (p.x.toNat % 16))
    | 2 => .ok (.swdPush .cwin (p.x.setWidth 8))
    | 3 => .error .copyOnCompressorWindow
    | _ => .error .noSuchCode
  | .dwinOp =>
    match p.code.toNat with
    | 0 => .ok (.noneSwd .dwin)
    | 1 => .ok (.swdClear .dwin (p.x.toNat % 16))
    | 2 => .ok (.swdPush .dwin (p.x.setWidth 8))
    | 3 => .ok (.swdCopy p.x p.y)
    | _ => .error .noSuchCode
  | .temOp =>
    match p.code.toNat with
    | 0 => .ok .noneTem
    | 1 => .ok (.temEmitHeader (p.x.setWidth 4) (p.y.setWidth 4))
    | 2 => .ok (.temEmitLiteral (p.x.setWidth 8))
    | 3 => .ok (.temEmitMatch p.x p.y)
    | _ => .error .noSuchCode
  | .cRst =>
    match p.code.toNat with
    | 0 => .error .resetNotAsserted
    | 1 => .ok .cReset
    | _ => .error .noSuchCode
  | .cOp =>
    match p.code.toNat with
    | 0 => .ok .noneCOp
    | 1 => .ok (.cOpen (p.x.toNat % 16) (p.y.toNat % 16))
    | 2 => .ok (.cWrite (p.x.setWidth 8))
    | 3 => .ok .cClose
    | _ => .error .noSuchCode
  | .dRst =>
    match p.code.toNat with
    | 0 => .error .resetNotAsserted
    | 1 => .ok .dReset
    | _ => .error .noSuchCode
  | .dOp =>
    match p.code.toNat with
    | 0 => .ok .noneDOp
    | 1 => .ok (.dFeed (p.x.setWidth 8))
    | 2 => .ok .dEnd
    | 3 => .ok .reservedDOp3
    | _ => .error .noSuchCode
  | .availLine => .ok .bsdAvail
  | .peekLine => .ok (.bsdPeekBits p.y (p.x.setWidth 5))
  | .tailLine => .ok .bsdTailIsPad
  | .cwinHistLine => .ok (.swdHist .cwin p.x)
  | .dwinHistLine => .ok (.swdHist .dwin p.x)
  | .parseHeaderLine => .ok .tinParseHeader
  | .parseTokenLine => .ok .tinParseToken
  | .searchLine => .ok .mseSearch
  | .encodeStepLine => .ok .csqEncodeStep
  | .stepLine => .ok .dStep

/-! ## The encoder -/

/-- What an instruction looks like outside the machine: bits of the stream where its three kinds of element stand, or
the signals at a port. -/
inductive Encoded where
  | header (bits : List Bool)
  | token (bits : List Bool)
  | tail (bits : List Bool)
  | port (p : PortWord)
  deriving DecidableEq, Repr

/-- R91: the 16 header bits of the five fields. -/
def headerBitsOf (v w l : Nibble) (k : BitVec 1) (r : BitVec 3) : List Bool :=
  bitsOf 4 v.toNat ++ (bitsOf 4 w.toNat ++ (bitsOf 4 l.toNat ++ (bitsOf 1 k.toNat ++ bitsOf 3 r.toNat)))

/-- R94: marker 1, then CODE in `l` bits. -/
def literalBitsOf (l c : Nat) : List Bool := true :: bitsOf l c

/-- R95: marker 1, then the all-ones CODE in `l` bits, then RAW in 8 bits. -/
def escapeBitsOf (l : Nat) (r : Byte) : List Bool := true :: (bitsOf l (2 ^ l - 1) ++ bitsOf 8 r.toNat)

/-- R96: marker 0, then DIST in `w` bits, then LEN in 4 bits. -/
def matchBitsOf (w d : Nat) (n : Nibble) : List Bool := false :: (bitsOf w d ++ bitsOf Config.lenBits n.toNat)

/-- A port word whose operand lines are idle. -/
def plainWord (p : Port) (code : Nat) : PortWord := ⟨p, .ofNat 3 code, 0, 0⟩

/-- The encoding of an instruction (R91 to R100 for the stream, R108 for the ports). -/
def encode : Instr → Encoded
  | .hdr v w l k r => .header (headerBitsOf v w l k r)
  | .litL5 c => .token (literalBitsOf 5 c.toNat)
  | .litL6 c => .token (literalBitsOf 6 c.toNat)
  | .litL7 c => .token (literalBitsOf 7 c.toNat)
  | .litL8 c => .token (literalBitsOf 8 c.toNat)
  | .escL5 r => .token (escapeBitsOf 5 r)
  | .escL6 r => .token (escapeBitsOf 6 r)
  | .escL7 r => .token (escapeBitsOf 7 r)
  | .matchW8 d n => .token (matchBitsOf 8 d.toNat n)
  | .matchW9 d n => .token (matchBitsOf 9 d.toNat n)
  | .matchW10 d n => .token (matchBitsOf 10 d.toNat n)
  | .matchW11 d n => .token (matchBitsOf 11 d.toNat n)
  | .matchW12 d n => .token (matchBitsOf 12 d.toNat n)
  | .matchW13 d n => .token (matchBitsOf 13 d.toNat n)
  | .matchW14 d n => .token (matchBitsOf 14 d.toNat n)
  | .matchW15 d n => .token (matchBitsOf 15 d.toNat n)
  | .pad k => .tail (List.replicate k false)
  | .bseClear => .port (plainWord .bseOp 1)
  | .bseWriteBits v n => .port ⟨.bseOp, 2, v, n⟩
  | .bseFlush => .port (plainWord .bseOp 3)
  | .bsdClear => .port (plainWord .bsdOp 1)
  | .bsdFeed b => .port ⟨.bsdOp, 2, b.setWidth 16, 0⟩
  | .bsdEnd => .port (plainWord .bsdOp 3)
  | .bsdReadBits n => .port ⟨.bsdOp, 4, 0, n⟩
  | .bsdSkipBits n => .port ⟨.bsdOp, 5, 0, n⟩
  | .bsdAvail => .port (plainWord .availLine 0)
  | .bsdPeekBits n off => .port ⟨.peekLine, 0, off.setWidth 16, n⟩
  | .bsdTailIsPad => .port (plainWord .tailLine 0)
  | .swdClear .cwin w => .port ⟨.cwinOp, 1, .ofNat 16 w, 0⟩
  | .swdClear .dwin w => .port ⟨.dwinOp, 1, .ofNat 16 w, 0⟩
  | .swdPush .cwin b => .port ⟨.cwinOp, 2, b.setWidth 16, 0⟩
  | .swdPush .dwin b => .port ⟨.dwinOp, 2, b.setWidth 16, 0⟩
  | .swdCopy d n => .port ⟨.dwinOp, 3, d, n⟩
  | .swdHist .cwin d => .port ⟨.cwinHistLine, 0, d, 0⟩
  | .swdHist .dwin d => .port ⟨.dwinHistLine, 0, d, 0⟩
  | .temEmitHeader w l => .port ⟨.temOp, 1, w.setWidth 16, l.setWidth 5⟩
  | .temEmitLiteral b => .port ⟨.temOp, 2, b.setWidth 16, 0⟩
  | .temEmitMatch d n => .port ⟨.temOp, 3, d, n⟩
  | .tinParseHeader => .port (plainWord .parseHeaderLine 0)
  | .tinParseToken => .port (plainWord .parseTokenLine 0)
  | .mseSearch => .port (plainWord .searchLine 0)
  | .csqEncodeStep => .port (plainWord .encodeStepLine 0)
  | .cReset => .port (plainWord .cRst 1)
  | .cOpen w l => .port ⟨.cOp, 1, .ofNat 16 w, .ofNat 5 l⟩
  | .cWrite b => .port ⟨.cOp, 2, b.setWidth 16, 0⟩
  | .cClose => .port (plainWord .cOp 3)
  | .dReset => .port (plainWord .dRst 1)
  | .dFeed b => .port ⟨.dOp, 1, b.setWidth 16, 0⟩
  | .dEnd => .port (plainWord .dOp 2)
  | .dStep => .port (plainWord .stepLine 0)
  | .reservedDOp3 => .port (plainWord .dOp 3)
  | .noneBse => .port (plainWord .bseOp 0)
  | .noneBsd => .port (plainWord .bsdOp 0)
  | .noneSwd .cwin => .port (plainWord .cwinOp 0)
  | .noneSwd .dwin => .port (plainWord .dwinOp 0)
  | .noneTem => .port (plainWord .temOp 0)
  | .noneCOp => .port (plainWord .cOp 0)
  | .noneDOp => .port (plainWord .dOp 0)
  | .reservedBsdOp low => .port ⟨.bsdOp, .ofNat 3 (6 + low.toNat), 0, 0⟩

/-! ## Words as spec/opcode_table.json numbers them (assumption log 2) -/

/-- What a table word is: a header; a token of `width` bits under a pair (`window_bits`, `literal_bits`); a port word. -/
inductive TableWord where
  | header (bits : List Bool)
  | token (w l : Nat) (bits : List Bool)
  | port (p : PortWord)
  deriving DecidableEq, Repr

/-- The port numbered `k` in a table word, and the line numbered `c` of port number 9 or 10. -/
def portOfNumber (k c : Nat) : Option Port :=
  match k with
  | 0 => some .bsdOp
  | 1 => some .bseOp
  | 2 => some .cwinOp
  | 3 => some .dwinOp
  | 4 => some .temOp
  | 5 => some .cRst
  | 6 => some .cOp
  | 7 => some .dRst
  | 8 => some .dOp
  | 9 =>
    match c with
    | 0 => some .availLine
    | 1 => some .peekLine
    | 2 => some .tailLine
    | 3 => some .cwinHistLine
    | 4 => some .dwinHistLine
    | 5 => some .parseHeaderLine
    | 6 => some .parseTokenLine
    | _ => some .searchLine
  | 10 =>
    match c with
    | 0 => some .encodeStepLine
    | 1 => some .stepLine
    | _ => none
  | _ => none

/-- A port word as a number: bits 2..0 the select code (as the table numbers it), bits 6..3 the port's number, bit 7
zero, bits 23..8 the wide operand, bits 28..24 the narrow one. Number 0 is the BSD's port, the one `op` port that is
3 bits wide. -/
def portWordOfNat (v : Nat) : Option PortWord :=
  (portOfNumber (v / 8 % 16) (v % 8)).map fun p => ⟨p, .ofNat 3 v, .ofNat 16 (v / 0x100), .ofNat 5 (v / 0x1000000)⟩

/-- The kind of a table word of `nbits` bits. The table numbers a stream element so that its last stream bit is bit 0;
the width and the leading bits tell the rows apart as far as the table allows. -/
def tableWord (nbits w : Nat) : Option TableWord :=
  match nbits with
  | 6 => some (.token 8 5 (bitsOf 6 w))
  | 7 => some (.token 8 6 (bitsOf 7 w))
  | 8 => if w.testBit 7 then some (.token 8 7 (bitsOf 8 w)) else (portWordOfNat w).map .port
  | 9 => some (.token 8 8 (bitsOf 9 w))
  | 13 => some (.token 8 8 (bitsOf 13 w))
  | 14 => some (.token 9 5 (bitsOf 14 w))
  | 15 => some (.token 10 6 (bitsOf 15 w))
  | 16 =>
    if w / 0x1000 = 1 ∧ w % 16 = 0 then some (.header (bitsOf 16 w)) else some (.token 11 7 (bitsOf 16 w))
  | 17 => some (.token 12 8 (bitsOf 17 w))
  | 18 => some (.token 13 8 (bitsOf 18 w))
  | 19 => some (.token 14 8 (bitsOf 19 w))
  | 20 => some (.token 15 8 (bitsOf 20 w))
  | 24 => some (.token 15 8 (bitsOf 20 w))
  | 32 => (portWordOfNat w).map .port
  | _ => none

/-- The instruction the decoder reads from a table word: all of the word must be the instruction's. -/
def decodeTableWord (nbits w : Nat) : Option Instr :=
  match tableWord nbits w with
  | none => none
  | some (.header b) => (decodeHeader b).toOption.map Prod.fst
  | some (.token cw cl b) =>
    match decodeToken cw cl b with
    | .ok (i, []) => some i
    | _ => none
  | some (.port p) => (decodePort p).toOption

end Sys2Proof
end

