-- ==== Sys2Proof/Machine/State.lean ====
section
/-! DEFINITION. The machine's state (10_state.md R20 to R36), the reasons it can stop, and the state after reset
(70_reset_and_hazards.md R330 to R333). Counters and cursors are natural numbers; the widths of R21 to R27 are the
invariant `State.Inv` of Sys2Proof/Safety.lean. -/

namespace Sys2Proof.Machine

/-! ## Names and codes -/

/-- R290: the five conditions. -/
inductive Condition where
  | invalidConfiguration | corruptHeader | invalidDistance | truncatedStream | endOfStream
  deriving DecidableEq, Repr

/-- R35: the compressor's states. -/
inductive CState where
  | idle | opened | closed | error
  deriving DecidableEq, Repr

/-- R35: the decompressor's states. -/
inductive DState where
  | readingHeader | readingToken | appendingLiteral | copyingMatch | done | error
  deriving DecidableEq, Repr

/-! ## What an operation reports (the model's own register, assumption log 1) -/

/-- R211: the answer of `TIN.PARSE_HEADER`. -/
inductive HeaderAnswer where
  | header (w l : Nibble)
  | corrupt
  | needMore
  deriving DecidableEq, Repr

/-- R212: the answer of `TIN.PARSE_TOKEN`; `k` is the number of bits of the token. -/
inductive TokenAnswer where
  | literal (b : Byte) (k : Nat)
  | matched (d : Half) (n : Five) (k : Nat)
  | needMore
  deriving DecidableEq, Repr

/-- The "result" column of R108. -/
inductive OpResult where
  | none
  | value (v : Half)
  | count (n : Nat)
  | flag (b : Bool)
  | byte (b : Byte)
  | bytes (bs : List Byte)
  | header (a : HeaderAnswer)
  | token (a : TokenAnswer)
  | search (len dist : Nat)
  deriving DecidableEq, Repr

/-- The outcome of the last operation (R8). `noStep`: the decompressor is in a terminal state and has no step
(R267, R268). The fourth outcome of R8, refused, ends the run. -/
inductive Report where
  | done (r : OpResult)
  | error (c : Condition)
  | hold
  | noStep
  deriving DecidableEq, Repr

/-! ## State -/

/-- The window RAM: the cells that have been written, addresses strictly rising. An unlisted cell holds no value
(R36). -/
abbrev Memory := List Host.Cell

/-- R21: bitstream_encoder. -/
structure Bse where
  /-- the bits accepted and not yet emitted, in `acc[nacc-1:0]` -/
  acc : BitVec 8
  nacc : Nat
  flushed : Bool
  obuf : List Byte
  deriving DecidableEq, Repr

/-- R22: bitstream_decoder. -/
structure Bsd where
  ibuf : List Byte
  rpos : Nat
  eof : Bool
  deriving DecidableEq, Repr

/-- R23: one sliding_window_dictionary. -/
structure Window where
  buf : Memory
  wr : Nat
  fill : Nat
  /-- log2 of the ring's size, as the last `SWD.CLEAR` set it (R171 `size`; assumption logs 6 and 9) -/
  bits : Nat
  deriving DecidableEq, Repr

/-- The compressor unit CMP (R20): BSE, `cwin`, the configuration registers (R24), CSQ and MSE (R25). -/
structure Cmp where
  bse : Bse
  cwin : Window
  ccfgW : Nibble
  ccfgL : Nibble
  cstate : CState
  cerr : Option Condition
  /-- the 17 lookahead cells `la[0..16]`, all of them -/
  la : List Byte
  laN : Nat
  deriving DecidableEq, Repr

/-- The decompressor unit DMP (R20): BSD, `dwin`, the configuration registers (R24), the token latch (R26), DSM (R27)
and the output (R28). -/
structure Dmp where
  bsd : Bsd
  dwin : Window
  dcfgW : Nibble
  dcfgL : Nibble
  /-- `tok_kind`: true is 1, a literal -/
  tokKind : Bool
  tokByte : Byte
  tokDist : Half
  tokLen : Five
  dstate : DState
  derr : Option Condition
  rout : List Byte
  deriving DecidableEq, Repr

structure State where
  cmp : Cmp
  dmp : Dmp
  /-- the model's own: the outcome of the last operation (assumption log 1) -/
  report : Report
  /-- the model's own: what the host has presented at the ports and the machine has not taken yet (assumption log 3) -/
  inbox : List PortWord
  deriving DecidableEq, Repr

/-! ## Stops -/

/-- What stops the machine. -/
inductive Fault where
  /-- A window cell that has not been written was read (R36: "make reading one a fault"). Raised by `SWD.HIST`,
  `SWD.COPY`, `MSE.SEARCH` and what calls them; unreachable from states that meet `State.Inv`. Safe: the machine
  stops where the hardware would go on with an unspecified byte. -/
  | unwrittenCell (i : Win)
  deriving DecidableEq, Repr

/-- R304 and the model's own: what the spec gives no meaning. All are safe: nothing can be proved of such a run. -/
inductive Refusal where
  /-- an instruction without a meaning in this model; raised by `exec` only. -/
  | notModelled (mnemonic : String)
  /-- `BSE.WRITE_BITS`, `BSD.READ_BITS`, `BSD.PEEK_BITS` with a width outside 1 to 16. -/
  | widthOutOfRange
  /-- `BSE.WRITE_BITS`, `BSE.FLUSH` with `flushed = 1`. -/
  | alreadyFlushed
  /-- `BSD.PEEK_BITS`, `BSD.SKIP_BITS` of more bits than `avail`. -/
  | beyondAvail
  /-- `BSD.FEED`, `BSD.END`, `D.FEED`, `D.END` with `eof = 1`. -/
  | inputAlreadyEnded
  /-- `SWD.CLEAR` with a size outside 8 to 15. -/
  | windowBitsOutOfRange
  /-- `SWD.HIST` outside 1 to `fill`. -/
  | outsideHistory
  /-- `SWD.COPY` with distance 0. -/
  | distanceZero
  /-- `TEM.EMIT_MATCH` with operands the fields cannot carry. -/
  | matchOutOfRange
  /-- `TIN.PARSE_TOKEN` before a header has been parsed. -/
  | headerNotParsed
  /-- `CSQ.ENCODE_STEP` with no stream open or an empty lookahead. -/
  | nothingToEncode
  /-- `C.OPEN` outside `C_IDLE`. -/
  | notIdle
  /-- `C.WRITE`, `C.CLOSE` outside `C_OPEN`. -/
  | noStreamOpen
  /-- `d_op = 3`; code 6 or 7 on the BSD's `op` port. -/
  | unusedCode
  /-- a stream element where the spec gives it no meaning: not at the decompressor state that reads it, under another
  configuration, or a short literal whose code is the escape (assumption log 12). -/
  | elementOutOfPlace
  /-- what is presented at a port is no operation; raised by `step` only. -/
  | undecodable (e : DecodeError)
  deriving DecidableEq, Repr

/-! ## Reset -/

/-- R330, R171: a window after its unit's reset. The spec gives `wr` and `fill`; `bits` is assumption log 6. -/
def Window.reset : Window := { buf := [], wr := 0, fill := 0, bits := Config.wMax }

/-- R331: the compressor after `C.RESET`. The lookahead cells are assumption log 7. -/
def Cmp.reset : Cmp :=
  { bse := { acc := 0, nacc := 0, flushed := false, obuf := [] }, cwin := Window.reset, ccfgW := 0, ccfgL := 0,
    cstate := .idle, cerr := none, la := List.replicate Config.laDepth 0, laN := 0 }

/-- R331: the decompressor after `D.RESET`. The token latch is assumption log 7. -/
def Dmp.reset : Dmp :=
  { bsd := { ibuf := [], rpos := 0, eof := false }, dwin := Window.reset, dcfgW := 0, dcfgL := 0, tokKind := false,
    tokByte := 0, tokDist := 0, tokLen := 0, dstate := .readingHeader, derr := none, rout := [] }

/-- R333: the launch state is the state after both units' reset. -/
def State.reset : State := { cmp := Cmp.reset, dmp := Dmp.reset, report := .done .none, inbox := [] }

end Sys2Proof.Machine
end

