-- ==== Sys2Proof/Machine/Operands.lean ====
section
/-! DEFINITION. Operand forms: how a field of the stream becomes an operand (30_encoding.md R97), and how unread bits
become a value (41_bitstream_decoder.md R154, R155, R157). -/

namespace Sys2Proof.Machine

/-- R97: `distance = zext_16(DIST) + 1`. -/
def distanceOf (dist : Nat) : Half := .ofNat 16 dist + 1

/-- R97: `length = zext_5(LEN) + 2`. -/
def lengthOf (len : Nibble) : Five := len.setWidth 5 + 2

/-- R97: the literal byte is CODE, zero-extended. -/
def literalByte (code : Nat) : Byte := .ofNat 8 code

/-- R22, R154: `avail = 8 * len(ibuf) - rpos`. -/
def avail (b : Bsd) : Nat := 8 * b.ibuf.length - b.rpos

/-- R155: the value of the `n` bits at offset `off` from the read cursor; 0 for `n = 0`. -/
def peekBits (b : Bsd) (n off : Nat) : Nat := valueOf (streamBits b.ibuf (b.rpos + off) n)

/-- The longest stream element is a 20-bit match (R98). -/
def maxElementBits : Nat := 20

/-- The unread bits, as many of them as an element can need. -/
def unread (b : Bsd) : List Bool := streamBits b.ibuf b.rpos (min (avail b) maxElementBits)

/-- R67: the address of the byte `d` places back, `(wr - d) mod 2^W`, the difference taken over the integers. -/
def histAddr (w : Window) (d : Nat) : Nat := (((w.wr : Int) - (d : Int)) % ((2 ^ w.bits : Nat) : Int)).toNat

end Sys2Proof.Machine
end

