-- ==== Sys2Proof/Machine/Flags.lean ====
section
/-! DEFINITION. Status bits and their tests: the codes of 10_state.md R35 and 60_exceptions.md R290, the padding test
of 41_bitstream_decoder.md R157, the "configured" tests of R24, and what a host observes (R9). The hardware has no
arithmetic condition codes (R30). -/

namespace Sys2Proof.Machine

/-- R290: the numeric code of a condition. -/
def Condition.code : Condition → BitVec 3
  | .invalidConfiguration => 1
  | .corruptHeader => 2
  | .invalidDistance => 3
  | .truncatedStream => 4
  | .endOfStream => 5

/-- R290: an error register as the host reads it, 0 for none. -/
def errCode (e : Option Condition) : BitVec 3 := (e.map Condition.code).getD 0

/-- R35: the `cstate` codes. -/
def CState.code : CState → BitVec 2
  | .idle => 0
  | .opened => 1
  | .closed => 2
  | .error => 3

/-- R35: the `dstate` codes. -/
def DState.code : DState → BitVec 3
  | .readingHeader => 0
  | .readingToken => 1
  | .appendingLiteral => 2
  | .copyingMatch => 3
  | .done => 4
  | .error => 5

/-- R157: `eof = 1`, at most 7 unread bits, all of them 0. -/
def tailIsPad (b : Bsd) : Bool := b.eof && decide (avail b ≤ 7) && peekBits b (avail b) 0 == 0

/-- R212: a header has been parsed: `dcfg_w` and `dcfg_l` hold legal values. -/
def headerParsed (d : Dmp) : Bool := decide (Config.legalW d.dcfgW.toNat) && decide (Config.legalL d.dcfgL.toNat)

/-- R94: the byte is in the covered alphabet of `literal_bits` = `l`. -/
def covered (l : Nat) (b : Byte) : Bool := l == 8 || decide (b.toNat < 2 ^ l - 1)

/-- R9: what a host observes. -/
structure Observation where
  obuf : List Byte
  cstate : BitVec 2
  cerr : BitVec 3
  rout : List Byte
  dstate : BitVec 3
  derr : BitVec 3
  dcfgW : Nibble
  dcfgL : Nibble
  deriving DecidableEq, Repr

/-- R9: the observation of a state. -/
def observe (s : State) : Observation :=
  { obuf := s.cmp.bse.obuf, cstate := s.cmp.cstate.code, cerr := errCode s.cmp.cerr, rout := s.dmp.rout,
    dstate := s.dmp.dstate.code, derr := errCode s.dmp.derr, dcfgW := s.dmp.dcfgW, dcfgL := s.dmp.dcfgL }

end Sys2Proof.Machine
end

