-- ==== Sys2Proof/Machine/Ops.lean ====
section
/-! DEFINITION. The shared operations: the window RAM, the blocks' commands and queries, error entry and reset, the
search, the compressor's step and the decompressor's transitions. Each is said once; the meanings call them. -/

namespace Sys2Proof.Machine

/-! ## How an operation ends -/

/-- An operation that ends without a next state. -/
inductive Stop where
  | fault (f : Fault)
  | refuse (r : Refusal)
  deriving DecidableEq, Repr

/-- What an operation of the model answers. -/
abbrev Step (α : Type) := Except Stop α

/-- R12 `refuse`. -/
def refuse {α : Type} (r : Refusal) : Step α := .error (.refuse r)

/-- The outcome of a stop. -/
def stopped : Stop → Host.Outcome State Fault Refusal
  | .fault f => .fault f
  | .refuse r => .refused r

/-- An operation of the compressor unit: it touches `cmp` and the report only (R20). -/
def onCmp (f : Cmp → Step (Cmp × Report)) (s : State) : Host.Outcome State Fault Refusal :=
  match f s.cmp with
  | .ok (c, r) => .next { s with cmp := c, report := r }
  | .error e => stopped e

/-- An operation of the decompressor unit: it touches `dmp` and the report only (R20). -/
def onDmp (f : Dmp → Step (Dmp × Report)) (s : State) : Host.Outcome State Fault Refusal :=
  match f s.dmp with
  | .ok (d, r) => .next { s with dmp := d, report := r }
  | .error e => stopped e

/-- An operation on the BSE block alone. -/
def onBse (f : Bse → Step Bse) : State → Host.Outcome State Fault Refusal :=
  onCmp fun c => do
    let b ← f c.bse
    return ({ c with bse := b }, .done .none)

/-- An operation on the BSD block alone. -/
def onBsd (f : Bsd → Step (Bsd × Report)) : State → Host.Outcome State Fault Refusal :=
  onDmp fun d => do
    let (b, r) ← f d.bsd
    return ({ d with bsd := b }, r)

/-- An operation on one window block alone. -/
def onWin (i : Win) (f : Window → Step (Window × OpResult)) : State → Host.Outcome State Fault Refusal :=
  match i with
  | .cwin => onCmp fun c => do
      let (w, r) ← f c.cwin
      return ({ c with cwin := w }, .done r)
  | .dwin => onDmp fun d => do
      let (w, r) ← f d.dwin
      return ({ d with dwin := w }, .done r)

/-! ## The window RAM (R12 `MemRead`, `MemWrite`) -/

/-- The canonical form: addresses strictly rising, so each at most once; an unlisted cell holds no value. -/
abbrev Memory.wf (m : Memory) : Prop := m.Pairwise fun x y => x.1 < y.1

/-- `MemRead(a, 1)`: the cell's byte, or none if the cell has not been written. -/
def memRead (m : Memory) (a : Nat) : Option Byte :=
  match m with
  | [] => none
  | (k, v) :: t => if k = a then some v else memRead t a

/-- `MemWrite(a, 1, b)`, keeping the list in order. -/
def memWrite (m : Memory) (a : Nat) (b : Byte) : Memory :=
  match m with
  | [] => [(a, b)]
  | (k, v) :: t => if a < k then (a, b) :: (k, v) :: t else if a = k then (a, b) :: t else (k, v) :: memWrite t a b

/-! ## SWD (42_sliding_window_dictionary.md) -/

/-- R23: the ring's size `2^W`. -/
def Window.size (w : Window) : Nat := 2 ^ w.bits

/-- R67: `hist(w, d)`; none if the cell has not been written. -/
def hist (w : Window) (d : Nat) : Option Byte := memRead w.buf (histAddr w d)

/-- R36: a read of the history; an unwritten cell is a fault. -/
def readHist (i : Win) (w : Window) (d : Nat) : Step Byte :=
  match hist w d with
  | some b => .ok b
  | none => .error (.fault (.unwrittenCell i))

/-- R171 without its range check: the ring has `2^wb` cells and no history; the RAM is not touched. -/
def clearWindow (w : Window) (wb : Nat) : Window := { w with bits := wb, wr := 0, fill := 0 }

/-- R171 `SWD.CLEAR`. -/
def swdClear (w : Window) (wb : Nat) : Step Window :=
  if Config.legalW wb then .ok (clearWindow w wb) else refuse .windowBitsOutOfRange

/-- R172 `SWD.PUSH`. -/
def push (w : Window) (b : Byte) : Window :=
  { w with buf := memWrite w.buf w.wr b, wr := (w.wr + 1) % w.size, fill := min (w.fill + 1) w.size }

/-- Pushing several bytes, in order. -/
def pushAll (w : Window) (bs : List Byte) : Window := bs.foldl push w

/-- R173 `SWD.HIST`. -/
def swdHist (i : Win) (w : Window) (d : Nat) : Step Byte :=
  if 1 ≤ d ∧ d ≤ w.fill then readHist i w d else refuse .outsideHistory

/-- The loop of R174: each turn reads after the turn before it has pushed (R73). -/
def copyLoop (d : Nat) : Nat → Window → Step (Window × List Byte)
  | 0, w => .ok (w, [])
  | n + 1, w => do
    let b ← readHist .dwin w d
    let (w', bs) ← copyLoop d n (push w b)
    return (w', b :: bs)

/-- R174 `SWD.COPY`: none is `InvalidDistance`, raised before any byte moves; else the window and the bytes moved. -/
def swdCopy (w : Window) (d n : Nat) : Step (Option (Window × List Byte)) :=
  if d = 0 then refuse .distanceZero
  else if d > w.fill ∨ d > w.size then .ok none
  else (copyLoop d n w).map some

/-! ## BSE (40_bitstream_encoder.md) -/

/-- R131 `BSE.CLEAR`. -/
def bseClear (_ : Bse) : Bse := { acc := 0, nacc := 0, flushed := false, obuf := [] }

/-- One turn of the loop of R132: a byte leaves when its eighth bit arrives. -/
def pushBit (b : Bse) (v : Bool) : Bse :=
  let acc : BitVec 8 := .ofNat 8 (b.acc.toNat * 2 + v.toNat)
  if b.nacc + 1 = 8 then { b with acc := 0, nacc := 0, obuf := b.obuf ++ [acc] }
  else { b with acc := acc, nacc := b.nacc + 1 }

/-- R132 `BSE.WRITE_BITS`. -/
def writeBits (v n : Nat) (b : Bse) : Step Bse :=
  if b.flushed then refuse .alreadyFlushed
  else if n < 1 ∨ n > Config.maxWriteBits then refuse .widthOutOfRange
  else .ok ((bitsOf n v).foldl pushBit b)

/-- R133 `BSE.FLUSH`. -/
def bseFlush (b : Bse) : Step Bse :=
  if b.flushed then refuse .alreadyFlushed
  else .ok { acc := 0, nacc := 0, flushed := true,
             obuf := if b.nacc > 0 then b.obuf ++ [.ofNat 8 (b.acc.toNat * 2 ^ (8 - b.nacc))] else b.obuf }

/-! ## BSD (41_bitstream_decoder.md) -/

/-- R151 `BSD.CLEAR`. -/
def bsdClear (_ : Bsd) : Bsd := { ibuf := [], rpos := 0, eof := false }

/-- R152 `BSD.FEED`. -/
def bsdFeed (x : Byte) (b : Bsd) : Step Bsd :=
  if b.eof then refuse .inputAlreadyEnded else .ok { b with ibuf := b.ibuf ++ [x] }

/-- R153 `BSD.END`. -/
def bsdEnd (b : Bsd) : Step Bsd := if b.eof then refuse .inputAlreadyEnded else .ok { b with eof := true }

/-- R158 `BSD.SKIP_BITS`. -/
def skipBits (n : Nat) (b : Bsd) : Step Bsd :=
  if n > avail b then refuse .beyondAvail else .ok { b with rpos := b.rpos + n }

/-- R156 `BSD.READ_BITS`. -/
def readBits (n : Nat) (b : Bsd) : Step (Bsd × Report) :=
  if n < 1 ∨ n > Config.maxWriteBits then refuse .widthOutOfRange
  else if avail b ≥ n then .ok ({ b with rpos := b.rpos + n }, .done (.value (.ofNat 16 (peekBits b n 0))))
  else if b.eof then .ok (b, .error .endOfStream)
  else .ok (b, .hold)

/-- R155 `BSD.PEEK_BITS`. -/
def bsdPeek (n off : Nat) (b : Bsd) : Step Half :=
  if n < 1 ∨ n > Config.maxWriteBits then refuse .widthOutOfRange
  else if off + n > avail b then refuse .beyondAvail
  else .ok (.ofNat 16 (peekBits b n off))

/-! ## TEM (43_token_emitter.md) -/

/-- R191 `TEM.EMIT_HEADER`. -/
def emitHeader (w l : Nat) (b : Bse) : Step Bse := writeBits (0x1000 + 0x100 * w + 0x10 * l) 16 b

/-- R192 `TEM.EMIT_LITERAL` under `literal_bits` = `l`. -/
def emitLiteral (l : Nat) (x : Byte) (b : Bse) : Step Bse := do
  let b ← writeBits 1 1 b
  if l = 8 then writeBits x.toNat 8 b
  else if x.toNat < 2 ^ l - 1 then writeBits x.toNat l b
  else do
    let b ← writeBits (2 ^ l - 1) l b
    writeBits x.toNat 8 b

/-- R193 `TEM.EMIT_MATCH` under `window_bits` = `w`. -/
def emitMatch (w d n : Nat) (b : Bse) : Step Bse :=
  if d < 1 ∨ d > 2 ^ w ∨ n < Config.minMatch ∨ n > Config.maxMatch then refuse .matchOutOfRange
  else do
    let b ← writeBits 0 1 b
    let b ← writeBits (d - 1) w b
    writeBits (n - Config.minMatch) Config.lenBits b

/-! ## TIN (44_token_interpreter.md) -/

/-- R211 `TIN.PARSE_HEADER`. -/
def parseHeader (b : Bsd) : HeaderAnswer :=
  if avail b < Config.headerBits then .needMore
  else
    let h := peekBits b 16 0
    if h / 0x1000 ≠ Config.version then .corrupt
    else if h / 0x100 % 16 < 8 then .corrupt
    else if h / 0x10 % 16 < 5 ∨ h / 0x10 % 16 > 8 then .corrupt
    else if h / 8 % 2 ≠ 0 then .corrupt
    else if h % 8 ≠ 0 then .corrupt
    else .header (.ofNat 4 (h / 0x100)) (.ofNat 4 (h / 0x10))

/-- R212 `TIN.PARSE_TOKEN` under the pair (`w`, `l`). -/
def parseToken (w l : Nat) (b : Bsd) : TokenAnswer :=
  let a := avail b
  if a < 1 then .needMore
  else if peekBits b 1 0 = 1 then
    if a < 1 + l then .needMore
    else if l < 8 ∧ peekBits b l 1 = 2 ^ l - 1 then
      if a < 1 + l + 8 then .needMore else .literal (.ofNat 8 (peekBits b 8 (1 + l))) (1 + l + 8)
    else .literal (literalByte (peekBits b l 1)) (1 + l)
  else if a < 5 + w then .needMore
  else .matched (distanceOf (peekBits b w 1)) (lengthOf (.ofNat 4 (peekBits b 4 (1 + w)))) (5 + w)

/-! ## Errors: entry, and the only way out (60_exceptions.md R300, R301) -/

/-- R300: error entry of the compressor. Nothing is saved, nothing is vectored. -/
def failCmp (e : Condition) (c : Cmp) : Cmp × Report := ({ c with cerr := some e, cstate := .error }, .error e)

/-- R300, R260 `fail(E)`: error entry of the decompressor. -/
def failDmp (e : Condition) (d : Dmp) : Dmp × Report := ({ d with derr := some e, dstate := .error }, .error e)

/-- R330 `C.RESET`: the one way out of `C_ERROR` (R301). The window RAM, its size and the lookahead cells stay. -/
def resetCmp (c : Cmp) : Cmp :=
  { c with bse := bseClear c.bse, cwin := { c.cwin with wr := 0, fill := 0 }, laN := 0, ccfgW := 0, ccfgL := 0,
           cerr := none, cstate := .idle }

/-- R332 `D.RESET`: the one way out of `Error` and `Done` (R267, R268). The window RAM, its size and the token latch
stay. -/
def resetDmp (d : Dmp) : Dmp :=
  { d with bsd := bsdClear d.bsd, dwin := { d.dwin with wr := 0, fill := 0 }, dcfgW := 0, dcfgL := 0, rout := [],
           derr := none, dstate := .readingHeader }

/-! ## MSE and CSQ (45_match_search_engine.md) -/

/-- R231: how many of the bytes `x` agree with the history from distance `d` on, running forward; distance 0 is not yet
in the window, so the length never exceeds `d`. -/
def agree (w : Window) : List Byte → Nat → Step Nat
  | [], _ => .ok 0
  | _, 0 => .ok 0
  | x :: t, d + 1 => do
    let h ← readHist .cwin w (d + 1)
    if h = x then return (← agree w t d) + 1 else return 0

/-- R25, R231: the bytes the search looks for, `la[0 .. min(la_n, 17) - 1]`. -/
def lookahead (c : Cmp) : List Byte := c.la.take (min c.laN Config.maxMatch)

/-- R232: the loop over the distances 1 to `n`, smallest first; a candidate replaces the best only if strictly longer. -/
def searchTo (w : Window) (x : List Byte) : Nat → Step (Nat × Nat)
  | 0 => .ok (0, 0)
  | d + 1 => do
    let best ← searchTo w x d
    let k ← agree w x (d + 1)
    return if k > best.1 then (k, d + 1) else best

/-- R232 `MSE.SEARCH`: `(best_len, best_dist)`. -/
def search (c : Cmp) : Step (Nat × Nat) := searchTo c.cwin (lookahead c) c.cwin.fill

/-- R235: drop the `m` encoded bytes from the front of the lookahead; the other cells keep what they hold. -/
def dropEncoded (m : Nat) (c : Cmp) : Cmp :=
  { c with la := (c.la.drop m).take (c.laN - m) ++ c.la.drop (c.laN - m), laN := c.laN - m }

/-- R235 `CSQ.ENCODE_STEP`. -/
def encodeStep (c : Cmp) : Step Cmp :=
  if c.cstate ≠ .opened ∨ c.laN < 1 then refuse .nothingToEncode
  else do
    let (len, dist) ← search c
    if len < Config.minMatch then do
      let b ← emitLiteral c.ccfgL.toNat (c.la.getD 0 0) c.bse
      return dropEncoded 1 { c with bse := b, cwin := push c.cwin (c.la.getD 0 0) }
    else do
      let b ← emitMatch c.ccfgW.toNat dist len c.bse
      return dropEncoded len { c with bse := b, cwin := pushAll c.cwin (c.la.take len) }

/-- R238: encode until the lookahead is empty; each step removes at least one byte, so `la_n` turns are enough. -/
def drain : Nat → Cmp → Step Cmp
  | 0, c => .ok c
  | n + 1, c => if c.laN = 0 then .ok c else encodeStep c >>= drain n

/-- R236 `C.OPEN`. -/
def cOpen (w l : Nat) (c : Cmp) : Step (Cmp × Report) :=
  if c.cstate ≠ .idle then refuse .notIdle
  else if w < 8 ∨ w > 15 ∨ l < 5 ∨ l > 8 then .ok (failCmp .invalidConfiguration c)
  else do
    let cwin ← swdClear c.cwin w
    let b ← emitHeader w l c.bse
    return ({ c with ccfgW := .ofNat 4 w, ccfgL := .ofNat 4 l, cwin := cwin, laN := 0, bse := b, cstate := .opened },
      .done .none)

/-- R237: the byte joins the lookahead. -/
def acceptByte (x : Byte) (c : Cmp) : Cmp := { c with la := c.la.set c.laN x, laN := c.laN + 1 }

/-- R237 `C.WRITE`. -/
def cWrite (x : Byte) (c : Cmp) : Step Cmp :=
  if c.cstate ≠ .opened then refuse .noStreamOpen
  else
    let c := acceptByte x c
    if c.laN = Config.laDepth then encodeStep c else .ok c

/-- R238 `C.CLOSE`. -/
def cClose (c : Cmp) : Step Cmp :=
  if c.cstate ≠ .opened then refuse .noStreamOpen
  else do
    let c ← drain c.laN c
    let b ← bseFlush c.bse
    return { c with bse := b, cstate := .closed }

/-! ## DSM (46_decompressor_state_machine.md) -/

/-- R263, case `Header(w, l)`. -/
def takeHeader (w l : Nibble) (d : Dmp) : Step (Dmp × Report) := do
  let b ← skipBits Config.headerBits d.bsd
  let dwin ← swdClear d.dwin w.toNat
  return ({ d with bsd := b, dcfgW := w, dcfgL := l, dwin := dwin, dstate := .readingToken }, .done .none)

/-- R263, case `Corrupt`. -/
def takeCorruptHeader (d : Dmp) : Step (Dmp × Report) := do
  let b ← skipBits Config.headerBits d.bsd
  return failDmp .corruptHeader { d with bsd := b }

/-- R263, R264, case `NeedMore`. -/
def needMore (d : Dmp) : Dmp × Report := if d.bsd.eof then failDmp .truncatedStream d else (d, .hold)

/-- R264: the unread bits are padding. -/
def takePad (d : Dmp) : Step (Dmp × Report) := do
  let b ← skipBits (avail d.bsd) d.bsd
  return ({ d with bsd := b, dstate := .done }, .done .none)

/-- R264, case `Literal(b, k)`: consume and latch. -/
def latchLiteral (x : Byte) (k : Nat) (d : Dmp) : Step Dmp := do
  let b ← skipBits k d.bsd
  return { d with bsd := b, tokKind := true, tokByte := x, dstate := .appendingLiteral }

/-- R264, case `Match(d, n, k)`: consume and latch. -/
def latchMatch (dist : Half) (len : Five) (k : Nat) (d : Dmp) : Step Dmp := do
  let b ← skipBits k d.bsd
  return { d with bsd := b, tokKind := false, tokDist := dist, tokLen := len, dstate := .copyingMatch }

/-- R265: `D.STEP` in `AppendingLiteral`. -/
def appendLiteral (d : Dmp) : Dmp :=
  { d with rout := d.rout ++ [d.tokByte], dwin := push d.dwin d.tokByte, dstate := .readingToken }

/-- R266: `D.STEP` in `CopyingMatch`. -/
def copyMatch (d : Dmp) : Step (Dmp × Report) := do
  match ← swdCopy d.dwin d.tokDist.toNat d.tokLen.toNat with
  | none => return failDmp .invalidDistance d
  | some (w, bs) => return ({ d with dwin := w, rout := d.rout ++ bs, dstate := .readingToken }, .done .none)

/-- R263: `D.STEP` in `ReadingHeader`. -/
def stepHeader (d : Dmp) : Step (Dmp × Report) :=
  match parseHeader d.bsd with
  | .needMore => .ok (needMore d)
  | .corrupt => takeCorruptHeader d
  | .header w l => takeHeader w l d

/-- R264: `D.STEP` in `ReadingToken`. -/
def stepToken (d : Dmp) : Step (Dmp × Report) :=
  if tailIsPad d.bsd then takePad d
  else if ¬ headerParsed d then refuse .headerNotParsed
  else
    match parseToken d.dcfgW.toNat d.dcfgL.toNat d.bsd with
    | .needMore => .ok (needMore d)
    | .literal x k => (latchLiteral x k d).map fun d => (d, .done .none)
    | .matched dist len k => (latchMatch dist len k d).map fun d => (d, .done .none)

/-- R262, R274 `D.STEP`: one transition, chosen by `dstate`; `Done` and `Error` have no step (R267, R268). -/
def dStep (d : Dmp) : Step (Dmp × Report) :=
  match d.dstate with
  | .readingHeader => stepHeader d
  | .readingToken => stepToken d
  | .appendingLiteral => .ok (appendLiteral d, .done .none)
  | .copyingMatch => copyMatch d
  | .done => .ok (d, .noStep)
  | .error => .ok (d, .noStep)

/-! ## Stream elements carried out in full (assumption logs 4 and 12)

The operand is the element. DESIGN CHOICE (assumption log 21): a header or a token consumes as many bits as it has (R98)
without a look at whether the bits at the read cursor spell it; where fewer are there it is refused as beyondAvail.
`step` only gives an element that was read there. -/

/-- A literal token of `k` bits under `literal_bits` = `l`: R264, then R265. The `k` bits at the cursor are skipped,
whatever they spell (DESIGN CHOICE, assumption log 21). -/
def carryLiteral (l : Nat) (x : Byte) (k : Nat) (d : Dmp) : Step (Dmp × Report) :=
  if d.dstate ≠ .readingToken ∨ d.dcfgL.toNat ≠ l then refuse .elementOutOfPlace
  else (latchLiteral x k d).map fun d => (appendLiteral d, .done .none)

/-- A match token under `window_bits` = `w`: R264, then R266. The `5 + w` bits at the cursor are skipped, whatever they
spell (DESIGN CHOICE, assumption log 21). -/
def carryMatch (w dist : Nat) (len : Nibble) (d : Dmp) : Step (Dmp × Report) :=
  if d.dstate ≠ .readingToken ∨ d.dcfgW.toNat ≠ w then refuse .elementOutOfPlace
  else latchMatch (distanceOf dist) (lengthOf len) (5 + w) d >>= copyMatch

/-- The short literal of R94, R98; the all-ones code is the escape and no literal when L < 8. -/
def carryShort (l c : Nat) (d : Dmp) : Step (Dmp × Report) :=
  if l < 8 ∧ c = 2 ^ l - 1 then refuse .elementOutOfPlace else carryLiteral l (literalByte c) (1 + l) d

/-- The escaped literal of R95, R98. -/
def carryEscaped (l : Nat) (r : Byte) (d : Dmp) : Step (Dmp × Report) := carryLiteral l r (1 + l + 8) d

/-- The header of R91: legal (R92) or `CorruptHeader`. The 16 bits at the cursor are skipped, whatever they spell (DESIGN
CHOICE, assumption log 21). -/
def carryHeader (v w l : Nibble) (k : BitVec 1) (r : BitVec 3) (d : Dmp) : Step (Dmp × Report) :=
  if d.dstate ≠ .readingHeader then refuse .elementOutOfPlace
  else if headerLegal v w l k r then takeHeader w l d
  else takeCorruptHeader d

/-- Padding of `k` bits (R100). -/
def carryPad (k : Nat) (d : Dmp) : Step (Dmp × Report) :=
  if d.dstate ≠ .readingToken ∨ ¬ tailIsPad d.bsd ∨ avail d.bsd ≠ k then refuse .elementOutOfPlace
  else takePad d

/-- The stream element the decompressor is about to read, if it is all there: what plays the part of a fetch (R29). -/
def fetchElement (d : Dmp) : Option Instr :=
  match d.dstate with
  | .readingHeader => (decodeHeader (unread d.bsd)).toOption.map Prod.fst
  | .readingToken =>
    if tailIsPad d.bsd then (decodeTail (unread d.bsd)).toOption
    else (decodeToken d.dcfgW.toNat d.dcfgL.toNat (unread d.bsd)).toOption.map Prod.fst
  | .appendingLiteral => none
  | .copyingMatch => none
  | .done => none
  | .error => none

end Sys2Proof.Machine
end

