-- ==== Sys2Proof/Machine/BitDecoder.lean ====
section
/-! DEFINITION. bitstream_decoder operations (41_bitstream_decoder.md). -/

namespace Sys2Proof.Machine

/-- `BSD.CLEAR` (R151). -/
def execBsdClear (s : State) : Host.Outcome State Fault Refusal :=
  onBsd (fun b => .ok (bsdClear b, .done .none)) s

/-- `BSD.FEED` (R152). -/
def execBsdFeed (x : Byte) (s : State) : Host.Outcome State Fault Refusal :=
  onBsd (fun b => (bsdFeed x b).map fun b => (b, .done .none)) s

/-- `BSD.END` (R153). -/
def execBsdEnd (s : State) : Host.Outcome State Fault Refusal :=
  onBsd (fun b => (bsdEnd b).map fun b => (b, .done .none)) s

/-- `BSD.READ_BITS` (R156). -/
def execBsdReadBits (nBits : Five) (s : State) : Host.Outcome State Fault Refusal :=
  onBsd (readBits nBits.toNat) s

/-- `BSD.SKIP_BITS` (R158). -/
def execBsdSkipBits (n : Five) (s : State) : Host.Outcome State Fault Refusal :=
  onBsd (fun b => (skipBits n.toNat b).map fun b => (b, .done .none)) s

/-- `BSD.AVAIL` (R154). -/
def execBsdAvail (s : State) : Host.Outcome State Fault Refusal :=
  onBsd (fun b => .ok (b, .done (.count (avail b)))) s

/-- `BSD.PEEK_BITS` (R155). -/
def execBsdPeekBits (nBits off : Five) (s : State) : Host.Outcome State Fault Refusal :=
  onBsd (fun b => (bsdPeek nBits.toNat off.toNat b).map fun v => (b, .done (.value v))) s

/-- `BSD.TAIL_IS_PAD` (R157). -/
def execBsdTailIsPad (s : State) : Host.Outcome State Fault Refusal :=
  onBsd (fun b => .ok (b, .done (.flag (tailIsPad b)))) s

end Sys2Proof.Machine
end

