-- ==== Sys2Proof/Machine/BitEncoder.lean ====
section
/-! DEFINITION. bitstream_encoder operations (40_bitstream_encoder.md). -/

namespace Sys2Proof.Machine

/-- `BSE.CLEAR` (R131). -/
def execBseClear (s : State) : Host.Outcome State Fault Refusal :=
  onBse (fun b => .ok (bseClear b)) s

/-- `BSE.WRITE_BITS` (R132). -/
def execBseWriteBits (value : Half) (nBits : Five) (s : State) : Host.Outcome State Fault Refusal :=
  onBse (writeBits value.toNat nBits.toNat) s

/-- `BSE.FLUSH` (R133). -/
def execBseFlush (s : State) : Host.Outcome State Fault Refusal :=
  onBse bseFlush s

end Sys2Proof.Machine
end

