-- ==== Sys2Proof/Machine/Compressor.lean ====
section
/-! DEFINITION. match_search_engine, the compressor sequencer and the compressor's host commands
(45_match_search_engine.md, 70_reset_and_hazards.md R330). -/

namespace Sys2Proof.Machine

/-- `MSE.SEARCH` (R232). -/
def execMseSearch (s : State) : Host.Outcome State Fault Refusal :=
  onCmp (fun c => (search c).map fun (len, dist) => (c, .done (.search len dist))) s

/-- `CSQ.ENCODE_STEP` (R235). -/
def execCsqEncodeStep (s : State) : Host.Outcome State Fault Refusal :=
  onCmp (fun c => (encodeStep c).map fun c => (c, .done .none)) s

/-- `C.RESET` (R330). -/
def execCReset (s : State) : Host.Outcome State Fault Refusal :=
  onCmp (fun c => .ok (resetCmp c, .done .none)) s

/-- `C.OPEN` (R236). -/
def execCOpen (w l : Nat) (s : State) : Host.Outcome State Fault Refusal :=
  onCmp (cOpen w l) s

/-- `C.WRITE` (R237). -/
def execCWrite (x : Byte) (s : State) : Host.Outcome State Fault Refusal :=
  onCmp (fun c => (cWrite x c).map fun c => (c, .done .none)) s

/-- `C.CLOSE` (R238). -/
def execCClose (s : State) : Host.Outcome State Fault Refusal :=
  onCmp (fun c => (cClose c).map fun c => (c, .done .none)) s

end Sys2Proof.Machine
end

