-- ==== Sys2Proof/Machine/Decompressor.lean ====
section
/-! DEFINITION. The decompressor's host commands and its autonomous step (46_decompressor_state_machine.md,
70_reset_and_hazards.md R332). -/

namespace Sys2Proof.Machine

/-- `D.RESET` (R332). -/
def execDReset (s : State) : Host.Outcome State Fault Refusal :=
  onDmp (fun d => .ok (resetDmp d, .done .none)) s

/-- `D.FEED` (R261). -/
def execDFeed (x : Byte) (s : State) : Host.Outcome State Fault Refusal :=
  onBsd (fun b => (bsdFeed x b).map fun b => (b, .done .none)) s

/-- `D.END` (R269). -/
def execDEnd (s : State) : Host.Outcome State Fault Refusal :=
  onBsd (fun b => (bsdEnd b).map fun b => (b, .done .none)) s

/-- `D.STEP` (R262 to R268, R274). -/
def execDStep (s : State) : Host.Outcome State Fault Refusal :=
  onDmp dStep s

end Sys2Proof.Machine
end

