-- ==== Sys2Proof/Machine/Dictionary.lean ====
section
/-! DEFINITION. sliding_window_dictionary operations (42_sliding_window_dictionary.md). -/

namespace Sys2Proof.Machine

/-- `SWD.CLEAR` (R171). -/
def execSwdClear (i : Win) (wb : Nat) (s : State) : Host.Outcome State Fault Refusal :=
  onWin i (fun w => (swdClear w wb).map fun w => (w, .none)) s

/-- `SWD.PUSH` (R172). -/
def execSwdPush (i : Win) (b : Byte) (s : State) : Host.Outcome State Fault Refusal :=
  onWin i (fun w => .ok (push w b, .none)) s

/-- `SWD.COPY` (R174), the block driven directly: the bytes go to `rout` and `dwin`; `InvalidDistance` is the block's
answer and changes nothing (assumption log 10). -/
def execSwdCopy (distance : Half) (length : Five) (s : State) : Host.Outcome State Fault Refusal :=
  onDmp (fun d => (swdCopy d.dwin distance.toNat length.toNat).map fun
    | none => (d, .error .invalidDistance)
    | some (w, bs) => ({ d with dwin := w, rout := d.rout ++ bs }, .done (.bytes bs))) s

/-- `SWD.HIST` (R173). -/
def execSwdHist (i : Win) (d : Half) (s : State) : Host.Outcome State Fault Refusal :=
  onWin i (fun w => (swdHist i w d.toNat).map fun b => (w, .byte b)) s

end Sys2Proof.Machine
end

