-- ==== Sys2Proof/Machine/Emitter.lean ====
section
/-! DEFINITION. token_emitter operations (43_token_emitter.md); W and L are `ccfg_w` and `ccfg_l`. -/

namespace Sys2Proof.Machine

/-- `TEM.EMIT_HEADER` (R191). -/
def execTemEmitHeader (w l : Nibble) (s : State) : Host.Outcome State Fault Refusal :=
  onBse (emitHeader w.toNat l.toNat) s

/-- `TEM.EMIT_LITERAL` (R192). -/
def execTemEmitLiteral (b : Byte) (s : State) : Host.Outcome State Fault Refusal :=
  onBse (emitLiteral s.cmp.ccfgL.toNat b) s

/-- `TEM.EMIT_MATCH` (R193). -/
def execTemEmitMatch (distance : Half) (length : Five) (s : State) : Host.Outcome State Fault Refusal :=
  onBse (emitMatch s.cmp.ccfgW.toNat distance.toNat length.toNat) s

end Sys2Proof.Machine
end

