-- ==== Sys2Proof/Machine/Interpreter.lean ====
section
/-! DEFINITION. token_interpreter queries (44_token_interpreter.md). -/

namespace Sys2Proof.Machine

/-- `TIN.PARSE_HEADER` (R211). -/
def execTinParseHeader (s : State) : Host.Outcome State Fault Refusal :=
  onDmp (fun d => .ok (d, .done (.header (parseHeader d.bsd)))) s

/-- `TIN.PARSE_TOKEN` (R212). -/
def execTinParseToken (s : State) : Host.Outcome State Fault Refusal :=
  onDmp (fun d =>
    if ¬ headerParsed d then refuse .headerNotParsed
    else .ok (d, .done (.token (parseToken d.dcfgW.toNat d.dcfgL.toNat d.bsd)))) s

end Sys2Proof.Machine
end

