-- ==== Sys2Proof/Machine/NoOp.lean ====
section
/-! DEFINITION. The codes that name no operation (30_encoding.md R108, 60_exceptions.md R304). -/

namespace Sys2Proof.Machine

/-- `BSE.op = 0`: code 0 on an op port is "no operation" (R108, U24: "0 does nothing"). -/
def execNoneBse (s : State) : Host.Outcome State Fault Refusal :=
  .next s

/-- `BSD.op = 0`: code 0 on an op port is "no operation" (R108, U24: "0 does nothing"). -/
def execNoneBsd (s : State) : Host.Outcome State Fault Refusal :=
  .next s

/-- `SWD.op = 0`, of either instance: no operation (R108, U24). -/
def execNoneSwd (_i : Win) (s : State) : Host.Outcome State Fault Refusal :=
  .next s

/-- `TEM.op = 0`: code 0 on an op port is "no operation" (R108, U24: "0 does nothing"). -/
def execNoneTem (s : State) : Host.Outcome State Fault Refusal :=
  .next s

/-- `c_op = 0`: code 0 on an op port is "no operation" (R108, U24: "0 does nothing"). -/
def execNoneCOp (s : State) : Host.Outcome State Fault Refusal :=
  .next s

/-- `d_op = 0`: code 0 on an op port is "no operation" (R108, U24: "0 does nothing"). -/
def execNoneDOp (s : State) : Host.Outcome State Fault Refusal :=
  .next s

/-- `d_op = 3`: unused, refused (R108, R304). -/
def execReservedDOp3 (_s : State) : Host.Outcome State Fault Refusal :=
  stopped (.refuse .unusedCode)

/-- code 6 or 7 on the BSD's `op` port: unused, refused (R108, R304). -/
def execReservedBsdOp (_low : BitVec 1) (_s : State) : Host.Outcome State Fault Refusal :=
  stopped (.refuse .unusedCode)

end Sys2Proof.Machine
end

