-- ==== Sys2Proof/Machine/Stream.lean ====
section
/-! DEFINITION. The elements of the compressed stream, carried out by the decompressor: what `D.STEP` does with
each (46_decompressor_state_machine.md R263 to R266), a token in full (assumption log 4), and the element as its operands
give it, whatever bits stand at the read cursor (assumption log 21). -/

namespace Sys2Proof.Machine

/-- `HDR` (R91, R92, R263). -/
def execHdr (v w l : Nibble) (k : BitVec 1) (r : BitVec 3) (s : State) : Host.Outcome State Fault Refusal :=
  onDmp (carryHeader v w l k r) s

/-- `LIT_L5` (R94, R264, R265). -/
def execLitL5 (c : BitVec 5) (s : State) : Host.Outcome State Fault Refusal :=
  onDmp (carryShort 5 c.toNat) s

/-- `LIT_L6` (R94, R264, R265). -/
def execLitL6 (c : BitVec 6) (s : State) : Host.Outcome State Fault Refusal :=
  onDmp (carryShort 6 c.toNat) s

/-- `LIT_L7` (R94, R264, R265). -/
def execLitL7 (c : BitVec 7) (s : State) : Host.Outcome State Fault Refusal :=
  onDmp (carryShort 7 c.toNat) s

/-- `LIT_L8` (R94, R264, R265). -/
def execLitL8 (c : BitVec 8) (s : State) : Host.Outcome State Fault Refusal :=
  onDmp (carryShort 8 c.toNat) s

/-- `ESC_L5` (R95, R102, R264, R265). -/
def execEscL5 (r : Byte) (s : State) : Host.Outcome State Fault Refusal :=
  onDmp (carryEscaped 5 r) s

/-- `ESC_L6` (R95, R102, R264, R265). -/
def execEscL6 (r : Byte) (s : State) : Host.Outcome State Fault Refusal :=
  onDmp (carryEscaped 6 r) s

/-- `ESC_L7` (R95, R102, R264, R265). -/
def execEscL7 (r : Byte) (s : State) : Host.Outcome State Fault Refusal :=
  onDmp (carryEscaped 7 r) s

/-- `MATCH_W8` (R96, R97, R264, R266). -/
def execMatchW8 (d : BitVec 8) (n : Nibble) (s : State) : Host.Outcome State Fault Refusal :=
  onDmp (carryMatch 8 d.toNat n) s

/-- `MATCH_W9` (R96, R97, R264, R266). -/
def execMatchW9 (d : BitVec 9) (n : Nibble) (s : State) : Host.Outcome State Fault Refusal :=
  onDmp (carryMatch 9 d.toNat n) s

/-- `MATCH_W10` (R96, R97, R264, R266). -/
def execMatchW10 (d : BitVec 10) (n : Nibble) (s : State) : Host.Outcome State Fault Refusal :=
  onDmp (carryMatch 10 d.toNat n) s

/-- `MATCH_W11` (R96, R97, R264, R266). -/
def execMatchW11 (d : BitVec 11) (n : Nibble) (s : State) : Host.Outcome State Fault Refusal :=
  onDmp (carryMatch 11 d.toNat n) s

/-- `MATCH_W12` (R96, R97, R264, R266). -/
def execMatchW12 (d : BitVec 12) (n : Nibble) (s : State) : Host.Outcome State Fault Refusal :=
  onDmp (carryMatch 12 d.toNat n) s

/-- `MATCH_W13` (R96, R97, R264, R266). -/
def execMatchW13 (d : BitVec 13) (n : Nibble) (s : State) : Host.Outcome State Fault Refusal :=
  onDmp (carryMatch 13 d.toNat n) s

/-- `MATCH_W14` (R96, R97, R264, R266). -/
def execMatchW14 (d : BitVec 14) (n : Nibble) (s : State) : Host.Outcome State Fault Refusal :=
  onDmp (carryMatch 14 d.toNat n) s

/-- `MATCH_W15` (R96, R97, R264, R266). -/
def execMatchW15 (d : BitVec 15) (n : Nibble) (s : State) : Host.Outcome State Fault Refusal :=
  onDmp (carryMatch 15 d.toNat n) s

/-- `PAD` (R100, R264). -/
def execPad (k : Nat) (s : State) : Host.Outcome State Fault Refusal :=
  onDmp (carryPad k) s

end Sys2Proof.Machine
end

