-- ==== Sys2Proof/Machine/Dispatch.lean ====
section
/-! DEFINITION. The dispatch: one arm per instruction. -/

namespace Sys2Proof.Machine

def exec (i : Instr) (s : State) : Host.Outcome State Fault Refusal :=
  match i with
  | .hdr v w l k r => Sys2Proof.Machine.execHdr v w l k r s
  | .litL5 c => Sys2Proof.Machine.execLitL5 c s
  | .litL6 c => Sys2Proof.Machine.execLitL6 c s
  | .litL7 c => Sys2Proof.Machine.execLitL7 c s
  | .litL8 c => Sys2Proof.Machine.execLitL8 c s
  | .escL5 r => Sys2Proof.Machine.execEscL5 r s
  | .escL6 r => Sys2Proof.Machine.execEscL6 r s
  | .escL7 r => Sys2Proof.Machine.execEscL7 r s
  | .matchW8 d n => Sys2Proof.Machine.execMatchW8 d n s
  | .matchW9 d n => Sys2Proof.Machine.execMatchW9 d n s
  | .matchW10 d n => Sys2Proof.Machine.execMatchW10 d n s
  | .matchW11 d n => Sys2Proof.Machine.execMatchW11 d n s
  | .matchW12 d n => Sys2Proof.Machine.execMatchW12 d n s
  | .matchW13 d n => Sys2Proof.Machine.execMatchW13 d n s
  | .matchW14 d n => Sys2Proof.Machine.execMatchW14 d n s
  | .matchW15 d n => Sys2Proof.Machine.execMatchW15 d n s
  | .pad k => Sys2Proof.Machine.execPad k s
  | .bseClear => Sys2Proof.Machine.execBseClear s
  | .bseWriteBits value nBits => Sys2Proof.Machine.execBseWriteBits value nBits s
  | .bseFlush => Sys2Proof.Machine.execBseFlush s
  | .bsdClear => Sys2Proof.Machine.execBsdClear s
  | .bsdFeed b => Sys2Proof.Machine.execBsdFeed b s
  | .bsdEnd => Sys2Proof.Machine.execBsdEnd s
  | .bsdReadBits nBits => Sys2Proof.Machine.execBsdReadBits nBits s
  | .bsdSkipBits n => Sys2Proof.Machine.execBsdSkipBits n s
  | .bsdAvail => Sys2Proof.Machine.execBsdAvail s
  | .bsdPeekBits nBits off => Sys2Proof.Machine.execBsdPeekBits nBits off s
  | .bsdTailIsPad => Sys2Proof.Machine.execBsdTailIsPad s
  | .swdClear u w => Sys2Proof.Machine.execSwdClear u w s
  | .swdPush u b => Sys2Proof.Machine.execSwdPush u b s
  | .swdCopy distance length => Sys2Proof.Machine.execSwdCopy distance length s
  | .swdHist u d => Sys2Proof.Machine.execSwdHist u d s
  | .temEmitHeader w l => Sys2Proof.Machine.execTemEmitHeader w l s
  | .temEmitLiteral b => Sys2Proof.Machine.execTemEmitLiteral b s
  | .temEmitMatch distance length => Sys2Proof.Machine.execTemEmitMatch distance length s
  | .tinParseHeader => Sys2Proof.Machine.execTinParseHeader s
  | .tinParseToken => Sys2Proof.Machine.execTinParseToken s
  | .mseSearch => Sys2Proof.Machine.execMseSearch s
  | .csqEncodeStep => Sys2Proof.Machine.execCsqEncodeStep s
  | .cReset => Sys2Proof.Machine.execCReset s
  | .cOpen w l => Sys2Proof.Machine.execCOpen w l s
  | .cWrite b => Sys2Proof.Machine.execCWrite b s
  | .cClose => Sys2Proof.Machine.execCClose s
  | .dReset => Sys2Proof.Machine.execDReset s
  | .dFeed b => Sys2Proof.Machine.execDFeed b s
  | .dEnd => Sys2Proof.Machine.execDEnd s
  | .dStep => Sys2Proof.Machine.execDStep s
  | .reservedDOp3 => Sys2Proof.Machine.execReservedDOp3 s
  | .noneBse => Sys2Proof.Machine.execNoneBse s
  | .noneBsd => Sys2Proof.Machine.execNoneBsd s
  | .noneSwd u => Sys2Proof.Machine.execNoneSwd u s
  | .noneTem => Sys2Proof.Machine.execNoneTem s
  | .noneCOp => Sys2Proof.Machine.execNoneCOp s
  | .noneDOp => Sys2Proof.Machine.execNoneDOp s
  | .reservedBsdOp low => Sys2Proof.Machine.execReservedBsdOp low s

end Sys2Proof.Machine
end

