-- ==== Sys2Proof/Machine/Step.lean ====
section
/-! DEFINITION. One step of the machine (00_scope.md R7): what the host has presented is taken first; with nothing
presented the decompressor moves on its own, by the stream element at its read cursor or else by `D.STEP`
(assumption logs 3 and 4). -/

namespace Sys2Proof.Machine

/-- One step. -/
def step (s : State) : Host.Outcome State Fault Refusal :=
  match s.inbox with
  | p :: rest =>
    match decodePort p with
    | .ok i => exec i { s with inbox := rest }
    | .error e => .refused (.undecodable e)
  | [] =>
    match fetchElement s.dmp with
    | some i => exec i s
    | none => exec .dStep s

/-- The bytes that hold a bit string from stream position 0 on, the last one filled up with zeros (R61, R133). -/
def bytesOfBits : Nat → List Bool → List Byte
  | 0, _ => []
  | n + 1, bits =>
    if bits = [] then []
    else .ofNat 8 (valueOf (bits.take 8 ++ List.replicate (8 - bits.length) false)) :: bytesOfBits n (bits.drop 8)

/-- A decompressor that is about to read these bits. -/
def State.withUnread (s : State) (bits : List Bool) (st : DState) (w l : Nibble) : State :=
  { s with inbox := [], dmp := { s.dmp with
      bsd := { s.dmp.bsd with ibuf := bytesOfBits bits.length bits, rpos := 0 }, dstate := st, dcfgW := w, dcfgL := l } }

/-- The state whose next step runs the instruction of a table word (assumption log 5): an operation is presented at its
port; a stream element is put at the read cursor, with the decompressor at the state and under the configuration that
read it. -/
def State.withFetchWord (s : State) (nbits w : Nat) : State :=
  match tableWord nbits w with
  | none => s
  | some (.port p) => { s with inbox := p :: s.inbox }
  | some (.header b) => s.withUnread b .readingHeader s.dmp.dcfgW s.dmp.dcfgL
  | some (.token cw cl b) => s.withUnread b .readingToken (.ofNat 4 cw) (.ofNat 4 cl)

end Sys2Proof.Machine
end

