-- ==== Sys2Proof/Machine/Codec.lean ====
section
/-! DEFINITION. Host scripts (30_encoding.md R106) and the two functions the hardware computes
(45_match_search_engine.md R239, 46_decompressor_state_machine.md R270), as runs of `exec`. -/

namespace Sys2Proof.Machine

/-- A host script: one operation after the other, up to the first stop. -/
def runScript : List Instr → State → Host.Outcome State Fault Refusal
  | [], s => .next s
  | i :: rest, s =>
    match exec i s with
    | .next s' => runScript rest s'
    | .fault f => .fault f
    | .refused r => .refused r

/-- The result of a run (R9): bytes, a condition, or a run that stopped or did not end. -/
inductive RunResult where
  | ok (bs : List Byte)
  | err (c : Condition)
  | stuck
  deriving DecidableEq, Repr

/-- R9: the result of a compress run. -/
def compressResult : Host.Outcome State Fault Refusal → RunResult
  | .next s =>
    match s.cmp.cstate, s.cmp.cerr with
    | .closed, _ => .ok s.cmp.bse.obuf
    | .error, some c => .err c
    | _, _ => .stuck
  | _ => .stuck

/-- R239: `C.RESET`, `C.OPEN W L`, one `C.WRITE` per byte, `C.CLOSE`; the script ends where `C.OPEN` raises. -/
def compress (s : State) (data : List Byte) (w l : Nat) : RunResult :=
  match runScript [.cReset, .cOpen w l] s with
  | .next s' =>
    if s'.cmp.cstate = .error then compressResult (.next s')
    else compressResult (runScript (data.map .cWrite ++ [.cClose]) s')
  | o => compressResult o

/-- R270: `D.STEP` until none is enabled, at most `n` of them. -/
def settle : Nat → State → Host.Outcome State Fault Refusal
  | 0, s => .next s
  | n + 1, s =>
    if s.dmp.dstate = .done ∨ s.dmp.dstate = .error then .next s
    else
      match exec .dStep s with
      | .next s' => settle n s'
      | .fault f => .fault f
      | .refused r => .refused r

/-- R9: the result of a decompress run. -/
def decompressResult : Host.Outcome State Fault Refusal → RunResult
  | .next s =>
    match s.dmp.dstate, s.dmp.derr with
    | .done, _ => .ok s.dmp.rout
    | .error, some c => .err c
    | _, _ => .stuck
  | _ => .stuck

/-- A visit to a token boundary consumes a bit or ends the run, and two steps carry a token, so this many suffice. -/
def stepBudget (comp : List Byte) : Nat := 16 * comp.length + 4

/-- R270: `D.RESET`, one `D.FEED` per byte, `D.END`, then steps. -/
def decompress (s : State) (comp : List Byte) : RunResult :=
  match runScript (.dReset :: comp.map .dFeed ++ [.dEnd]) s with
  | .next s' => decompressResult (settle (stepBudget comp) s')
  | o => decompressResult o

end Sys2Proof.Machine
end

