-- ==== Sys2Proof/Safety.lean ====
section
/-! DEFINITION. What counts as a safe state and a safe run, in the terms the statements use: the invariant of
10_state.md R32 with the widths of R21 to R27, the bits a bit stream spells (R61, R134), and the history a window holds
(42_sliding_window_dictionary.md R175). -/

namespace Sys2Proof.Machine

/-! ## The invariant -/

/-- R23, R32, R36 for one window: the RAM in canonical form and inside its 2^15 cells, a legal size, the cursor and the
fill within it, and every cell of the history written. -/
structure Window.Inv (w : Window) : Prop where
  canonical : Memory.wf w.buf
  inRam : ∀ x ∈ w.buf, x.1 < 2 ^ Config.wMax
  legal : Config.legalW w.bits
  cursor : w.wr < w.size
  filled : w.fill ≤ w.size
  written : ∀ d, 1 ≤ d → d ≤ w.fill → (hist w d).isSome

/-- R21, R32 for the BSE. -/
structure Bse.Inv (b : Bse) : Prop where
  pending : b.nacc ≤ 7
  accBits : b.acc.toNat < 2 ^ b.nacc
  flushedEmpty : b.flushed = true → b.nacc = 0

/-- R24, R25, R32, R291 for the compressor. -/
structure Cmp.Inv (c : Cmp) : Prop where
  bse : c.bse.Inv
  cwin : c.cwin.Inv
  cells : c.la.length = Config.laDepth
  ahead : c.laN < Config.laDepth
  opened : c.cstate = .opened → Config.legalW c.ccfgW.toNat ∧ Config.legalL c.ccfgL.toNat
  error : c.cerr = if c.cstate = .error then some .invalidConfiguration else none

/-- R24, R26, R32, R268 for the decompressor. -/
structure Dmp.Inv (d : Dmp) : Prop where
  cursor : d.bsd.rpos ≤ 8 * d.bsd.ibuf.length
  dwin : d.dwin.Inv
  parsed : d.dstate = .readingToken ∨ d.dstate = .appendingLiteral ∨ d.dstate = .copyingMatch ∨ d.dstate = .done →
    Config.legalW d.dcfgW.toNat ∧ Config.legalL d.dcfgL.toNat
  literal : d.dstate = .appendingLiteral → d.tokKind = true
  latched : d.dstate = .copyingMatch →
    d.tokKind = false ∧ 1 ≤ d.tokDist.toNat ∧ d.tokDist.toNat ≤ 2 ^ d.dcfgW.toNat ∧ 2 ≤ d.tokLen.toNat ∧
      d.tokLen.toNat ≤ 17
  failed : d.dstate = .error →
    d.derr = some .corruptHeader ∨ d.derr = some .invalidDistance ∨ d.derr = some .truncatedStream
  fine : d.dstate ≠ .error → d.derr = none

/-- The invariant of the machine. -/
structure State.Inv (s : State) : Prop where
  cmp : s.cmp.Inv
  dmp : s.dmp.Inv

/-- A safe run makes no step that faults. -/
def safeStep (s : State) : Prop := ∀ f, step s ≠ .fault f

/-! ## The bits of a stream -/

/-- R61: the bits of a byte sequence in transmission order. -/
def bytesBits (s : List Byte) : List Bool := s.flatMap fun b => bitsOf 8 b.toNat

/-- R134: every bit the BSE has accepted since it was cleared, in order: those of `obuf`, then the pending ones. -/
def acceptedBits (b : Bse) : List Bool := bytesBits b.obuf ++ bitsOf b.nacc b.acc.toNat

/-- R159: every bit fed to the BSD and not yet consumed. -/
def pendingBits (b : Bsd) : List Bool := (bytesBits b.ibuf).drop b.rpos

/-- R94, R95, R192: the bits of a literal byte under `literal_bits` = `l`. -/
def literalCode (l : Nat) (x : Byte) : List Bool :=
  if covered l x then literalBitsOf l x.toNat else escapeBitsOf l x

/-! ## The history of a window -/

/-- R175: `p` is the sequence of all bytes pushed since the last clear, oldest first. -/
structure Window.Holds (w : Window) (p : List Byte) : Prop where
  cursor : w.wr = p.length % w.size
  fill : w.fill = min p.length w.size
  bytes : ∀ d, 1 ≤ d → d ≤ w.fill → hist w d = p[p.length - d]?

/-- The window of an instance (R20). -/
def State.win (s : State) : Win → Window
  | .cwin => s.cmp.cwin
  | .dwin => s.dmp.dwin

/-- The state with the window of an instance replaced. -/
def State.setWin (s : State) : Win → Window → State
  | .cwin, w => { s with cmp := { s.cmp with cwin := w } }
  | .dwin, w => { s with dmp := { s.dmp with dwin := w } }

/-! ## What a search looks for -/

/-- R231: the first `k` bytes of the lookahead agree with the history that starts `d` back and runs forward, within the
lookahead and within the distance; `mlen(d)` is the largest such `k`. -/
def agreesTo (c : Cmp) (d k : Nat) : Prop :=
  k ≤ min (min c.laN Config.maxMatch) d ∧ ∀ j, j < k → c.la[j]? = hist c.cwin (d - j)

/-! ## Which unit an operation is of -/

/-- R20, R108: true for an operation of the compressor unit or its blocks. -/
def ofCompressor : Instr → Bool
  | .bseClear | .bseWriteBits _ _ | .bseFlush => true
  | .swdClear i _ | .swdPush i _ | .swdHist i _ | .noneSwd i => i == .cwin
  | .temEmitHeader _ _ | .temEmitLiteral _ | .temEmitMatch _ _ | .mseSearch | .csqEncodeStep => true
  | .cReset | .cOpen _ _ | .cWrite _ | .cClose | .noneBse | .noneTem | .noneCOp => true
  | _ => false

end Sys2Proof.Machine
end

