-- ==== Sys2Proof/Certificates/Slice0/Obligations.lean ====
section
/-! DEFINITION. The statements for the provers. Each docstring names the rules of spec/ it formalises. -/

namespace Sys2Proof.Machine

/-- The script of a list of bit writes (`value`, `n_bits`). -/
def writeScript (ws : List (Half × Five)) : List Instr := ws.map fun w => .bseWriteBits w.1 w.2

/-- R134: the bit string that a list of writes spells. -/
def writtenBits (ws : List (Half × Five)) : List Bool := ws.flatMap fun w => bitsOf w.2.toNat w.1.toNat

/-- R65: every width is 1 to 16. -/
def widthsLegal (ws : List (Half × Five)) : Prop := ∀ w ∈ ws, 1 ≤ w.2.toNat ∧ w.2.toNat ≤ 16

/-- The state in which a literal token of `k` bits for the byte `x` has been carried out (R264, R265). -/
def literalDone (s : State) (x : Byte) (k : Nat) : State :=
  { s with report := .done .none, dmp := { s.dmp with
      bsd := { s.dmp.bsd with rpos := s.dmp.bsd.rpos + k }, tokKind := true, tokByte := x,
      rout := s.dmp.rout ++ [x], dwin := push s.dmp.dwin x, dstate := .readingToken } }

/-- The state in which a match token of `k` bits has been latched (R264). -/
def matchLatched (s : State) (dist : Half) (len : Five) (k : Nat) : State :=
  { s with report := .done .none, dmp := { s.dmp with
      bsd := { s.dmp.bsd with rpos := s.dmp.bsd.rpos + k }, tokKind := false, tokDist := dist, tokLen := len,
      dstate := .copyingMatch } }

/-- What `COPY(d, n)` moves (R175 c): `n` bytes, byte `j` the one that stood `d - j mod d` places back. -/
def copied (w : Window) (d n : Nat) (bs : List Byte) : Prop :=
  bs.length = n ∧ ∀ j, j < n → bs[j]? = hist w (d - j % d)

/-- R266: the state after the latched match of `s` has been copied. -/
def matchDone (s : State) (bs : List Byte) : State :=
  { s with report := .done .none, dmp := { s.dmp with
      dwin := pushAll s.dmp.dwin bs, rout := s.dmp.rout ++ bs, dstate := .readingToken } }

/-- R300: the state after the decompressor has raised `e`. -/
def dmpFailed (s : State) (e : Condition) : State :=
  { s with report := .error e, dmp := { s.dmp with derr := some e, dstate := .error } }

/-- The literal element `i` of `k` bits carries the byte `x`, under `literal_bits` = `l`. -/
def runsLiteral (l : Nat) (i : Instr) (x : Byte) (k : Nat) : Prop :=
  ∀ s : State, s.dmp.dstate = .readingToken → s.dmp.dcfgL.toNat = l → k ≤ avail s.dmp.bsd →
    exec i s = .next (literalDone s x k)

/-- The match element `i` under `window_bits` = `w` carries the distance `d + 1` and the length `n + 2`. -/
def runsMatch (w : Nat) (i : Instr) (d : Nat) (n : Nibble) : Prop :=
  ∀ s : State, s.Inv → s.dmp.dstate = .readingToken → s.dmp.dcfgW.toNat = w → 5 + w ≤ avail s.dmp.bsd →
    (d + 1 ≤ s.dmp.dwin.fill → ∃ bs, copied s.dmp.dwin (d + 1) (n.toNat + 2) bs ∧
      exec i s = .next (matchDone (matchLatched s (.ofNat 16 (d + 1)) (.ofNat 5 (n.toNat + 2)) (5 + w)) bs)) ∧
    (s.dmp.dwin.fill < d + 1 →
      exec i s = .next (dmpFailed (matchLatched s (.ofNat 16 (d + 1)) (.ofNat 5 (n.toNat + 2)) (5 + w))
        .invalidDistance))

/-- The compressor is driven as 70_reset_and_hazards.md R334 says: a stream is open, nothing has been flushed, and the
window has the size of the stream. -/
def streamOpen (c : Cmp) : Prop :=
  c.cstate = .opened ∧ c.bse.flushed = false ∧ c.cwin.bits = c.ccfgW.toNat

/-- R32 for what a search and an encode step read and change; the lookahead may hold all 17 bytes, as it does inside
`C.WRITE` (R237). -/
def encodes (c : Cmp) : Prop := c.bse.Inv ∧ c.cwin.Inv ∧ c.la.length = 17 ∧ c.laN ≤ 17

/-- R33: two windows of one size with the same cursor, the same fill and the same history. -/
def windowsAgree (a b : Window) : Prop :=
  a.bits = b.bits ∧ a.wr = b.wr ∧ a.fill = b.fill ∧ ∀ d, 1 ≤ d → d ≤ a.fill → hist a d = hist b d

/-- The operations that append to a window's history (R172, R174, R235, R237, R238, R265, R266). -/
def appendsTo : Instr → Win → Bool
  | .swdPush i _, u => i == u
  | .csqEncodeStep, .cwin | .cWrite _, .cwin | .cClose, .cwin => true
  | .swdCopy _ _, .dwin | .dStep, .dwin => true
  | .litL5 _, .dwin | .litL6 _, .dwin | .litL7 _, .dwin | .litL8 _, .dwin => true
  | .escL5 _, .dwin | .escL6 _, .dwin | .escL7 _, .dwin => true
  | .matchW8 _ _, .dwin | .matchW9 _ _, .dwin | .matchW10 _ _, .dwin | .matchW11 _ _, .dwin => true
  | .matchW12 _ _, .dwin | .matchW13 _ _, .dwin | .matchW14 _ _, .dwin | .matchW15 _ _, .dwin => true
  | _, _ => false

/-- R235: the number of bytes a step encodes. -/
def encodedBytes (len : Nat) : Nat := if len < 2 then 1 else len

/-- R235, R192, R193: the bits a step emits. -/
def encodedBits (c : Cmp) (len dist : Nat) : List Bool :=
  if len < 2 then literalCode c.ccfgL.toNat (c.la.getD 0 0)
  else matchBitsOf c.ccfgW.toNat (dist - 1) (.ofNat 4 (len - 2))

end Sys2Proof.Machine

open Sys2Proof Sys2Proof.Machine

/-! ## Reset -/

/-- R330, R332: `C.RESET` and `D.RESET`, accepted in every state. That the size of each window stays through them is the
model's reading (assumption log 9: the rules do not speak of the size); the report is the model's own (log 1). -/
def Obligations.ResetCommandsRestoreResetValues : Prop :=
  ∀ s : State,
    exec .cReset s = .next { s with report := .done .none, cmp := { s.cmp with
      bse := { acc := 0, nacc := 0, flushed := false, obuf := [] }, cwin := { s.cmp.cwin with wr := 0, fill := 0 },
      laN := 0, ccfgW := 0, ccfgL := 0, cerr := none, cstate := .idle } } ∧
    exec .dReset s = .next { s with report := .done .none, dmp := { s.dmp with
      bsd := { ibuf := [], rpos := 0, eof := false }, dwin := { s.dmp.dwin with wr := 0, fill := 0 },
      dcfgW := 0, dcfgL := 0, rout := [], derr := none, dstate := .readingHeader } }

/-- R331: after both resets every counter, cursor, flag, error and configuration register is 0 and every sequence is
empty; so the host observes zeros and empty streams, and the launch state is such a state. -/
def Obligations.ResetIsObservedAsZero : Prop :=
  (∀ s : State, ∃ t, runScript [.cReset, .dReset] s = .next t ∧
    observe t = { obuf := [], cstate := 0, cerr := 0, rout := [], dstate := 0, derr := 0, dcfgW := 0, dcfgL := 0 } ∧
    t.cmp.laN = 0 ∧ t.cmp.cwin.wr = 0 ∧ t.cmp.cwin.fill = 0 ∧ t.cmp.bse.nacc = 0 ∧ t.cmp.bse.flushed = false ∧
    t.dmp.bsd.ibuf = [] ∧ t.dmp.bsd.rpos = 0 ∧ t.dmp.bsd.eof = false ∧ t.dmp.dwin.wr = 0 ∧ t.dmp.dwin.fill = 0) ∧
  runScript [.cReset, .dReset] State.reset = .next State.reset

/-! ## bitstream_encoder -/

/-- R131, R133: `BSE.CLEAR` and `BSE.FLUSH`; a second flush is refused. -/
def Obligations.ClearAndFlushTheEncoder : Prop :=
  ∀ s : State,
    exec .bseClear s = .next { s with report := .done .none, cmp := { s.cmp with
      bse := { acc := 0, nacc := 0, flushed := false, obuf := [] } } } ∧
    (s.cmp.bse.flushed = false → s.cmp.bse.Inv →
      exec .bseFlush s = .next { s with report := .done .none, cmp := { s.cmp with
        bse := { acc := 0, nacc := 0, flushed := true, obuf :=
          if 0 < s.cmp.bse.nacc then s.cmp.bse.obuf ++ [s.cmp.bse.acc <<< (8 - s.cmp.bse.nacc)]
          else s.cmp.bse.obuf } } }) ∧
    (s.cmp.bse.flushed = true → exec .bseFlush s = .refused .alreadyFlushed)

/-- R132: the closed form of `BSE.WRITE_BITS`, and its refusals. -/
def Obligations.WriteBitsPacksMsbFirst : Prop :=
  ∀ (s : State) (value : Half) (n : Five), s.cmp.bse.Inv →
    (s.cmp.bse.flushed = false → 1 ≤ n.toNat → n.toNat ≤ 16 →
      let b := s.cmp.bse
      let t := b.acc.toNat * 2 ^ n.toNat + value.toNat % 2 ^ n.toNat
      let m := b.nacc + n.toNat
      exec (.bseWriteBits value n) s = .next { s with report := .done .none, cmp := { s.cmp with
        bse := { acc := .ofNat 8 (t % 2 ^ (m % 8)), nacc := m % 8, flushed := false, obuf :=
          b.obuf ++ (List.range (m / 8)).map fun j => .ofNat 8 (t / 2 ^ (m - 8 - 8 * j)) } } }) ∧
    (s.cmp.bse.flushed = true → exec (.bseWriteBits value n) s = .refused .alreadyFlushed) ∧
    (s.cmp.bse.flushed = false → n.toNat < 1 ∨ 16 < n.toNat →
      exec (.bseWriteBits value n) s = .refused .widthOutOfRange)

/-- R134 (a), (b), (d): after a clear, writes accept exactly their bits, most significant first, and a flush makes all
of them visible with fewer than 8 zero bits after them. -/
def Obligations.WritesSpellTheirBits : Prop :=
  ∀ (s : State) (ws : List (Half × Five)), widthsLegal ws →
    ∃ t u : State, runScript (.bseClear :: writeScript ws) s = .next t ∧ exec .bseFlush t = .next u ∧
      8 * t.cmp.bse.obuf.length + t.cmp.bse.nacc = (writtenBits ws).length ∧
      (∀ p, p < 8 * t.cmp.bse.obuf.length → (writtenBits ws)[p]? = some (streamBit t.cmp.bse.obuf p)) ∧
      (writtenBits ws).drop (8 * t.cmp.bse.obuf.length) = bitsOf t.cmp.bse.nacc t.cmp.bse.acc.toNat ∧
      bytesBits u.cmp.bse.obuf =
        writtenBits ws ++ List.replicate ((8 - (writtenBits ws).length % 8) % 8) false

/-! ## bitstream_decoder -/

/-- R151, R152, R153, R261, R269: the commands that supply input. -/
def Obligations.InputCommandsOfTheDecoder : Prop :=
  ∀ (s : State) (x : Byte),
    let fed : State := { s with report := .done .none, dmp := { s.dmp with
      bsd := { s.dmp.bsd with ibuf := s.dmp.bsd.ibuf ++ [x] } } }
    let ended : State := { s with report := .done .none, dmp := { s.dmp with
      bsd := { s.dmp.bsd with eof := true } } }
    exec .bsdClear s = .next { s with report := .done .none, dmp := { s.dmp with
      bsd := { ibuf := [], rpos := 0, eof := false } } } ∧
    (s.dmp.bsd.eof = false → exec (.bsdFeed x) s = .next fed ∧ exec (.dFeed x) s = .next fed ∧
      exec .bsdEnd s = .next ended ∧ exec .dEnd s = .next ended) ∧
    (s.dmp.bsd.eof = true → exec (.bsdFeed x) s = .refused .inputAlreadyEnded ∧
      exec (.dFeed x) s = .refused .inputAlreadyEnded ∧ exec .bsdEnd s = .refused .inputAlreadyEnded ∧
      exec .dEnd s = .refused .inputAlreadyEnded)

/-- R156: `BSD.READ_BITS`. That a read presented to the block that raises `EndOfStream` changes no register of the unit
is the model's reading (assumption log 10: R290 "never in `derr`; result of the read only", R27). -/
def Obligations.ReadBitsConsumesOrWaits : Prop :=
  ∀ (s : State) (n : Five),
    (1 ≤ n.toNat → n.toNat ≤ 16 → n.toNat ≤ avail s.dmp.bsd →
      ∃ v : Half, v.toNat < 2 ^ n.toNat ∧
        (∀ k, k < n.toNat → v.toNat.testBit (n.toNat - 1 - k) = streamBit s.dmp.bsd.ibuf (s.dmp.bsd.rpos + k)) ∧
        exec (.bsdReadBits n) s = .next { s with report := .done (.value v), dmp := { s.dmp with
          bsd := { s.dmp.bsd with rpos := s.dmp.bsd.rpos + n.toNat } } }) ∧
    (1 ≤ n.toNat → n.toNat ≤ 16 → avail s.dmp.bsd < n.toNat → exec (.bsdReadBits n) s =
      .next { s with report := (if s.dmp.bsd.eof = true then .error .endOfStream else .hold) }) ∧
    (n.toNat < 1 ∨ 16 < n.toNat → exec (.bsdReadBits n) s = .refused .widthOutOfRange)

/-- R158: `BSD.SKIP_BITS`. The rule gives the operands 0 to 20; that 21 to 31 follow it too is the model's reading
(assumption log 14). -/
def Obligations.SkipBitsMovesTheCursor : Prop :=
  ∀ (s : State) (n : Five),
    (n.toNat ≤ avail s.dmp.bsd → exec (.bsdSkipBits n) s = .next { s with report := .done .none, dmp := { s.dmp with
      bsd := { s.dmp.bsd with rpos := s.dmp.bsd.rpos + n.toNat } } }) ∧
    (avail s.dmp.bsd < n.toNat → exec (.bsdSkipBits n) s = .refused .beyondAvail)

/-- R154, R155, R157: the queries of the BSD report without changing anything. R155 gives the offsets 0 to 16; that 17 to
31 follow it too is the model's reading (assumption log 14). -/
def Obligations.QueriesOfTheDecoder : Prop :=
  ∀ (s : State) (n off : Five),
    exec .bsdAvail s =
      .next { s with report := .done (.count (8 * s.dmp.bsd.ibuf.length - s.dmp.bsd.rpos)) } ∧
    (1 ≤ n.toNat → n.toNat ≤ 16 → off.toNat + n.toNat ≤ avail s.dmp.bsd →
      ∃ v : Half, v.toNat < 2 ^ n.toNat ∧
        (∀ k, k < n.toNat →
          v.toNat.testBit (n.toNat - 1 - k) = streamBit s.dmp.bsd.ibuf (s.dmp.bsd.rpos + off.toNat + k)) ∧
        exec (.bsdPeekBits n off) s = .next { s with report := .done (.value v) }) ∧
    (n.toNat < 1 ∨ 16 < n.toNat → exec (.bsdPeekBits n off) s = .refused .widthOutOfRange) ∧
    (1 ≤ n.toNat → n.toNat ≤ 16 → avail s.dmp.bsd < off.toNat + n.toNat →
      exec (.bsdPeekBits n off) s = .refused .beyondAvail) ∧
    ∃ r : Bool, exec .bsdTailIsPad s = .next { s with report := .done (.flag r) } ∧
      (r = true ↔ s.dmp.bsd.eof = true ∧ avail s.dmp.bsd ≤ 7 ∧
        ∀ k, k < avail s.dmp.bsd → streamBit s.dmp.bsd.ibuf (s.dmp.bsd.rpos + k) = false)

/-- R159 (a): the reader mirrors the writer. Between `pre` and `post` the read of the same width gives back the value
written there. -/
def Obligations.ReaderMirrorsWriter : Prop :=
  ∀ (s t u r : State) (pre post : List (Half × Five)) (v : Half) (n : Five),
    widthsLegal (pre ++ (v, n) :: post) →
    runScript (.bseClear :: writeScript (pre ++ (v, n) :: post)) s = .next t → exec .bseFlush t = .next u →
    r.dmp.bsd.ibuf = u.cmp.bse.obuf → r.dmp.bsd.rpos = (writtenBits pre).length →
    exec (.bsdReadBits n) r = .next { r with report := .done (.value (.ofNat 16 (v.toNat % 2 ^ n.toNat))), dmp := { r.dmp with bsd := { r.dmp.bsd with rpos := (writtenBits (pre ++ [(v, n)])).length } } }

/-! ## sliding_window_dictionary -/

/-- R171: `SWD.CLEAR` of either instance. -/
def Obligations.WindowClearSetsTheSize : Prop :=
  ∀ (s : State) (i : Win) (w : Nat),
    (8 ≤ w → w ≤ 15 → exec (.swdClear i w) s =
      .next { (s.setWin i { s.win i with bits := w, wr := 0, fill := 0 }) with report := .done .none }) ∧
    (w < 8 ∨ 15 < w → exec (.swdClear i w) s = .refused .windowBitsOutOfRange)

/-- R172, R68: `SWD.PUSH` of either instance: the state it leaves, and what that means for the history: the
byte is the newest, every older one is one place further back, and no other cell of the RAM changes. -/
def Obligations.PushShiftsTheHistory : Prop :=
  ∀ (s : State) (i : Win) (b : Byte), (s.win i).Inv →
    ∃ t : State, exec (.swdPush i b) s = .next t ∧
      t = { (s.setWin i { s.win i with
        buf := memWrite (s.win i).buf (s.win i).wr b, wr := ((s.win i).wr + 1) % 2 ^ (s.win i).bits,
        fill := min ((s.win i).fill + 1) (2 ^ (s.win i).bits) }) with report := .done .none } ∧
      hist (t.win i) 1 = some b ∧
      (∀ a, a ≠ (s.win i).wr → memRead (t.win i).buf a = memRead (s.win i).buf a) ∧
      ∀ d, 1 ≤ d → d + 1 ≤ (t.win i).fill → hist (t.win i) (d + 1) = hist (s.win i) d

/-- R173: `SWD.HIST` of either instance. -/
def Obligations.HistReadsTheHistory : Prop :=
  ∀ (s : State) (i : Win) (d : Half),
    (s.Inv → 1 ≤ d.toNat → d.toNat ≤ (s.win i).fill →
      ∃ b, memRead (s.win i).buf (((s.win i).wr + 2 ^ (s.win i).bits - d.toNat) % 2 ^ (s.win i).bits) = some b ∧
        exec (.swdHist i d) s = .next { s with report := .done (.byte b) }) ∧
    (d.toNat < 1 ∨ (s.win i).fill < d.toNat → exec (.swdHist i d) s = .refused .outsideHistory)

/-- R174, R175 (c), R293: `SWD.COPY` of a valid distance moves the bytes of the history, repeated when they run out, to
the window and to the output; a distance beyond the history is `InvalidDistance` before any byte moves; distance 0 is
refused. That a failing copy presented to the block changes no register of the unit is the model's reading (assumption
log 10). -/
def Obligations.CopyRepeatsTheHistory : Prop :=
  ∀ (s : State) (d : Half) (n : Five),
    (s.Inv → 1 ≤ d.toNat → d.toNat ≤ s.dmp.dwin.fill →
      ∃ bs, copied s.dmp.dwin d.toNat n.toNat bs ∧
        exec (.swdCopy d n) s = .next { s with report := .done (.bytes bs), dmp := { s.dmp with
          dwin := pushAll s.dmp.dwin bs, rout := s.dmp.rout ++ bs } }) ∧
    (1 ≤ d.toNat → s.dmp.dwin.fill < d.toNat ∨ 2 ^ s.dmp.dwin.bits < d.toNat →
      exec (.swdCopy d n) s = .next { s with report := .error .invalidDistance }) ∧
    (d.toNat = 0 → exec (.swdCopy d n) s = .refused .distanceZero)

/-- R175 (a), (b): a window that holds the sequence `p` holds `p` and the byte after a push, whatever `p` is. -/
def Obligations.WindowHoldsWhatWasPushed : Prop :=
  ∀ (s t : State) (i : Win) (p : List Byte) (w : Nat), 8 ≤ w → w ≤ 15 → (s.win i).Inv →
    runScript (.swdClear i w :: p.map (.swdPush i)) s = .next t →
    (t.win i).bits = w ∧ (t.win i).fill = min p.length (2 ^ w) ∧ (t.win i).wr = p.length % 2 ^ w ∧
      ∀ d, 1 ≤ d → d ≤ min p.length (2 ^ w) → hist (t.win i) d = p[p.length - d]?

/-! ## token_emitter -/

/-- R191: `TEM.EMIT_HEADER` appends the 16 bits of the header and changes nothing but the BSE. -/
def Obligations.EmitHeaderAppendsHeader : Prop :=
  ∀ (s : State) (w l : Nibble), s.Inv → s.cmp.bse.flushed = false →
    ∃ b : Bse, exec (.temEmitHeader w l) s = .next { s with report := .done .none, cmp := { s.cmp with bse := b } } ∧
      acceptedBits b = acceptedBits s.cmp.bse ++ headerBitsOf 1 w l 0 0 ∧ s.cmp.bse.obuf <+: b.obuf ∧
      b.flushed = false ∧ b.Inv

/-- R192: `TEM.EMIT_LITERAL` under the configured `literal_bits`. -/
def Obligations.EmitLiteralAppendsLiteral : Prop :=
  ∀ (s : State) (x : Byte), s.Inv → s.cmp.bse.flushed = false → Config.legalL s.cmp.ccfgL.toNat →
    ∃ b : Bse, exec (.temEmitLiteral x) s = .next { s with report := .done .none, cmp := { s.cmp with bse := b } } ∧
      acceptedBits b = acceptedBits s.cmp.bse ++ true ::
        (if s.cmp.ccfgL.toNat = 8 then bitsOf 8 x.toNat
         else if x.toNat < 2 ^ s.cmp.ccfgL.toNat - 1 then bitsOf s.cmp.ccfgL.toNat x.toNat
         else List.replicate s.cmp.ccfgL.toNat true ++ bitsOf 8 x.toNat) ∧
      s.cmp.bse.obuf <+: b.obuf ∧ b.flushed = false ∧ b.Inv

/-- R193: `TEM.EMIT_MATCH` under the configured `window_bits`, and its refusal. -/
def Obligations.EmitMatchAppendsMatch : Prop :=
  ∀ (s : State) (d : Half) (n : Five),
    (s.Inv → s.cmp.bse.flushed = false → Config.legalW s.cmp.ccfgW.toNat →
      1 ≤ d.toNat → d.toNat ≤ 2 ^ s.cmp.ccfgW.toNat → 2 ≤ n.toNat → n.toNat ≤ 17 →
      ∃ b : Bse, exec (.temEmitMatch d n) s =
          .next { s with report := .done .none, cmp := { s.cmp with bse := b } } ∧
        acceptedBits b = acceptedBits s.cmp.bse ++ false ::
          (bitsOf s.cmp.ccfgW.toNat (d.toNat - 1) ++ bitsOf 4 (n.toNat - 2)) ∧
        s.cmp.bse.obuf <+: b.obuf ∧ b.flushed = false ∧ b.Inv) ∧
    (d.toNat < 1 ∨ 2 ^ s.cmp.ccfgW.toNat < d.toNat ∨ n.toNat < 2 ∨ 17 < n.toNat →
      exec (.temEmitMatch d n) s = .refused .matchOutOfRange)

/-! ## token_interpreter -/

/-- R211: `TIN.PARSE_HEADER` reports what the unread bits spell; it changes nothing. -/
def Obligations.ParseHeaderAnswers : Prop :=
  ∀ s : State,
    (avail s.dmp.bsd < 16 → exec .tinParseHeader s = .next { s with report := .done (.header .needMore) }) ∧
    ∀ (v w l : Nibble) (k : BitVec 1) (r : BitVec 3) (rest : List Bool),
      pendingBits s.dmp.bsd = headerBitsOf v w l k r ++ rest →
      exec .tinParseHeader s = .next
        { s with report := .done (.header (if headerLegal v w l k r then .header w l else .corrupt)) }

/-- R212, R213 (a), (c): `TIN.PARSE_TOKEN` under a parsed header is the inverse of the emitter, whatever bits follow, and
answers `NeedMore` exactly when the token is not all there; before a header has been parsed it is refused (R304). -/
def Obligations.ParseTokenAnswers : Prop :=
  (∀ s : State, ¬ (Config.legalW s.dmp.dcfgW.toNat ∧ Config.legalL s.dmp.dcfgL.toNat) →
    exec .tinParseToken s = .refused .headerNotParsed) ∧
  ∀ s : State, Config.legalW s.dmp.dcfgW.toNat → Config.legalL s.dmp.dcfgL.toNat →
    (∀ (x : Byte) (rest : List Bool), pendingBits s.dmp.bsd = literalCode s.dmp.dcfgL.toNat x ++ rest →
      exec .tinParseToken s = .next
        { s with report := .done (.token (.literal x (literalCode s.dmp.dcfgL.toNat x).length)) }) ∧
    (∀ (x : Byte) (rest : List Bool), s.dmp.dcfgL.toNat < 8 →
      pendingBits s.dmp.bsd = escapeBitsOf s.dmp.dcfgL.toNat x ++ rest →
      exec .tinParseToken s = .next
        { s with report := .done (.token (.literal x (s.dmp.dcfgL.toNat + 9))) }) ∧
    (∀ (d : Nat) (n : Nibble) (rest : List Bool), d < 2 ^ s.dmp.dcfgW.toNat →
      pendingBits s.dmp.bsd = matchBitsOf s.dmp.dcfgW.toNat d n ++ rest →
      exec .tinParseToken s = .next
        { s with report := .done (.token (.matched (.ofNat 16 (d + 1)) (.ofNat 5 (n.toNat + 2)) (s.dmp.dcfgW.toNat + 5))) }) ∧
    ((exec .tinParseToken s = .next { s with report := .done (.token .needMore) }) ↔
      pendingBits s.dmp.bsd = [] ∨
      ((pendingBits s.dmp.bsd).head? = some false ∧ avail s.dmp.bsd < 5 + s.dmp.dcfgW.toNat) ∨
      ((pendingBits s.dmp.bsd).head? = some true ∧ avail s.dmp.bsd < 1 + s.dmp.dcfgL.toNat) ∨
      (s.dmp.dcfgL.toNat < 8 ∧ avail s.dmp.bsd < 9 + s.dmp.dcfgL.toNat ∧
        List.replicate (1 + s.dmp.dcfgL.toNat) true <+: pendingBits s.dmp.bsd))

/-! ## match_search_engine and the compressor sequencer -/

/-- R231, R232, R233: `MSE.SEARCH` reports the greatest match length over all distances and the least distance that
gives it, or (0, 0) where nothing agrees; it changes nothing. -/
def Obligations.SearchFindsTheLongestNearest : Prop :=
  ∀ s : State, encodes s.cmp → ∃ len dist, exec .mseSearch s = .next { s with report := .done (.search len dist) } ∧
    ((len = 0 ∧ dist = 0) ∨ (1 ≤ len ∧ 1 ≤ dist ∧ dist ≤ s.cmp.cwin.fill ∧ agreesTo s.cmp dist len)) ∧
    ∀ d k, 1 ≤ d → d ≤ s.cmp.cwin.fill → agreesTo s.cmp d k → k ≤ len ∧ (k = len → 1 ≤ k → dist ≤ d)

/-- R235: `CSQ.ENCODE_STEP` emits the token the search tells, moves the encoded bytes from the lookahead to the window,
and changes nothing else; it is refused where there is nothing to encode. -/
def Obligations.EncodeStepEmitsOneToken : Prop :=
  ∀ s : State,
    (encodes s.cmp → streamOpen s.cmp → Config.legalW s.cmp.ccfgW.toNat → Config.legalL s.cmp.ccfgL.toNat →
      1 ≤ s.cmp.laN →
      ∃ len dist, ∃ b : Bse, exec .mseSearch s = .next { s with report := .done (.search len dist) } ∧
        encodedBytes len ≤ s.cmp.laN ∧
        acceptedBits b = acceptedBits s.cmp.bse ++ encodedBits s.cmp len dist ∧ b.flushed = false ∧ b.Inv ∧
        exec .csqEncodeStep s = .next { s with report := .done .none, cmp := { s.cmp with
          bse := b, cwin := pushAll s.cmp.cwin (s.cmp.la.take (encodedBytes len)),
          la := (s.cmp.la.drop (encodedBytes len)).take (s.cmp.laN - encodedBytes len) ++
            s.cmp.la.drop (s.cmp.laN - encodedBytes len),
          laN := s.cmp.laN - encodedBytes len } }) ∧
    (s.cmp.cstate ≠ .opened ∨ s.cmp.laN = 0 → exec .csqEncodeStep s = .refused .nothingToEncode)

/-- R243: a match the compressor emits is no longer than its distance, reaches no further back than the history, and is
of 2 to 17 bytes. -/
def Obligations.EmittedMatchesStayInHistory : Prop :=
  ∀ (s t : State) (len dist : Nat), encodes s.cmp → exec .mseSearch s = .next t → t.report = .done (.search len dist) →
    2 ≤ len → len ≤ dist ∧ dist ≤ s.cmp.cwin.fill ∧ len ≤ 17 ∧ len ≤ s.cmp.laN

/-! ## Host commands of the compressor -/

/-- R236, R291: `C.OPEN`. -/
def Obligations.OpenWritesTheHeader : Prop :=
  ∀ (s : State) (w l : Nat),
    (s.cmp.cstate = .idle → s.cmp.bse = { acc := 0, nacc := 0, flushed := false, obuf := [] } →
      8 ≤ w → w ≤ 15 → 5 ≤ l → l ≤ 8 →
      exec (.cOpen w l) s = .next { s with report := .done .none, cmp := { s.cmp with
        ccfgW := .ofNat 4 w, ccfgL := .ofNat 4 l, cwin := { s.cmp.cwin with bits := w, wr := 0, fill := 0 },
        laN := 0, cstate := .opened,
        bse := { acc := 0, nacc := 0, flushed := false, obuf := [.ofNat 8 (0x10 + w), .ofNat 8 (0x10 * l)] } } }) ∧
    (s.cmp.cstate = .idle → w < 8 ∨ 15 < w ∨ l < 5 ∨ 8 < l →
      exec (.cOpen w l) s = .next { s with report := .error .invalidConfiguration, cmp := { s.cmp with
        cerr := some .invalidConfiguration, cstate := .error } }) ∧
    (s.cmp.cstate ≠ .idle → exec (.cOpen w l) s = .refused .notIdle)

/-- R237: `C.WRITE` adds the byte to the lookahead and, when that is full, runs exactly one encode step. -/
def Obligations.WriteFillsTheLookahead : Prop :=
  ∀ (s : State) (x : Byte),
    let s1 : State := { s with report := .done .none, cmp := { s.cmp with
      la := s.cmp.la.set s.cmp.laN x, laN := s.cmp.laN + 1 } }
    (s.cmp.cstate = .opened → s.cmp.laN + 1 ≠ 17 → exec (.cWrite x) s = .next s1) ∧
    (s.cmp.cstate = .opened → s.cmp.laN + 1 = 17 → exec (.cWrite x) s = exec .csqEncodeStep s1) ∧
    (s.cmp.cstate ≠ .opened → exec (.cWrite x) s = .refused .noStreamOpen)

/-- R237: with a stream open, `C.WRITE` completes and keeps the stream open with room in the lookahead. -/
def Obligations.WriteAlwaysCompletes : Prop :=
  ∀ (s : State) (x : Byte), s.Inv → streamOpen s.cmp →
    ∃ t : State, exec (.cWrite x) s = .next t ∧ streamOpen t.cmp ∧ t.cmp.laN ≤ 16 ∧
      t.cmp.laN ≤ s.cmp.laN + 1 ∧ t.dmp = s.dmp ∧ t.cmp.ccfgW = s.cmp.ccfgW ∧ t.cmp.ccfgL = s.cmp.ccfgL ∧
      t.cmp.cerr = s.cmp.cerr

/-- R238: `C.CLOSE` encodes until the lookahead is empty, then flushes; every bit accepted is then in `obuf`. -/
def Obligations.CloseDrainsAndFlushes : Prop :=
  ∀ s : State,
    (s.Inv → streamOpen s.cmp →
      ∃ (k : Nat) (t u : State), k ≤ s.cmp.laN ∧ runScript (List.replicate k .csqEncodeStep) s = .next t ∧
        t.cmp.laN = 0 ∧ exec .bseFlush t = .next u ∧
        exec .cClose s = .next { u with cmp := { u.cmp with cstate := .closed } } ∧
        bytesBits u.cmp.bse.obuf =
          acceptedBits t.cmp.bse ++ List.replicate ((8 - t.cmp.bse.nacc) % 8) false) ∧
    (s.cmp.cstate ≠ .opened → exec .cClose s = .refused .noStreamOpen)

/-! ## decompressor_state_machine -/

/-- R263, R292, R294: `D.STEP` in `ReadingHeader`. -/
def Obligations.StepReadsTheHeader : Prop :=
  ∀ s : State, s.dmp.dstate = .readingHeader →
    (avail s.dmp.bsd < 16 → s.dmp.bsd.eof = false → exec .dStep s = .next { s with report := .hold }) ∧
    (avail s.dmp.bsd < 16 → s.dmp.bsd.eof = true → exec .dStep s = .next (dmpFailed s .truncatedStream)) ∧
    ∀ (v w l : Nibble) (k : BitVec 1) (r : BitVec 3) (rest : List Bool),
      pendingBits s.dmp.bsd = headerBitsOf v w l k r ++ rest →
      let d16 : Dmp := { s.dmp with bsd := { s.dmp.bsd with rpos := s.dmp.bsd.rpos + 16 } }
      (headerLegal v w l k r = false → exec .dStep s = .next (dmpFailed { s with dmp := d16 } .corruptHeader)) ∧
      (headerLegal v w l k r = true → exec .dStep s = .next { s with report := .done .none, dmp := { d16 with
        dcfgW := w, dcfgL := l, dstate := .readingToken,
        dwin := { s.dmp.dwin with bits := w.toNat, wr := 0, fill := 0 } } })

/-- R264, R100, R294: `D.STEP` in `ReadingToken`: padding ends the run, an incomplete token waits or is
`TruncatedStream`, a complete one is consumed and latched. -/
def Obligations.StepReadsAToken : Prop :=
  ∀ s : State, s.dmp.dstate = .readingToken → Config.legalW s.dmp.dcfgW.toNat → Config.legalL s.dmp.dcfgL.toNat →
    (tailIsPad s.dmp.bsd = true → exec .dStep s = .next { s with report := .done .none, dmp := { s.dmp with
      bsd := { s.dmp.bsd with rpos := s.dmp.bsd.rpos + avail s.dmp.bsd }, dstate := .done } }) ∧
    (tailIsPad s.dmp.bsd = false →
      (∀ (x : Byte) (k : Nat), exec .tinParseToken s = .next { s with report := .done (.token (.literal x k)) } →
        exec .dStep s = .next { s with report := .done .none, dmp := { s.dmp with
          bsd := { s.dmp.bsd with rpos := s.dmp.bsd.rpos + k }, tokKind := true, tokByte := x,
          dstate := .appendingLiteral } }) ∧
      (∀ (d : Half) (n : Five) (k : Nat),
        exec .tinParseToken s = .next { s with report := .done (.token (.matched d n k)) } →
        exec .dStep s = .next (matchLatched s d n k)) ∧
      (exec .tinParseToken s = .next { s with report := .done (.token .needMore) } →
        exec .dStep s = if s.dmp.bsd.eof = true then .next (dmpFailed s .truncatedStream)
          else .next { s with report := .hold }))

/-- R265, R266, R267, R268: `D.STEP` in the other states: the latched literal, the latched match (copied, or
`InvalidDistance`), and the two terminal states, where nothing happens. -/
def Obligations.StepCarriesOutTheLatch : Prop :=
  ∀ s : State,
    (s.dmp.dstate = .appendingLiteral → exec .dStep s = .next { s with report := .done .none, dmp := { s.dmp with
      rout := s.dmp.rout ++ [s.dmp.tokByte], dwin := push s.dmp.dwin s.dmp.tokByte, dstate := .readingToken } }) ∧
    (s.dmp.dstate = .copyingMatch → s.Inv → s.dmp.tokDist.toNat ≤ s.dmp.dwin.fill →
      ∃ bs, copied s.dmp.dwin s.dmp.tokDist.toNat s.dmp.tokLen.toNat bs ∧ exec .dStep s = .next (matchDone s bs)) ∧
    (s.dmp.dstate = .copyingMatch → s.Inv → s.dmp.dwin.fill < s.dmp.tokDist.toNat →
      exec .dStep s = .next (dmpFailed s .invalidDistance)) ∧
    (s.dmp.dstate = .done ∨ s.dmp.dstate = .error → exec .dStep s = .next { s with report := .noStep })

/-- R273, R213 (b): feeding a byte before or after a step that does not hold gives the same decompressor. -/
def Obligations.FeedingCommutesWithSteps : Prop :=
  ∀ (s t u : State) (x : Byte), s.Inv → exec .dStep s = .next t → t.report ≠ .hold →
    exec (.dFeed x) s = .next u →
    ∃ v w : State, exec .dStep u = .next v ∧ exec (.dFeed x) t = .next w ∧ v.dmp = w.dmp ∧ v.report = t.report

/-! ## Stream elements -/

/-- R91, R92, R263, R292: the header element: legal, it configures the decompressor; illegal, it is `CorruptHeader`.
Elsewhere than in `ReadingHeader` it is refused (the model's choice, assumption log 12). It is the header its operands
give, whatever the bits skipped spell (the model's choice, assumption log 21). -/
def Obligations.HeaderElementConfigures : Prop :=
  ∀ (s : State) (v w l : Nibble) (k : BitVec 1) (r : BitVec 3),
    let d16 : Dmp := { s.dmp with bsd := { s.dmp.bsd with rpos := s.dmp.bsd.rpos + 16 } }
    (s.dmp.dstate = .readingHeader → 16 ≤ avail s.dmp.bsd → headerLegal v w l k r = true →
      exec (.hdr v w l k r) s = .next { s with report := .done .none, dmp := { d16 with
        dcfgW := w, dcfgL := l, dstate := .readingToken,
        dwin := { s.dmp.dwin with bits := w.toNat, wr := 0, fill := 0 } } }) ∧
    (s.dmp.dstate = .readingHeader → 16 ≤ avail s.dmp.bsd → headerLegal v w l k r = false →
      exec (.hdr v w l k r) s = .next (dmpFailed { s with dmp := d16 } .corruptHeader)) ∧
    (s.dmp.dstate ≠ .readingHeader → exec (.hdr v w l k r) s = .refused .elementOutOfPlace)

/-- R94, R95, R102, R264, R265: the literals of every width, short (the all-ones code below L = 8 is the escape) and
escaped, the escaped ones also of a byte that has a short code. One step carries the token its operands give, whatever
the bits skipped spell (the model's choice, assumption logs 4 and 21). -/
def Obligations.LiteralsAppendTheirByte : Prop :=
  (∀ c : BitVec 5, c.toNat ≠ 31 → runsLiteral 5 (.litL5 c) (.ofNat 8 c.toNat) 6) ∧
  (∀ c : BitVec 6, c.toNat ≠ 63 → runsLiteral 6 (.litL6 c) (.ofNat 8 c.toNat) 7) ∧
  (∀ c : BitVec 7, c.toNat ≠ 127 → runsLiteral 7 (.litL7 c) (.ofNat 8 c.toNat) 8) ∧
  (∀ c : BitVec 8, runsLiteral 8 (.litL8 c) c 9) ∧
  ∀ r : Byte, runsLiteral 5 (.escL5 r) r 14 ∧ runsLiteral 6 (.escL6 r) r 15 ∧ runsLiteral 7 (.escL7 r) r 16

/-- R96, R97, R264, R266, R293: the matches of every width: the copy, or `InvalidDistance`. One step carries the token its
operands give, whatever the bits skipped spell (the model's choice, assumption logs 4 and 21). -/
def Obligations.MatchesCopyTheHistory : Prop :=
  ∀ n : Nibble,
    (∀ d : BitVec 8, runsMatch 8 (.matchW8 d n) d.toNat n) ∧ (∀ d : BitVec 9, runsMatch 9 (.matchW9 d n) d.toNat n) ∧
    (∀ d : BitVec 10, runsMatch 10 (.matchW10 d n) d.toNat n) ∧
    (∀ d : BitVec 11, runsMatch 11 (.matchW11 d n) d.toNat n) ∧
    (∀ d : BitVec 12, runsMatch 12 (.matchW12 d n) d.toNat n) ∧
    (∀ d : BitVec 13, runsMatch 13 (.matchW13 d n) d.toNat n) ∧
    (∀ d : BitVec 14, runsMatch 14 (.matchW14 d n) d.toNat n) ∧
    (∀ d : BitVec 15, runsMatch 15 (.matchW15 d n) d.toNat n)

/-- R100, R264: padding ends the run. -/
def Obligations.PaddingEndsTheRun : Prop :=
  ∀ (s : State) (k : Nat), s.dmp.dstate = .readingToken → s.dmp.bsd.eof = true → avail s.dmp.bsd = k → k ≤ 7 →
    pendingBits s.dmp.bsd = List.replicate k false →
    exec (.pad k) s = .next { s with report := .done .none, dmp := { s.dmp with
      bsd := { s.dmp.bsd with rpos := s.dmp.bsd.rpos + k }, dstate := .done } }

/-- R262, R264 to R266: the element the decompressor is about to read, carried out in full, is one `D.STEP` (header,
padding) or two (a token: taken, then carried out). That a step of the model runs an element in full is the model's
choice (assumption log 4); this says it loses nothing. -/
def Obligations.ElementIsItsSteps : Prop :=
  ∀ (s : State) (i : Instr), s.Inv → fetchElement s.dmp = some i →
    match encode i with
    | .token _ => exec i s = runScript [.dStep, .dStep] s
    | _ => exec i s = runScript [.dStep] s

/-! ## Codes that name no operation -/

/-- R108: code 0 on every `op` port does nothing. -/
def Obligations.CodeZeroDoesNothing : Prop :=
  ∀ s : State, exec .noneBse s = .next s ∧ exec .noneBsd s = .next s ∧ (∀ i, exec (.noneSwd i) s = .next s) ∧
    exec .noneTem s = .next s ∧ exec .noneCOp s = .next s ∧ exec .noneDOp s = .next s

/-- R304: `d_op = 3` and the codes 6 and 7 on the BSD's `op` port are no operation and are refused, always. -/
def Obligations.UnusedCodesAreRefused : Prop :=
  ∀ (s : State) (low : BitVec 1),
    exec .reservedDOp3 s = .refused .unusedCode ∧ exec (.reservedBsdOp low) s = .refused .unusedCode

/-! ## Encoding -/

/-- R99, R213 (a), R97: decoding the encoding of a well-formed stream element gives it back with the bits that follow
untouched: the header, every token under every pair it is valid under, and padding. -/
def Obligations.StreamDecodesWhatItEncodes : Prop :=
  ∀ i : Instr, i.wellFormed = true →
    (∀ bits rest, encode i = .header bits → decodeHeader (bits ++ rest) = .ok (i, rest)) ∧
    (∀ bits rest w l, encode i = .token bits → Config.legalW w → Config.legalL l → i.validUnder w l = true →
      decodeToken w l (bits ++ rest) = .ok (i, rest)) ∧
    (∀ bits, encode i = .tail bits → decodeTail bits = .ok i)

/-- R108: an operation presented at its port with its select code is decoded as that operation, with every operand. -/
def Obligations.PortsDecodeWhatTheyEncode : Prop :=
  ∀ (i : Instr) (p : PortWord), i.wellFormed = true → encode i = .port p → decodePort p = .ok i

/-- R99, R103: the token code is complete and has one parse: under every supported pair, 20 bits always begin with a
token, that token is well-formed and valid there, and its bits are the ones consumed. -/
def Obligations.EveryBitStringParses : Prop :=
  ∀ (w l : Nat) (bits : List Bool), Config.legalW w → Config.legalL l → 20 ≤ bits.length →
    ∃ i rest tok, decodeToken w l bits = .ok (i, rest) ∧ i.wellFormed = true ∧ i.validUnder w l = true ∧
      encode i = .token tok ∧ bits = tok ++ rest

/-- R99, R98: no token is the beginning of another token of the same configuration. -/
def Obligations.TokensArePrefixFree : Prop :=
  ∀ (w l : Nat) (i j : Instr) (x y rest : List Bool), Config.legalW w → Config.legalL l →
    i.wellFormed = true → j.wellFormed = true → i.validUnder w l = true → j.validUnder w l = true →
    encode i = .token x → encode j = .token y → y = x ++ rest → i = j ∧ rest = []

/-- R91, R94, R95, R96: words written out from the encodings of the spec decode to what they stand for. -/
def Obligations.SpecWordsDecode : Prop :=
  decodeHeader [false, false, false, true, true, false, true, false, true, false, false, false, false, false, false,
    false] = .ok (.hdr 1 10 8 0 0, []) ∧
  decodeToken 10 8 [true, false, true, false, false, false, false, false, true] = .ok (.litL8 0x41, []) ∧
  decodeToken 8 5 [true, true, true, true, true, true, false, false, false, true, true, true, true, true] =
    .ok (.escL5 0x1F, []) ∧
  decodeToken 10 8 [false, false, false, false, false, false, false, false, false, false, true, false, false, false,
    false] = .ok (.matchW10 1 0, []) ∧
  decodePort ⟨.cOp, 1, 10, 8⟩ = .ok (.cOpen 10 8) ∧ decodePort ⟨.bsdOp, 4, 0, 9⟩ = .ok (.bsdReadBits 9)

/-! ## The step -/

/-- R7, R109: an operation presented at a port is taken and run. -/
def Obligations.StepRunsThePresentedOperation : Prop :=
  ∀ (s : State) (p : PortWord) (rest : List PortWord) (i : Instr), s.inbox = p :: rest → decodePort p = .ok i →
    step s = exec i { s with inbox := rest }

/-- R262, R29: with nothing presented, the element at the read cursor runs; where none is there, `D.STEP`. -/
def Obligations.StepRunsTheElementAtTheCursor : Prop :=
  ∀ s : State, s.inbox = [] →
    (∀ (v w l : Nibble) (k : BitVec 1) (r : BitVec 3) (rest : List Bool), s.dmp.dstate = .readingHeader →
      pendingBits s.dmp.bsd = headerBitsOf v w l k r ++ rest → step s = exec (.hdr v w l k r) s) ∧
    (∀ (i : Instr) (bits rest : List Bool), s.dmp.dstate = .readingToken → tailIsPad s.dmp.bsd = false →
      Config.legalW s.dmp.dcfgW.toNat → Config.legalL s.dmp.dcfgL.toNat → i.wellFormed = true →
      i.validUnder s.dmp.dcfgW.toNat s.dmp.dcfgL.toNat = true → encode i = .token bits →
      pendingBits s.dmp.bsd = bits ++ rest → step s = exec i s) ∧
    (s.dmp.dstate = .readingToken → tailIsPad s.dmp.bsd = true → step s = exec (.pad (avail s.dmp.bsd)) s) ∧
    (fetchElement s.dmp = none → step s = exec .dStep s)

/-! ## Invariants and whole-machine rules -/

/-- R32: the invariant holds at reset. -/
def Obligations.ResetMeetsTheInvariant : Prop := State.reset.Inv

/-- R32: every step keeps the invariant, and so does every single operation. -/
def Obligations.StepKeepsTheInvariant : Prop :=
  (∀ s t : State, s.Inv → step s = .next t → t.Inv) ∧
  (∀ (i : Instr) (s t : State), s.Inv → exec i s = .next t → t.Inv)

/-- R36, R175 (d): under the invariant no operation reads a window cell that has not been written: no step faults. -/
def Obligations.NoStepFaults : Prop :=
  ∀ s : State, s.Inv → safeStep s ∧ ∀ (i : Instr) (f : Fault), exec i s ≠ .fault f

/-- R12, R60: a cell reads as it was last written, and a write leaves every other cell as it was; the RAM stays in
canonical form, in which equal contents are equal lists. -/
def Obligations.WindowRamReadsWhatWasWritten : Prop :=
  (∀ (m : Memory) (a x : Nat) (b : Byte), Memory.wf m →
    Memory.wf (memWrite m a b) ∧ memRead (memWrite m a b) x = if x = a then some b else memRead m x) ∧
  (∀ m n : Memory, Memory.wf m → Memory.wf n → (∀ a, memRead m a = memRead n a) → m = n)

/-- R60, R172: the window cells. Pushing `n` bytes changes the `n` cells from the cursor on, going round the ring, and no
other; and an operation that appends nothing to a window leaves every cell of it as it was. -/
def Obligations.CellsChangeAtTheCursorOnly : Prop :=
  (∀ (w : Window) (bs : List Byte) (a : Nat), w.Inv → (∀ j, j < bs.length → a ≠ (w.wr + j) % 2 ^ w.bits) →
    memRead (pushAll w bs).buf a = memRead w.buf a) ∧
  ∀ (i : Instr) (u : Win) (s t : State), exec i s = .next t → appendsTo i u = false → (t.win u).buf = (s.win u).buf

/-- R20, R302: an operation of one unit leaves the other unit as it is, and does the same whatever the other unit
holds. -/
def Obligations.UnitsShareNothing : Prop :=
  ∀ (i : Instr) (s t : State), exec i s = .next t →
    (ofCompressor i = true → t.dmp = s.dmp ∧ ∀ d : Dmp, exec i { s with dmp := d } = .next { t with dmp := d }) ∧
    (ofCompressor i = false → t.cmp = s.cmp ∧ ∀ c : Cmp, exec i { s with cmp := c } = .next { t with cmp := c })

/-- R301, R267, R268: the error states and `Done` are terminal and the error registers sticky: only the unit's reset
leaves them, and in `C_ERROR` the compressor's other operations are refused. -/
def Obligations.OnlyResetLeavesAnError : Prop :=
  (∀ (i : Instr) (s t : State), exec i s = .next t →
    (s.cmp.cstate = .error → i ≠ .cReset → t.cmp.cstate = .error ∧ t.cmp.cerr = s.cmp.cerr) ∧
    (s.dmp.dstate = .error → i ≠ .dReset → t.dmp.dstate = .error ∧ t.dmp.derr = s.dmp.derr) ∧
    (s.dmp.dstate = .done → i ≠ .dReset → t.dmp.dstate = .done)) ∧
  ∀ (s : State) (w l : Nat) (x : Byte), s.cmp.cstate = .error →
    exec (.cOpen w l) s = .refused .notIdle ∧ exec (.cWrite x) s = .refused .noStreamOpen ∧
    exec .cClose s = .refused .noStreamOpen ∧ exec .csqEncodeStep s = .refused .nothingToEncode

/-- R24: the configuration registers change by the opening of a stream, the reading of a header and reset alone, and hold
no illegal value but 0. -/
def Obligations.ConfigurationIsImmutable : Prop :=
  ∀ (i : Instr) (s t : State), exec i s = .next t →
    ((t.cmp.ccfgW = s.cmp.ccfgW ∧ t.cmp.ccfgL = s.cmp.ccfgL) ∨
      (i = .cReset ∧ t.cmp.ccfgW = 0 ∧ t.cmp.ccfgL = 0) ∨
      (∃ w l, i = .cOpen w l ∧ s.cmp.cstate = .idle ∧ t.cmp.ccfgW.toNat = w ∧ t.cmp.ccfgL.toNat = l ∧
        8 ≤ w ∧ w ≤ 15 ∧ 5 ≤ l ∧ l ≤ 8)) ∧
    ((t.dmp.dcfgW = s.dmp.dcfgW ∧ t.dmp.dcfgL = s.dmp.dcfgL) ∨
      (i = .dReset ∧ t.dmp.dcfgW = 0 ∧ t.dmp.dcfgL = 0) ∨
      (s.dmp.dstate = .readingHeader ∧ t.dmp.dstate = .readingToken ∧
        Config.legalW t.dmp.dcfgW.toNat ∧ Config.legalL t.dmp.dcfgL.toNat))

/-- R71 (a), (b), R29: what has been output never changes and the read cursor never moves back, but for the clears and
resets that void the stream. -/
def Obligations.OutputsOnlyGrow : Prop :=
  ∀ (i : Instr) (s t : State), exec i s = .next t →
    (i ≠ .cReset → i ≠ .bseClear → s.cmp.bse.obuf <+: t.cmp.bse.obuf) ∧
    (i ≠ .dReset → s.dmp.rout <+: t.dmp.rout) ∧
    (i ≠ .dReset → i ≠ .bsdClear → s.dmp.bsd.rpos ≤ t.dmp.bsd.rpos ∧ s.dmp.bsd.ibuf <+: t.dmp.bsd.ibuf)

/-- R33, R242: the decoder's window follows the encoder's. Where the two windows agree and the decompressor is about to
read the bits of the token the compressor's step emits, carrying that token out leaves the windows agreeing again,
has output exactly the bytes the compressor encoded, and has read exactly the bits it emitted. -/
def Obligations.WindowsStayEqual : Prop :=
  ∀ (s s' r : State) (toks rest : List Bool), encodes s.cmp → streamOpen s.cmp →
    Config.legalW s.cmp.ccfgW.toNat → Config.legalL s.cmp.ccfgL.toNat → r.Inv →
    exec .csqEncodeStep s = .next s' → acceptedBits s'.cmp.bse = acceptedBits s.cmp.bse ++ toks →
    windowsAgree s.cmp.cwin r.dmp.dwin → r.dmp.dstate = .readingToken → r.dmp.dcfgW = s.cmp.ccfgW →
    r.dmp.dcfgL = s.cmp.ccfgL → pendingBits r.dmp.bsd = toks ++ rest →
    ∃ r' : State, runScript [.dStep, .dStep] r = .next r' ∧ windowsAgree s'.cmp.cwin r'.dmp.dwin ∧
      r'.dmp.dstate = .readingToken ∧ pendingBits r'.dmp.bsd = rest ∧
      r'.dmp.rout = r.dmp.rout ++ s.cmp.la.take (s.cmp.laN - s'.cmp.laN)

/-! ## The functions the hardware computes -/

/-- R239, R291: compressing cannot fail once a stream is open: under a supported pair the run ends in `C_CLOSED` with the
compressed bytes; under any other it is `InvalidConfiguration`. -/
def Obligations.CompressAlwaysEnds : Prop :=
  ∀ (s : State) (data : List Byte) (w l : Nat), s.Inv →
    (Config.legalW w → Config.legalL l → ∃ bs, compress s data w l = .ok bs ∧
      [.ofNat 8 (0x10 + w), .ofNat 8 (0x10 * l)] <+: bs) ∧
    (¬ (Config.legalW w ∧ Config.legalL l) → compress s data w l = .err .invalidConfiguration)

/-- R270, R311: decompressing any bytes ends, in the bytes or in one of the codes 2, 3, 4. -/
def Obligations.DecompressAlwaysEnds : Prop :=
  ∀ (s : State) (comp : List Byte), s.Inv →
    (∃ bs, decompress s comp = .ok bs) ∨ decompress s comp = .err .corruptHeader ∨
      decompress s comp = .err .invalidDistance ∨ decompress s comp = .err .truncatedStream

/-- R271: the round trip. For every byte sequence and every supported pair, whatever the two units held before, the
compressor produces a stream, and decompressing it gives the bytes back. -/
def Obligations.DecompressInvertsCompress : Prop :=
  ∀ (s r : State) (data : List Byte) (w l : Nat), s.Inv → r.Inv → Config.legalW w → Config.legalL l →
    ∃ comp, compress s data w l = .ok comp ∧ decompress r comp = .ok data

/-- R241: determinism. The compressed bytes do not depend on what the unit held before its reset, the stale window cells
and lookahead cells among it. -/
def Obligations.CompressIgnoresThePast : Prop :=
  ∀ (s r : State) (data : List Byte) (w l : Nat), s.Inv → r.Inv → compress s data w l = compress r data w l

/-- R272: the configuration is recovered: after the header step on what the compressor produced, `dcfg_w` and `dcfg_l`
are the values used to produce it. -/
def Obligations.ConfigurationIsRecovered : Prop :=
  ∀ (s r t : State) (data comp : List Byte) (w l : Nat), s.Inv → Config.legalW w → Config.legalL l →
    compress s data w l = .ok comp → r.dmp.dstate = .readingHeader → r.dmp.bsd.rpos = 0 → r.dmp.bsd.ibuf = comp →
    exec .dStep r = .next t → t.dmp.dstate = .readingToken ∧ t.dmp.dcfgW.toNat = w ∧ t.dmp.dcfgL.toNat = l
end

