-- ==== Sys2Proof/Laws/Bits.lean ====
section
/-! SUPPORT. Bits in transmission order: values and bit strings are inverse (R62), and the bits of a byte sequence
(R61). -/

namespace Sys2Proof

@[simp] theorem bitsOf_length (n v : Nat) : (bitsOf n v).length = n := by
  induction n with
  | zero => rfl
  | succ n ih => simp [bitsOf, ih]

theorem valueOf_lt (bs : List Bool) : valueOf bs < 2 ^ bs.length := by
  induction bs with
  | nil => simp [valueOf]
  | cons b t ih =>
    have h1 : b.toNat ≤ 1 := Bool.toNat_le b
    have : b.toNat * 2 ^ t.length ≤ 1 * 2 ^ t.length := Nat.mul_le_mul_right _ h1
    simp only [valueOf, List.length_cons, pow_succ]
    omega

theorem testBit_toNat (v n : Nat) : (v.testBit n).toNat = v / 2 ^ n % 2 := by
  rw [Nat.testBit_eq_decide_div_mod_eq]
  rcases Nat.mod_two_eq_zero_or_one (v / 2 ^ n) with h | h <;> simp [h]

/-- R62: reading back the bits of a value gives its low `n` bits. -/
theorem valueOf_bitsOf (n v : Nat) : valueOf (bitsOf n v) = v % 2 ^ n := by
  induction n with
  | zero => simp [bitsOf, valueOf, Nat.mod_one]
  | succ n ih =>
    simp only [bitsOf, valueOf, bitsOf_length, ih, testBit_toNat]
    rw [pow_succ, Nat.mod_mul, Nat.mul_comm (2 ^ n), Nat.add_comm]

theorem bitsOf_mod (n m v : Nat) (h : n ≤ m) : bitsOf n (v % 2 ^ m) = bitsOf n v := by
  induction n with
  | zero => rfl
  | succ n ih =>
    have hn : n < m := by omega
    simp [bitsOf, ih (by omega), Nat.testBit_mod_two_pow, hn]

theorem bitsOf_add_mul (n v k : Nat) : bitsOf n (k * 2 ^ n + v) = bitsOf n v := by
  rw [← bitsOf_mod n n (k * 2 ^ n + v) le_rfl, ← bitsOf_mod n n v le_rfl, Nat.mul_add_mod_self_right]

/-- R62: a bit string is the bits of its value. -/
theorem bitsOf_valueOf (bs : List Bool) : bitsOf bs.length (valueOf bs) = bs := by
  induction bs with
  | nil => rfl
  | cons b t ih =>
    have hl := valueOf_lt t
    simp only [List.length_cons, bitsOf, valueOf, bitsOf_add_mul, ih]
    congr 1
    rw [Nat.testBit_eq_decide_div_mod_eq, Nat.add_comm, Nat.add_mul_div_right _ _ (by positivity),
      Nat.div_eq_of_lt hl]
    cases b <;> simp

theorem bitsOf_append (a b v : Nat) : bitsOf (a + b) v = bitsOf a (v / 2 ^ b) ++ bitsOf b v := by
  induction a with
  | zero => simp [bitsOf]
  | succ a ih =>
    rw [show a + 1 + b = (a + b) + 1 by omega]
    simp [bitsOf, ih, Nat.testBit_div_two_pow]

theorem valueOf_append (x y : List Bool) : valueOf (x ++ y) = valueOf x * 2 ^ y.length + valueOf y := by
  induction x with
  | nil => simp [valueOf]
  | cons b t ih => simp only [List.cons_append, valueOf, ih, List.length_append, pow_add]; ring

theorem valueOf_replicate_false (n : Nat) : valueOf (List.replicate n false) = 0 := by
  induction n with
  | zero => rfl
  | succ n ih => simp [List.replicate_succ, valueOf, ih]

theorem valueOf_eq_zero (bs : List Bool) : valueOf bs = 0 ↔ bs.all (! ·) = true := by
  induction bs with
  | nil => simp [valueOf]
  | cons b t ih => cases b <;> simp [valueOf, ih]

/-- R62: position `k` of a field holds bit `n - 1 - k` of its value. -/
theorem bitsOf_getElem? (n v k : Nat) (h : k < n) : (bitsOf n v)[k]? = some (v.testBit (n - 1 - k)) := by
  induction n generalizing k with
  | zero => omega
  | succ n ih =>
    cases k with
    | zero => simp [bitsOf]
    | succ k => simp only [bitsOf, List.getElem?_cons_succ, ih k (by omega)]; congr 2; omega

/-! ## Stream bits -/

@[simp] theorem streamBits_length (s : List Byte) (p n : Nat) : (streamBits s p n).length = n := by
  induction n generalizing p with
  | zero => rfl
  | succ n ih => simp [streamBits, ih]

/-- R63: reading `a` then `b` bits is reading `a + b` bits. -/
theorem streamBits_add (s : List Byte) (p a b : Nat) :
    streamBits s p (a + b) = streamBits s p a ++ streamBits s (p + a) b := by
  induction a generalizing p with
  | zero => simp [streamBits]
  | succ a ih =>
    rw [show a + 1 + b = (a + b) + 1 by omega]
    simp [streamBits, ih, Nat.add_assoc, Nat.add_comm 1 a]

theorem streamBits_take (s : List Byte) (p n k : Nat) (h : k ≤ n) :
    (streamBits s p n).take k = streamBits s p k := by
  obtain ⟨m, rfl⟩ := Nat.exists_eq_add_of_le h
  rw [streamBits_add, List.take_left' (by simp)]

theorem streamBits_drop (s : List Byte) (p n k : Nat) (h : k ≤ n) :
    (streamBits s p n).drop k = streamBits s (p + k) (n - k) := by
  obtain ⟨m, rfl⟩ := Nat.exists_eq_add_of_le h
  rw [streamBits_add, List.drop_left' (by simp), Nat.add_sub_cancel_left]

theorem streamBits_getElem? (s : List Byte) (p n k : Nat) (h : k < n) :
    (streamBits s p n)[k]? = some (streamBit s (p + k)) := by
  induction n generalizing p k with
  | zero => omega
  | succ n ih =>
    cases k with
    | zero => simp [streamBits]
    | succ k => simp only [streamBits, List.getElem?_cons_succ, ih (p + 1) k (by omega)]; congr 2; omega

namespace Machine

@[simp] theorem bytesBits_nil : bytesBits [] = [] := rfl

@[simp] theorem bytesBits_append (s t : List Byte) : bytesBits (s ++ t) = bytesBits s ++ bytesBits t := by
  simp [bytesBits]

@[simp] theorem bytesBits_cons (b : Byte) (t : List Byte) : bytesBits (b :: t) = bitsOf 8 b.toNat ++ bytesBits t := rfl

@[simp] theorem bytesBits_length (s : List Byte) : (bytesBits s).length = 8 * s.length := by
  induction s with
  | nil => rfl
  | cons b t ih => simp [ih]; omega

/-- R61: bit `p` of the whole bit string is `StreamBit(s, p)`. -/
theorem bytesBits_getElem? (s : List Byte) (p : Nat) (h : p < 8 * s.length) :
    (bytesBits s)[p]? = some (streamBit s p) := by
  induction s generalizing p with
  | nil => simp at h
  | cons b t ih =>
    by_cases hp : p < 8
    · rw [bytesBits_cons, List.getElem?_append_left (by simpa using hp), bitsOf_getElem? _ _ _ hp]
      have h0 : p / 8 = 0 := Nat.div_eq_of_lt hp
      have h1 : p % 8 = p := Nat.mod_eq_of_lt hp
      simp [streamBit, h0, h1, BitVec.getLsbD]
    · simp only [List.length_cons] at h
      rw [bytesBits_cons, List.getElem?_append_right (by simpa using hp), bitsOf_length, ih (p - 8) (by omega)]
      obtain ⟨q, rfl⟩ : ∃ q, p = q + 8 := ⟨p - 8, by omega⟩
      simp [streamBit, Nat.add_div_right, Nat.add_mod_right]

/-- R61: the bits read from a position are those of the bit string. -/
theorem streamBits_eq (s : List Byte) (p n : Nat) (h : p + n ≤ 8 * s.length) :
    streamBits s p n = ((bytesBits s).drop p).take n := by
  apply List.ext_getElem?
  intro k
  by_cases hk : k < n
  · rw [streamBits_getElem? _ _ _ _ hk, List.getElem?_take_of_lt hk, List.getElem?_drop,
      bytesBits_getElem? _ _ (by omega)]
  · rw [List.getElem?_eq_none (by simpa using hk), List.getElem?_eq_none]
    simp only [List.length_take, List.length_drop, bytesBits_length]; omega

theorem pendingBits_length (b : Bsd) : (pendingBits b).length = avail b := by
  simp [pendingBits, avail]

/-- R155: a peek reads the pending bits. -/
theorem peekBits_eq (b : Bsd) (n off : Nat) (h : off + n ≤ avail b) :
    peekBits b n off = valueOf (((pendingBits b).drop off).take n) := by
  by_cases hn : n = 0
  · subst hn; simp [peekBits, streamBits, valueOf]
  · simp only [avail] at h
    rw [peekBits, streamBits_eq _ _ _ (by omega), pendingBits, List.drop_drop]

/-- The fetch sees the pending bits. -/
theorem unread_eq (b : Bsd) : unread b = (pendingBits b).take maxElementBits := by
  have hl := pendingBits_length b
  by_cases h : b.rpos ≤ 8 * b.ibuf.length
  · rw [unread, streamBits_eq _ _ _ (by simp only [avail]; omega), ← pendingBits]
    rcases Nat.le_total (avail b) maxElementBits with h' | h'
    · rw [Nat.min_eq_left h', List.take_of_length_le (by omega), List.take_of_length_le (by omega)]
    · rw [Nat.min_eq_right h']
  · have h0 : avail b = 0 := by simp only [avail]; omega
    rw [List.length_eq_zero_iff.mp (hl.trans h0)]
    simp [unread, h0, streamBits]

end Machine
end Sys2Proof
end

