-- ==== Sys2Proof/Laws/Decode.lean ====
section
/-! SUPPORT. The decoders against the encoder (30_encoding.md R91 to R99, 44_token_interpreter.md R211 to R213). -/

namespace Sys2Proof

theorem ofNat_toNat_eq {n : Nat} (v : BitVec n) (k : Nat) (h : k % 2 ^ n = v.toNat) : BitVec.ofNat n k = v := by
  apply BitVec.eq_of_toNat_eq; rw [BitVec.toNat_ofNat, h]

theorem headerBitsOf_length (v w l : Nibble) (k : BitVec 1) (r : BitVec 3) :
    (headerBitsOf v w l k r).length = Config.headerBits := by simp [headerBitsOf, Config.headerBits]

theorem valueOf_headerBitsOf (v w l : Nibble) (k : BitVec 1) (r : BitVec 3) :
    valueOf (headerBitsOf v w l k r) = v.toNat * 4096 + w.toNat * 256 + l.toNat * 16 + k.toNat * 8 + r.toNat := by
  have := v.isLt; have := w.isLt; have := l.isLt; have := k.isLt; have := r.isLt
  simp only [headerBitsOf, valueOf_append, valueOf_bitsOf, List.length_append, bitsOf_length]
  omega

theorem headerOfValue_eq (v w l : Nibble) (k : BitVec 1) (r : BitVec 3) :
    headerOfValue (v.toNat * 4096 + w.toNat * 256 + l.toNat * 16 + k.toNat * 8 + r.toNat) = .hdr v w l k r := by
  have := v.isLt; have := w.isLt; have := l.isLt; have := k.isLt; have := r.isLt
  simp only [headerOfValue, Instr.hdr.injEq]
  refine ⟨?_, ?_, ?_, ?_, ?_⟩ <;> apply ofNat_toNat_eq <;> omega

/-- R91: every header, legal or not, is read back as its five fields. -/
theorem decodeHeader_headerBitsOf (v w l : Nibble) (k : BitVec 1) (r : BitVec 3) (rest : List Bool) :
    decodeHeader (headerBitsOf v w l k r ++ rest) = .ok (.hdr v w l k r, rest) := by
  have hl := headerBitsOf_length v w l k r
  have h1 : ¬ (headerBitsOf v w l k r ++ rest).length < Config.headerBits := by simp [hl]
  rw [decodeHeader, if_neg h1, List.take_left' hl, List.drop_left' hl, valueOf_headerBitsOf, headerOfValue_eq]

/-- R94: a short literal is read back with what follows it. -/
theorem decodeToken_literal (w l c : Nat) (i : Instr) (rest : List Bool) (hw : Config.legalW w)
    (hl : Config.legalL l) (hc : c < 2 ^ l) (he : ¬ (l < 8 ∧ c = 2 ^ l - 1)) (hi : literalOf l c = .ok i) :
    decodeToken w l (literalBitsOf l c ++ rest) = .ok (i, rest) := by
  have hlen : ¬ (bitsOf l c ++ rest).length < l := by simp
  have ht : (bitsOf l c ++ rest).take l = bitsOf l c := List.take_left' (by simp)
  have hd : (bitsOf l c ++ rest).drop l = rest := List.drop_left' (by simp)
  have hcfg : ¬ ¬ (Config.legalW w ∧ Config.legalL l) := not_not.mpr ⟨hw, hl⟩
  simp only [decodeToken, if_neg hcfg, literalBitsOf, List.cons_append, if_neg hlen, ht, valueOf_bitsOf,
    Nat.mod_eq_of_lt hc, if_neg he, hi, hd, Except.map]

/-- R95: an escaped literal is read back with what follows it. -/
theorem decodeToken_escape (w l : Nat) (r : Byte) (i : Instr) (rest : List Bool) (hw : Config.legalW w)
    (hl : Config.legalL l) (h8 : l < 8) (hi : escapeOf l r.toNat = .ok i) :
    decodeToken w l (escapeBitsOf l r ++ rest) = .ok (i, rest) := by
  have hlen : ¬ (bitsOf l (2 ^ l - 1) ++ bitsOf 8 r.toNat ++ rest).length < l := by simp
  have hlen2 : ¬ (bitsOf l (2 ^ l - 1) ++ bitsOf 8 r.toNat ++ rest).length < l + 8 := by simp
  have ht : (bitsOf l (2 ^ l - 1) ++ bitsOf 8 r.toNat ++ rest).take l = bitsOf l (2 ^ l - 1) := by
    rw [List.append_assoc]; exact List.take_left' (by simp)
  have hd : (bitsOf l (2 ^ l - 1) ++ bitsOf 8 r.toNat ++ rest).drop l = bitsOf 8 r.toNat ++ rest := by
    rw [List.append_assoc]; exact List.drop_left' (by simp)
  have hd2 : (bitsOf l (2 ^ l - 1) ++ bitsOf 8 r.toNat ++ rest).drop (l + 8) = rest := List.drop_left' (by simp)
  have ht2 : (bitsOf 8 r.toNat ++ rest).take 8 = bitsOf 8 r.toNat := List.take_left' (by simp)
  have hcfg : ¬ ¬ (Config.legalW w ∧ Config.legalL l) := not_not.mpr ⟨hw, hl⟩
  have hv : valueOf (bitsOf l (2 ^ l - 1)) = 2 ^ l - 1 := by
    rw [valueOf_bitsOf, Nat.mod_eq_of_lt (Nat.sub_lt (by positivity) (by omega))]
  have hr : valueOf (bitsOf 8 r.toNat) = r.toNat := by rw [valueOf_bitsOf, Nat.mod_eq_of_lt r.isLt]
  simp only [decodeToken, if_neg hcfg, escapeBitsOf, List.cons_append, if_neg hlen, ht, hv, h8, true_and,
    if_true, if_neg hlen2, hd, ht2, hr, hi, hd2, Except.map]

/-- R96: a match is read back with what follows it. -/
theorem decodeToken_match (w l d : Nat) (n : Nibble) (i : Instr) (rest : List Bool) (hw : Config.legalW w)
    (hl : Config.legalL l) (hd : d < 2 ^ w) (hi : matchOf w d n.toNat = .ok i) :
    decodeToken w l (matchBitsOf w d n ++ rest) = .ok (i, rest) := by
  have hlen : ¬ (bitsOf w d ++ bitsOf Config.lenBits n.toNat ++ rest).length < w + Config.lenBits := by simp
  have ht : (bitsOf w d ++ bitsOf Config.lenBits n.toNat ++ rest).take w = bitsOf w d := by
    rw [List.append_assoc]; exact List.take_left' (by simp)
  have hd1 : (bitsOf w d ++ bitsOf Config.lenBits n.toNat ++ rest).drop w =
      bitsOf Config.lenBits n.toNat ++ rest := by
    rw [List.append_assoc]; exact List.drop_left' (by simp)
  have hd2 : (bitsOf w d ++ bitsOf Config.lenBits n.toNat ++ rest).drop (w + Config.lenBits) = rest :=
    List.drop_left' (by simp)
  have ht2 : (bitsOf Config.lenBits n.toNat ++ rest).take Config.lenBits = bitsOf Config.lenBits n.toNat :=
    List.take_left' (by simp)
  have hcfg : ¬ ¬ (Config.legalW w ∧ Config.legalL l) := not_not.mpr ⟨hw, hl⟩
  have hn : n.toNat % 2 ^ Config.lenBits = n.toNat := Nat.mod_eq_of_lt n.isLt
  simp only [decodeToken, if_neg hcfg, matchBitsOf, List.cons_append, if_neg hlen, ht, valueOf_bitsOf,
    Nat.mod_eq_of_lt hd, hd1, ht2, hn, hi, hd2, Except.map]

end Sys2Proof
end

