-- ==== Sys2Proof/Laws/Encoder.lean ====
section
/-! SUPPORT. The bitstream_encoder and the token_emitter (40_bitstream_encoder.md R131 to R134, 43_token_emitter.md R191
to R194): what a write accepts, said once as bits appended. -/

namespace Sys2Proof.Machine

theorem bitsOf_succ_toNat (n a : Nat) (v : Bool) : bitsOf (n + 1) (a * 2 + v.toNat) = bitsOf n a ++ [v] := by
  rw [bitsOf_append]
  have h : (a * 2 + v.toNat) / 2 ^ 1 = a := by cases v <;> simp; omega
  rw [h]
  congr 1
  cases v <;> simp [bitsOf]

theorem pushBit_acc_lt (b : Bse) (v : Bool) (h : b.Inv) : b.acc.toNat * 2 + v.toNat < 2 ^ (b.nacc + 1) := by
  have := h.accBits
  have := Bool.toNat_le v
  rw [pow_succ]; omega

theorem pushBit_acc_toNat (b : Bse) (v : Bool) (h : b.Inv) :
    (BitVec.ofNat 8 (b.acc.toNat * 2 + v.toNat)).toNat = b.acc.toNat * 2 + v.toNat := by
  have h1 := pushBit_acc_lt b v h
  have h2 : 2 ^ (b.nacc + 1) ≤ 2 ^ 8 := Nat.pow_le_pow_right (by omega) (by have := h.pending; omega)
  rw [BitVec.toNat_ofNat, Nat.mod_eq_of_lt (by omega)]

@[simp] theorem pushBit_flushed (b : Bse) (v : Bool) : (pushBit b v).flushed = b.flushed := by
  unfold pushBit; split <;> rfl

/-- R132: one bit accepted keeps the widths of R21. -/
theorem pushBit_inv (b : Bse) (v : Bool) (h : b.Inv) (hf : b.flushed = false) : (pushBit b v).Inv := by
  have hp := h.pending
  unfold pushBit
  split
  · exact ⟨by simp, by simp, by simp⟩
  · refine ⟨by simp only; omega, ?_, by simp [hf]⟩
    simp only [pushBit_acc_toNat b v h]; exact pushBit_acc_lt b v h

/-- R132: one bit accepted is one bit appended. -/
theorem acceptedBits_pushBit (b : Bse) (v : Bool) (h : b.Inv) :
    acceptedBits (pushBit b v) = acceptedBits b ++ [v] := by
  unfold pushBit
  split
  · rename_i h8
    have h7 : b.nacc = 7 := by omega
    simp only [acceptedBits, bytesBits_append, bytesBits_cons, bytesBits_nil, List.append_nil, bitsOf,
      pushBit_acc_toNat b v h, List.append_assoc]
    congr 1
    rw [h7, ← bitsOf_succ_toNat 7]; rfl
  · simp only [acceptedBits, pushBit_acc_toNat b v h, bitsOf_succ_toNat, List.append_assoc]

/-- `obuf` only grows (R134 c). -/
theorem pushBit_obuf (b : Bse) (v : Bool) : b.obuf <+: (pushBit b v).obuf := by
  unfold pushBit; split <;> simp

theorem foldl_pushBit (bs : List Bool) (b : Bse) (h : b.Inv) (hf : b.flushed = false) :
    (bs.foldl pushBit b).Inv ∧ (bs.foldl pushBit b).flushed = false ∧
      acceptedBits (bs.foldl pushBit b) = acceptedBits b ++ bs ∧ b.obuf <+: (bs.foldl pushBit b).obuf := by
  induction bs generalizing b with
  | nil => exact ⟨h, hf, by simp, List.prefix_refl _⟩
  | cons v t ih =>
    obtain ⟨h1, h2, h3, h4⟩ := ih (pushBit b v) (pushBit_inv b v h hf) (by simpa using hf)
    exact ⟨h1, h2, by simp [h3, acceptedBits_pushBit b v h], (pushBit_obuf b v).trans h4⟩

/-- What one write does: the BSE after it is `b'`. -/
structure Wrote (b b' : Bse) (bits : List Bool) : Prop where
  inv : b'.Inv
  open' : b'.flushed = false
  bits : acceptedBits b' = acceptedBits b ++ bits
  grows : b.obuf <+: b'.obuf

theorem Wrote.trans {a b c : Bse} {x y : List Bool} (h : Wrote a b x) (k : Wrote b c y) : Wrote a c (x ++ y) :=
  ⟨k.inv, k.open', by rw [k.bits, h.bits, List.append_assoc], h.grows.trans k.grows⟩

/-- R132: a write of 1 to 16 bits before the flush succeeds and appends the low `n` bits of `v`. -/
theorem writeBits_ok (v n : Nat) (b : Bse) (h : b.Inv) (hf : b.flushed = false) (h1 : 1 ≤ n) (h2 : n ≤ 16) :
    ∃ b', writeBits v n b = .ok b' ∧ Wrote b b' (bitsOf n v) := by
  obtain ⟨k1, k2, k3, k4⟩ := foldl_pushBit (bitsOf n v) b h hf
  refine ⟨_, ?_, k1, k2, k3, k4⟩
  have hw : ¬ (n < 1 ∨ n > Config.maxWriteBits) := by simp only [Config.maxWriteBits]; omega
  simp only [writeBits, hf, if_neg hw]; rfl

/-- R191: the header appends its 16 bits. -/
theorem emitHeader_ok (w l : Nat) (b : Bse) (h : b.Inv) (hf : b.flushed = false) :
    ∃ b', emitHeader w l b = .ok b' ∧ Wrote b b' (bitsOf 16 (0x1000 + 0x100 * w + 0x10 * l)) :=
  writeBits_ok _ 16 b h hf (by omega) (by omega)

theorem emitLiteral_ok (l : Nat) (x : Byte) (b : Bse) (h : b.Inv) (hf : b.flushed = false) (hl : Config.legalL l) :
    ∃ b', emitLiteral l x b = .ok b' ∧ Wrote b b' (literalCode l x) := by
  obtain ⟨b1, e1, w1⟩ := writeBits_ok 1 1 b h hf le_rfl (by omega)
  have hm : bitsOf 1 1 = [true] := rfl
  have hl' := hl.2
  have hl0 := hl.1
  unfold literalCode covered
  by_cases h8 : l = 8
  · subst h8
    obtain ⟨b2, e2, w2⟩ := writeBits_ok x.toNat 8 b1 w1.inv w1.open' (by omega) (by omega)
    refine ⟨b2, by simp [emitLiteral, e1, e2, bind, Except.bind], ?_⟩
    simpa [literalBitsOf, hm] using w1.trans w2
  · by_cases hc : x.toNat < 2 ^ l - 1
    · obtain ⟨b2, e2, w2⟩ := writeBits_ok x.toNat l b1 w1.inv w1.open' (by omega) (by omega)
      refine ⟨b2, by simp [emitLiteral, e1, e2, bind, Except.bind, h8, hc], ?_⟩
      simpa [literalBitsOf, hm, h8, hc] using w1.trans w2
    · obtain ⟨b2, e2, w2⟩ := writeBits_ok (2 ^ l - 1) l b1 w1.inv w1.open' (by omega) (by omega)
      obtain ⟨b3, e3, w3⟩ := writeBits_ok x.toNat 8 b2 w2.inv w2.open' (by omega) (by omega)
      refine ⟨b3, by simp [emitLiteral, e1, e2, e3, bind, Except.bind, h8, hc], ?_⟩
      simpa [escapeBitsOf, hm, h8, hc] using (w1.trans w2).trans w3

/-- R193: a match appends marker 0, DIST and LEN. -/
theorem emitMatch_ok (w d n : Nat) (b : Bse) (h : b.Inv) (hf : b.flushed = false) (hw : Config.legalW w)
    (h1 : 1 ≤ d) (h2 : d ≤ 2 ^ w) (h3 : 2 ≤ n) (h4 : n ≤ 17) :
    ∃ b', emitMatch w d n b = .ok b' ∧ Wrote b b' (matchBitsOf w (d - 1) (.ofNat 4 (n - 2))) := by
  obtain ⟨b1, e1, w1⟩ := writeBits_ok 0 1 b h hf le_rfl (by omega)
  obtain ⟨b2, e2, w2⟩ := writeBits_ok (d - 1) w b1 w1.inv w1.open' (by have := hw.1; omega) (by have := hw.2; omega)
  obtain ⟨b3, e3, w3⟩ := writeBits_ok (n - Config.minMatch) Config.lenBits b2 w2.inv w2.open' (by decide) (by decide)
  have hc : ¬ (d < 1 ∨ d > 2 ^ w ∨ n < Config.minMatch ∨ n > Config.maxMatch) := by
    simp only [Config.minMatch, Config.maxMatch]; omega
  refine ⟨b3, by simp only [emitMatch, if_neg hc, e1, e2, e3, bind, Except.bind], ?_⟩
  have hm : bitsOf 1 0 = [false] := rfl
  have hn : (n - 2) % 16 = n - 2 := Nat.mod_eq_of_lt (by omega)
  simpa [matchBitsOf, hm, Config.minMatch, hn] using (w1.trans w2).trans w3

/-- R133: a flush appends the least number of zero bits that fills the last byte, and `obuf` then spells all. -/
theorem bseFlush_ok (b : Bse) (h : b.Inv) (hf : b.flushed = false) :
    ∃ b', bseFlush b = .ok b' ∧ b'.acc = 0 ∧ b'.nacc = 0 ∧ b'.flushed = true ∧
      bytesBits b'.obuf = acceptedBits b ++ List.replicate ((8 - b.nacc) % 8) false := by
  refine ⟨_, by simp only [bseFlush, hf]; rfl, rfl, rfl, rfl, ?_⟩
  have hp := h.pending
  have ha := h.accBits
  split
  · rename_i h0
    have hlt : b.acc.toNat * 2 ^ (8 - b.nacc) < 2 ^ 8 := by
      have : 2 ^ 8 = 2 ^ b.nacc * 2 ^ (8 - b.nacc) := by rw [← pow_add]; congr 1; omega
      rw [this]; exact Nat.mul_lt_mul_of_pos_right ha (by positivity)
    have hb : bitsOf 8 (b.acc.toNat * 2 ^ (8 - b.nacc)) =
        bitsOf b.nacc b.acc.toNat ++ List.replicate (8 - b.nacc) false := by
      have h1 := bitsOf_append b.nacc (8 - b.nacc) (b.acc.toNat * 2 ^ (8 - b.nacc))
      rw [show b.nacc + (8 - b.nacc) = 8 by omega, Nat.mul_div_cancel _ (by positivity)] at h1
      rw [h1]
      congr 1
      have h2 := bitsOf_valueOf (List.replicate (8 - b.nacc) false)
      rw [List.length_replicate, valueOf_replicate_false] at h2
      rw [← h2, ← bitsOf_add_mul _ 0 b.acc.toNat, Nat.add_zero]
    rw [show (8 - b.nacc) % 8 = 8 - b.nacc by omega]
    simp only [bytesBits_append, bytesBits_cons, bytesBits_nil, List.append_nil, BitVec.toNat_ofNat,
      Nat.mod_eq_of_lt hlt, hb, acceptedBits, List.append_assoc]
  · have h0 : b.nacc = 0 := by omega
    simp [acceptedBits, h0, bitsOf]

/-- R134 (a): the number of bits accepted. -/
theorem acceptedBits_length (b : Bse) : (acceptedBits b).length = 8 * b.obuf.length + b.nacc := by
  simp [acceptedBits]

/-- R132: whole bytes taken from the top of a value, then what is left of it. -/
theorem bytesBits_range (q r t : Nat) :
    bytesBits ((List.range q).map fun j => .ofNat 8 (t / 2 ^ (8 * q + r - 8 - 8 * j))) ++ bitsOf r t =
      bitsOf (8 * q + r) t := by
  induction q with
  | zero => simp
  | succ q ih =>
    have h8 : bitsOf 8 (BitVec.ofNat 8 (t / 2 ^ (8 * q + r))).toNat = bitsOf 8 (t / 2 ^ (8 * q + r)) := by
      rw [BitVec.toNat_ofNat, bitsOf_mod _ _ _ le_rfl]
    rw [List.range_succ_eq_map, List.map_cons, List.map_map, bytesBits_cons, List.append_assoc,
      show 8 * (q + 1) + r = 8 + (8 * q + r) by omega, bitsOf_append, ← ih,
      show 8 + (8 * q + r) - 8 - 8 * 0 = 8 * q + r by omega, h8]
    congr 3
    apply List.map_congr_left
    intro j _
    simp only [Function.comp, Nat.succ_eq_add_one]
    rw [show 8 + (8 * q + r) - 8 - 8 * (j + 1) = 8 * q + r - 8 - 8 * j by omega]

/-- R61: bytes with the same bits are the same bytes. -/
theorem bytesBits_inj {x y : List Byte} (h : bytesBits x = bytesBits y) : x = y := by
  induction x generalizing y with
  | nil =>
    cases y with
    | nil => rfl
    | cons b t => have h1 := congrArg List.length h; simp at h1; omega
  | cons a s ih =>
    cases y with
    | nil => simpa using congrArg List.length h
    | cons b t =>
      simp only [bytesBits_cons] at h
      obtain ⟨h1, h2⟩ := List.append_inj h (by simp)
      have h3 := congrArg valueOf h1
      rw [valueOf_bitsOf, valueOf_bitsOf] at h3
      have ha := a.isLt
      have hb := b.isLt
      rw [ih h2, BitVec.eq_of_toNat_eq (x := a) (y := b) (by omega)]

/-- R134: an encoder that meets the widths of R21 is determined by the bits it has accepted. -/
theorem acceptedBits_inj {a b : Bse} (ha : a.Inv) (hb : b.Inv) (hf : a.flushed = b.flushed)
    (h : acceptedBits a = acceptedBits b) : a = b := by
  have hl := congrArg List.length h
  rw [acceptedBits_length, acceptedBits_length] at hl
  have h1 := ha.pending
  have h2 := hb.pending
  have hn : a.nacc = b.nacc := by omega
  have ho : a.obuf.length = b.obuf.length := by omega
  obtain ⟨h3, h4⟩ := List.append_inj h (by simp [ho])
  have h5 := congrArg valueOf h4
  rw [valueOf_bitsOf, valueOf_bitsOf, Nat.mod_eq_of_lt ha.accBits, Nat.mod_eq_of_lt hb.accBits] at h5
  obtain ⟨acc, nacc, fl, obuf⟩ := a
  obtain ⟨acc', nacc', fl', obuf'⟩ := b
  simp only [Bse.mk.injEq]
  exact ⟨BitVec.eq_of_toNat_eq h5, hn, hf, bytesBits_inj h3⟩

end Sys2Proof.Machine
end

