-- ==== Sys2Proof/Laws/Memory.lean ====
section
/-! SUPPORT. The window RAM: a write keeps the canonical form, a read after a write gives the byte written, and every
other cell is left alone (R12, R60). -/

namespace Sys2Proof.Machine

theorem memWrite_mem (m : Memory) (a : Nat) (b : Byte) (x : Host.Cell) :
    x ∈ memWrite m a b → x = (a, b) ∨ x ∈ m := by
  induction m with
  | nil => simp [memWrite]
  | cons c t ih =>
    obtain ⟨k, v⟩ := c
    simp only [memWrite]
    split
    · simp
    · split
      · simp only [List.mem_cons]; rintro (h | h)
        · exact .inl h
        · exact .inr (.inr h)
      · simp only [List.mem_cons]; rintro (h | h)
        · exact .inr (.inl h)
        · rcases ih h with h | h
          · exact .inl h
          · exact .inr (.inr h)

/-- A write keeps the canonical form. -/
theorem memWrite_wf (m : Memory) (a : Nat) (b : Byte) (h : Memory.wf m) : Memory.wf (memWrite m a b) := by
  induction m with
  | nil => simp [memWrite, Memory.wf]
  | cons c t ih =>
    obtain ⟨k, v⟩ := c
    simp only [Memory.wf, List.pairwise_cons] at h
    simp only [memWrite]
    split
    · rename_i hlt
      simp only [Memory.wf, List.pairwise_cons, List.mem_cons]
      refine ⟨?_, h.1, h.2⟩
      rintro x (rfl | hx)
      · exact hlt
      · exact lt_trans hlt (h.1 x hx)
    · split
      · rename_i heq
        subst heq
        exact List.pairwise_cons.mpr ⟨h.1, h.2⟩
      · refine List.pairwise_cons.mpr ⟨?_, ih h.2⟩
        intro x hx
        rcases memWrite_mem t a b x hx with rfl | hx
        · simp only; omega
        · exact h.1 x hx

theorem memRead_eq_none_of_lt (m : Memory) (a : Nat) (h : ∀ x ∈ m, a < x.1) : memRead m a = none := by
  induction m with
  | nil => rfl
  | cons c t ih =>
    obtain ⟨k, v⟩ := c
    have hk : a < k := h (k, v) (by simp)
    simp only [memRead, if_neg (by omega : ¬ k = a)]
    exact ih fun x hx => h x (List.mem_cons_of_mem _ hx)

/-- Read after write: the written cell holds the byte, every other cell what it held. -/
theorem memRead_memWrite (m : Memory) (a : Nat) (b : Byte) (x : Nat) (h : Memory.wf m) :
    memRead (memWrite m a b) x = if x = a then some b else memRead m x := by
  induction m with
  | nil => simp only [memWrite, memRead]; split_ifs <;> first | rfl | omega
  | cons c t ih =>
    obtain ⟨k, v⟩ := c
    simp only [Memory.wf, List.pairwise_cons] at h
    simp only [memWrite]
    split
    · simp only [memRead]; split_ifs <;> first | rfl | omega
    · split
      · simp only [memRead]; split_ifs <;> first | rfl | omega
      · simp only [memRead, ih h.2]; split_ifs <;> first | rfl | omega

theorem memRead_some_mem (m : Memory) (a : Nat) (b : Byte) (h : memRead m a = some b) : (a, b) ∈ m := by
  induction m with
  | nil => simp [memRead] at h
  | cons c t ih =>
    obtain ⟨k, v⟩ := c
    simp only [memRead] at h
    split at h
    · rename_i hk; simp at h; simp [hk, h]
    · exact List.mem_cons_of_mem _ (ih h)

/-- Two memories in canonical form that read alike are equal. -/
theorem memory_ext (m n : Memory) (hm : Memory.wf m) (hn : Memory.wf n) (h : ∀ a, memRead m a = memRead n a) :
    m = n := by
  induction m generalizing n with
  | nil =>
    cases n with
    | nil => rfl
    | cons c t => have := h c.1; simp [memRead] at this
  | cons c t ih =>
    obtain ⟨k, v⟩ := c
    cases n with
    | nil => have := h k; simp [memRead] at this
    | cons c' t' =>
      obtain ⟨k', v'⟩ := c'
      simp only [Memory.wf, List.pairwise_cons] at hm hn
      have hk : k = k' := by
        rcases Nat.lt_trichotomy k k' with hlt | heq | hlt
        · have := h k
          rw [memRead_eq_none_of_lt ((k', v') :: t') k] at this
          · simp [memRead] at this
          · intro x hx
            rcases List.mem_cons.mp hx with rfl | hx
            · exact hlt
            · exact lt_trans hlt (hn.1 x hx)
        · exact heq
        · have := h k'
          rw [memRead_eq_none_of_lt ((k, v) :: t) k'] at this
          · simp [memRead] at this
          · intro x hx
            rcases List.mem_cons.mp hx with rfl | hx
            · exact hlt
            · exact lt_trans hlt (hm.1 x hx)
      subst hk
      have hv : v = v' := by have := h k; simpa [memRead] using this
      subst hv
      congr 1
      refine ih t' hm.2 hn.2 fun a => ?_
      by_cases ha : a = k
      · subst ha
        rw [memRead_eq_none_of_lt t a hm.1, memRead_eq_none_of_lt t' a hn.1]
      · have := h a
        simpa [memRead, Ne.symm ha] using this

end Sys2Proof.Machine
end

