-- ==== Sys2Proof/Laws/Window.lean ====
section
/-! SUPPORT. The sliding window (42_sliding_window_dictionary.md R171 to R175): where a distance points, what a push does
to the history, and what a copy moves. -/

namespace Sys2Proof.Machine

theorem Window.size_pos (w : Window) : 0 < w.size := Nat.two_pow_pos _

/-- R67 without the integers: the cell `d` places back. -/
theorem histAddr_eq (w : Window) (d : Nat) (hw : w.wr < w.size) (hd : d ≤ w.size) :
    histAddr w d = if d ≤ w.wr then w.wr - d else w.wr + w.size - d := by
  have hs : (2 ^ w.bits : Nat) = w.size := rfl
  rw [histAddr, hs]
  split
  · rw [Int.emod_eq_of_lt (by omega) (by omega)]; omega
  · rw [← Int.add_emod_right, Int.emod_eq_of_lt (by omega) (by omega)]; omega

theorem histAddr_lt (w : Window) (d : Nat) : histAddr w d < w.size := by
  have hp := w.size_pos
  have hs : (2 ^ w.bits : Nat) = w.size := rfl
  have h1 := Int.emod_lt_of_pos ((w.wr : Int) - d) (by omega : (0 : Int) < (w.size : Int))
  have h2 := Int.emod_nonneg ((w.wr : Int) - d) (by omega : (w.size : Int) ≠ 0)
  rw [histAddr, hs]; omega

@[simp] theorem push_bits (w : Window) (b : Byte) : (push w b).bits = w.bits := rfl
@[simp] theorem push_size (w : Window) (b : Byte) : (push w b).size = w.size := rfl
@[simp] theorem push_wr (w : Window) (b : Byte) : (push w b).wr = (w.wr + 1) % w.size := rfl
@[simp] theorem push_fill (w : Window) (b : Byte) : (push w b).fill = min (w.fill + 1) w.size := rfl
@[simp] theorem push_buf (w : Window) (b : Byte) : (push w b).buf = memWrite w.buf w.wr b := rfl
@[simp] theorem clearWindow_bits (w : Window) (n : Nat) : (clearWindow w n).bits = n := rfl
@[simp] theorem clearWindow_size (w : Window) (n : Nat) : (clearWindow w n).size = 2 ^ n := rfl
@[simp] theorem clearWindow_wr (w : Window) (n : Nat) : (clearWindow w n).wr = 0 := rfl
@[simp] theorem clearWindow_fill (w : Window) (n : Nat) : (clearWindow w n).fill = 0 := rfl
@[simp] theorem clearWindow_buf (w : Window) (n : Nat) : (clearWindow w n).buf = w.buf := rfl

theorem succ_mod (n m : Nat) (h : n < m) : (n + 1) % m = if n + 1 = m then 0 else n + 1 := by
  split
  · simp [*]
  · exact Nat.mod_eq_of_lt (by omega)

/-- R172: after a push distance 1 is the byte pushed, and distance `d + 1` is what distance `d` was. -/
theorem hist_push (w : Window) (b : Byte) (d : Nat) (hm : Memory.wf w.buf) (hw : w.wr < w.size) (h1 : 1 ≤ d)
    (hd : d ≤ w.size) : hist (push w b) d = if d = 1 then some b else hist w (d - 1) := by
  have hlt : (push w b).wr < (push w b).size := by simpa using Nat.mod_lt _ w.size_pos
  have ha : histAddr (push w b) d = if d ≤ w.wr + 1 then w.wr + 1 - d else w.wr + 1 + w.size - d := by
    rw [histAddr_eq _ _ hlt (by simpa using hd)]
    simp only [push_wr, push_size, succ_mod _ _ hw]
    split_ifs <;> omega
  rw [hist, ha, push_buf, memRead_memWrite _ _ _ _ hm]
  by_cases h : d = 1
  · subst h; simp
  · rw [if_neg h, if_neg (by split_ifs <;> omega), hist, histAddr_eq _ _ hw (by omega)]
    congr 1
    split_ifs <;> omega

theorem clearWindow_inv (w : Window) (n : Nat) (h : w.Inv) (hn : Config.legalW n) : (clearWindow w n).Inv where
  canonical := h.canonical
  inRam := h.inRam
  legal := hn
  cursor := Nat.two_pow_pos _
  filled := Nat.zero_le _
  written := fun d h1 h2 => by simp at h2; omega

/-- R330, R332: a unit's reset empties the window and leaves the RAM and its size. -/
theorem emptyWindow_inv (w : Window) (h : w.Inv) : Window.Inv { w with wr := 0, fill := 0 } :=
  clearWindow_inv w w.bits h h.legal

/-- A push keeps the invariant. -/
theorem push_inv (w : Window) (b : Byte) (h : w.Inv) : (push w b).Inv where
  canonical := memWrite_wf _ _ _ h.canonical
  inRam := fun x hx => by
    rcases memWrite_mem _ _ _ _ hx with rfl | hx
    · have h1 := h.cursor
      have h2 : w.size ≤ 2 ^ Config.wMax := Nat.pow_le_pow_right (by omega) h.legal.2
      simp only; omega
    · exact h.inRam x hx
  legal := h.legal
  cursor := by simpa using Nat.mod_lt _ w.size_pos
  filled := by simp
  written := fun d h1 h2 => by
    have h3 : d ≤ w.fill + 1 ∧ d ≤ w.size := by simpa using h2
    rw [hist_push _ _ _ h.canonical h.cursor h1 h3.2]
    split
    · rfl
    · exact h.written _ (by omega) (by omega)

theorem pushAll_inv (bs : List Byte) (w : Window) (h : w.Inv) : (pushAll w bs).Inv := by
  induction bs generalizing w with
  | nil => exact h
  | cons b t ih => exact ih _ (push_inv w b h)

@[simp] theorem pushAll_bits (bs : List Byte) (w : Window) : (pushAll w bs).bits = w.bits := by
  induction bs generalizing w with
  | nil => rfl
  | cons b t ih => exact ih _

@[simp] theorem pushAll_size (bs : List Byte) (w : Window) : (pushAll w bs).size = w.size := by
  simp [Window.size]

theorem pushAll_fill (bs : List Byte) (w : Window) (h : w.fill ≤ w.size) :
    (pushAll w bs).fill = min (w.fill + bs.length) w.size := by
  induction bs generalizing w with
  | nil => simp [pushAll, h]
  | cons b t ih =>
    have : pushAll w (b :: t) = pushAll (push w b) t := rfl
    rw [this, ih _ (by simp)]
    simp only [push_fill, push_size, List.length_cons]; omega

theorem pushAll_append (w : Window) (x y : List Byte) : pushAll w (x ++ y) = pushAll (pushAll w x) y := by
  simp [pushAll]

/-- Under the invariant a read of the history answers a byte. -/
theorem readHist_ok (i : Win) (w : Window) (d : Nat) (h : w.Inv) (h1 : 1 ≤ d) (h2 : d ≤ w.fill) :
    ∃ b, hist w d = some b ∧ readHist i w d = .ok b := by
  obtain ⟨b, hb⟩ := Option.isSome_iff_exists.mp (h.written d h1 h2)
  exact ⟨b, hb, by simp [readHist, hb]⟩

/-- R174, R175: a copy of a valid distance succeeds; what it does to the window is push the bytes it moved, as many as
asked; byte `j` is the one that was `d - j mod d` places back. -/
theorem copyLoop_ok (d : Nat) (n : Nat) (w : Window) (h : w.Inv) (h1 : 1 ≤ d) (h2 : d ≤ w.fill) :
    ∃ bs, copyLoop d n w = .ok (pushAll w bs, bs) ∧ bs.length = n ∧
      ∀ j, j < n → bs[j]? = hist w (d - j % d) := by
  induction n generalizing w with
  | zero => exact ⟨[], rfl, rfl, by simp⟩
  | succ n ih =>
    obtain ⟨b, hb, hr⟩ := readHist_ok .dwin w d h h1 h2
    have hfs := h.filled
    obtain ⟨bs, hc, hl, hj⟩ := ih (push w b) (push_inv w b h) (by simp only [push_fill]; omega)
    refine ⟨b :: bs, ?_, by simp [hl], ?_⟩
    · simp only [copyLoop, hr, hc, bind, Except.bind, pure, Except.pure]; rfl
    · intro j hjn
      cases j with
      | zero => simp [hb]
      | succ j =>
        rw [List.getElem?_cons_succ, hj j (by omega)]
        have hm : j % d < d := Nat.mod_lt _ (by omega)
        rw [hist_push _ _ _ h.canonical h.cursor (by omega) (by omega)]
        have hmod : (j + 1) % d = if j % d + 1 = d then 0 else j % d + 1 := by
          rw [← succ_mod _ _ hm, Nat.mod_add_mod]
        split
        · rename_i hd1
          rw [hmod, if_pos (by omega), Nat.sub_zero, hb]
        · rename_i hd1
          rw [hmod, if_neg (by omega), Nat.sub_sub]

/-! ## The history as a sequence -/

theorem clearWindow_holds (w : Window) (n : Nat) : (clearWindow w n).Holds [] where
  cursor := by simp
  fill := by simp
  bytes := fun d h1 h2 => by simp at h2; omega

/-- R175 (a), (b): a push appends to the sequence the window holds. -/
theorem push_holds (w : Window) (p : List Byte) (b : Byte) (hm : Memory.wf w.buf) (h : w.Holds p) :
    (push w b).Holds (p ++ [b]) where
  cursor := by
    simp only [push_wr, push_size, h.cursor, List.length_append, List.length_singleton, Nat.mod_add_mod]
  fill := by
    have := h.fill
    simp only [push_fill, push_size, List.length_append, List.length_singleton]; omega
  bytes := fun d h1 h2 => by
    have hw : w.wr < w.size := by rw [h.cursor]; exact Nat.mod_lt _ w.size_pos
    have hf := h.fill
    have h3 : d ≤ w.fill + 1 ∧ d ≤ w.size := by simpa using h2
    rw [hist_push _ _ _ hm hw h1 h3.2]
    split
    · rename_i hd; subst hd; simp
    · rw [h.bytes (d - 1) (by omega) (by omega), List.getElem?_append_left (by simp; omega)]
      congr 1
      simp only [List.length_append, List.length_singleton]; omega

theorem pushAll_holds (bs : List Byte) (w : Window) (p : List Byte) (hi : w.Inv) (h : w.Holds p) :
    (pushAll w bs).Holds (p ++ bs) := by
  induction bs generalizing w p with
  | nil => simpa [pushAll] using h
  | cons b t ih =>
    have := ih (push w b) (p ++ [b]) (push_inv w b hi) (push_holds w p b hi.canonical h)
    simpa [pushAll] using this

end Sys2Proof.Machine
end

