-- ==== Sys2Proof/Laws/Ops.lean ====
section
/-! SUPPORT. Inversion: what an operation did if it answered a next state, and one spec lemma for each shared
operation. -/

namespace Sys2Proof.Machine

/-! ## The outcome type -/

theorem Step.map_ok {α β : Type} {f : α → β} {x : Step α} {b : β} :
    Except.map f x = .ok b ↔ ∃ a, x = .ok a ∧ f a = b := by
  cases x <;> simp [Except.map]

theorem Step.bind_ok {α β : Type} {x : Step α} {f : α → Step β} {b : β} :
    (x >>= f) = .ok b ↔ ∃ a, x = .ok a ∧ f a = .ok b := by
  cases x <;> simp [bind, Except.bind]

theorem Step.map_error {α β : Type} {f : α → β} {x : Step α} {e : Stop} :
    Except.map f x = .error e ↔ x = .error e := by
  cases x <;> simp [Except.map]

theorem Step.bind_error {α β : Type} {x : Step α} {f : α → Step β} {e : Stop} :
    (x >>= f) = .error e ↔ x = .error e ∨ ∃ a, x = .ok a ∧ f a = .error e := by
  cases x <;> simp [bind, Except.bind]

@[simp] theorem Step.pure_ok {α : Type} (a : α) : (pure a : Step α) = .ok a := rfl
@[simp] theorem Step.ok_bind {α β : Type} (a : α) (f : α → Step β) : ((.ok a : Step α) >>= f) = f a := rfl
@[simp] theorem Step.error_bind {α β : Type} (e : Stop) (f : α → Step β) :
    ((.error e : Step α) >>= f) = .error e := rfl
@[simp] theorem Step.map_ok_eq {α β : Type} (f : α → β) (a : α) : Except.map f (.ok a : Step α) = .ok (f a) := rfl
@[simp] theorem Step.map_error_eq {α β : Type} (f : α → β) (e : Stop) :
    Except.map f (.error e : Step α) = .error e := rfl
@[simp] theorem refuse_bind {α β : Type} (r : Refusal) (f : α → Step β) : (refuse r >>= f) = refuse r := rfl
@[simp] theorem map_refuse {α β : Type} (f : α → β) (r : Refusal) : Except.map f (refuse r : Step α) = refuse r := rfl
@[simp] theorem refuse_ne_ok {α : Type} (r : Refusal) (a : α) : (refuse r : Step α) ≠ .ok a := by simp [refuse]
@[simp] theorem refuse_ne_fault {α : Type} (r : Refusal) (f : Fault) : (refuse r : Step α) ≠ .error (.fault f) := by
  simp [refuse]

/-- An operation of the compressor that answers a next state changed `cmp` and the report, nothing else. -/
theorem onCmp_next {f : Cmp → Step (Cmp × Report)} {s t : State} :
    onCmp f s = .next t ↔ ∃ c r, f s.cmp = .ok (c, r) ∧ t = { s with cmp := c, report := r } := by
  unfold onCmp
  cases h : f s.cmp with
  | ok x => obtain ⟨a, b⟩ := x; simp only [Host.Outcome.next.injEq, Except.ok.injEq, Prod.mk.injEq, eq_comm]; simp
  | error e => cases e <;> simp [stopped]

/-- An operation of the decompressor that answers a next state changed `dmp` and the report, nothing else. -/
theorem onDmp_next {f : Dmp → Step (Dmp × Report)} {s t : State} :
    onDmp f s = .next t ↔ ∃ d r, f s.dmp = .ok (d, r) ∧ t = { s with dmp := d, report := r } := by
  unfold onDmp
  cases h : f s.dmp with
  | ok x => obtain ⟨a, b⟩ := x; simp only [Host.Outcome.next.injEq, Except.ok.injEq, Prod.mk.injEq, eq_comm]; simp
  | error e => cases e <;> simp [stopped]

theorem onCmp_ok {f : Cmp → Step (Cmp × Report)} {s : State} {c : Cmp} {r : Report} (h : f s.cmp = .ok (c, r)) :
    onCmp f s = .next { s with cmp := c, report := r } := by simp [onCmp, h]

theorem onDmp_ok {f : Dmp → Step (Dmp × Report)} {s : State} {d : Dmp} {r : Report} (h : f s.dmp = .ok (d, r)) :
    onDmp f s = .next { s with dmp := d, report := r } := by simp [onDmp, h]

theorem onCmp_refused {f : Cmp → Step (Cmp × Report)} {s : State} {r : Refusal} (h : f s.cmp = refuse r) :
    onCmp f s = .refused r := by simp [onCmp, h, refuse, stopped]

theorem onDmp_refused {f : Dmp → Step (Dmp × Report)} {s : State} {r : Refusal} (h : f s.dmp = refuse r) :
    onDmp f s = .refused r := by simp [onDmp, h, refuse, stopped]

theorem onCmp_fault {f : Cmp → Step (Cmp × Report)} {s : State} {e : Fault} :
    onCmp f s = .fault e ↔ f s.cmp = .error (.fault e) := by
  unfold onCmp
  cases h : f s.cmp with
  | ok x => simp
  | error e => cases e <;> simp [stopped]

theorem onDmp_fault {f : Dmp → Step (Dmp × Report)} {s : State} {e : Fault} :
    onDmp f s = .fault e ↔ f s.dmp = .error (.fault e) := by
  unfold onDmp
  cases h : f s.dmp with
  | ok x => simp
  | error e => cases e <;> simp [stopped]

/-! ## BSE: what a successful operation did -/

/-- R132: a write that succeeds wrote a legal width before the flush. -/
theorem writeBits_inv {v n : Nat} {b b' : Bse} (h : writeBits v n b = .ok b') :
    b.flushed = false ∧ 1 ≤ n ∧ n ≤ 16 ∧ b' = (bitsOf n v).foldl pushBit b := by
  unfold writeBits at h
  split at h
  · simp at h
  · rename_i hf
    split at h
    · simp at h
    · rename_i hn
      simp only [Config.maxWriteBits] at hn
      injection h with h
      exact ⟨by simpa using hf, by omega, by omega, h.symm⟩

/-- R132: a successful write keeps the BSE's invariant and only appends. -/
theorem writeBits_wrote {v n : Nat} {b b' : Bse} (h : writeBits v n b = .ok b') (hi : b.Inv) :
    Wrote b b' (bitsOf n v) := by
  obtain ⟨hf, -, -, rfl⟩ := writeBits_inv h
  obtain ⟨h1, h2, h3, h4⟩ := foldl_pushBit (bitsOf n v) b hi hf
  exact ⟨h1, h2, h3, h4⟩

theorem foldl_pushBit_obuf (bs : List Bool) (b : Bse) : b.obuf <+: (bs.foldl pushBit b).obuf := by
  induction bs generalizing b with
  | nil => exact List.prefix_refl _
  | cons v t ih => exact (pushBit_obuf b v).trans (ih _)

theorem writeBits_obuf {v n : Nat} {b b' : Bse} (h : writeBits v n b = .ok b') : b.obuf <+: b'.obuf := by
  obtain ⟨-, -, -, rfl⟩ := writeBits_inv h
  exact foldl_pushBit_obuf _ _

/-- R192: a literal is two or three writes. -/
theorem emitLiteral_cases {l : Nat} {x : Byte} {b b' : Bse} (h : emitLiteral l x b = .ok b') :
    ∃ b1, writeBits 1 1 b = .ok b1 ∧ ((∃ n, writeBits x.toNat n b1 = .ok b') ∨
      ∃ b2, writeBits (2 ^ l - 1) l b1 = .ok b2 ∧ writeBits x.toNat 8 b2 = .ok b') := by
  obtain ⟨b1, h1, h⟩ := Step.bind_ok.mp h
  refine ⟨b1, h1, ?_⟩
  split at h
  · exact .inl ⟨_, h⟩
  · split at h
    · exact .inl ⟨_, h⟩
    · exact .inr (Step.bind_ok.mp h)

/-- R193: a match is three writes. -/
theorem emitMatch_cases {w d n : Nat} {b b' : Bse} (h : emitMatch w d n b = .ok b') :
    (1 ≤ d ∧ d ≤ 2 ^ w ∧ 2 ≤ n ∧ n ≤ 17) ∧ ∃ b1 b2, writeBits 0 1 b = .ok b1 ∧ writeBits (d - 1) w b1 = .ok b2 ∧
      writeBits (n - 2) 4 b2 = .ok b' := by
  unfold emitMatch at h
  split at h
  · simp at h
  · rename_i hc
    simp only [Config.minMatch, Config.maxMatch] at hc
    obtain ⟨b1, h1, h⟩ := Step.bind_ok.mp h
    obtain ⟨b2, h2, h⟩ := Step.bind_ok.mp h
    exact ⟨by omega, b1, b2, h1, h2, h⟩

/-- What every emitter keeps: the BSE's invariant, and every byte already emitted. -/
structure Kept (b b' : Bse) : Prop where
  inv : b.Inv → b'.Inv
  grows : b.obuf <+: b'.obuf

theorem Kept.trans {a b c : Bse} (h : Kept a b) (k : Kept b c) : Kept a c :=
  ⟨fun i => k.inv (h.inv i), h.grows.trans k.grows⟩

theorem writeBits_kept {v n : Nat} {b b' : Bse} (h : writeBits v n b = .ok b') : Kept b b' :=
  ⟨fun i => (writeBits_wrote h i).inv, writeBits_obuf h⟩

theorem emitLiteral_kept {l : Nat} {x : Byte} {b b' : Bse} (h : emitLiteral l x b = .ok b') : Kept b b' := by
  obtain ⟨b1, h1, ⟨n, h2⟩ | ⟨b2, h2, h3⟩⟩ := emitLiteral_cases h
  · exact (writeBits_kept h1).trans (writeBits_kept h2)
  · exact ((writeBits_kept h1).trans (writeBits_kept h2)).trans (writeBits_kept h3)

theorem emitMatch_kept {w d n : Nat} {b b' : Bse} (h : emitMatch w d n b = .ok b') : Kept b b' := by
  obtain ⟨-, b1, b2, h1, h2, h3⟩ := emitMatch_cases h
  exact ((writeBits_kept h1).trans (writeBits_kept h2)).trans (writeBits_kept h3)

theorem emitHeader_kept {w l : Nat} {b b' : Bse} (h : emitHeader w l b = .ok b') : Kept b b' := writeBits_kept h

/-- R133: a flush that succeeds. -/
theorem bseFlush_kept {b b' : Bse} (h : bseFlush b = .ok b') : Kept b b' ∧ b'.flushed = true := by
  unfold bseFlush at h
  split at h
  · simp at h
  · injection h with h
    subst h
    refine ⟨⟨fun _ => ⟨by simp, by simp, fun _ => rfl⟩, ?_⟩, rfl⟩
    simp only
    split
    · exact List.prefix_append _ _
    · exact List.prefix_refl _

/-- R131: a cleared BSE meets its invariant. -/
theorem bseClear_inv (b : Bse) : (bseClear b).Inv := ⟨by simp [bseClear], by simp [bseClear], by simp [bseClear]⟩

/-! ## SWD -/

theorem swdClear_ok {w w' : Window} {n : Nat} (h : swdClear w n = .ok w') :
    Config.legalW n ∧ w' = clearWindow w n := by
  unfold swdClear at h
  split at h
  · rename_i hn; injection h with h; exact ⟨hn, h.symm⟩
  · simp at h

theorem swdClear_legal (w : Window) {n : Nat} (h : Config.legalW n) : swdClear w n = .ok (clearWindow w n) := if_pos h

theorem swdClear_inv {w w' : Window} {n : Nat} (h : swdClear w n = .ok w') (hi : w.Inv) : w'.Inv := by
  obtain ⟨hn, rfl⟩ := swdClear_ok h
  exact clearWindow_inv w n hi hn

/-- R174: a copy that succeeds pushed the bytes it moved. -/
theorem copyLoop_inv {d n : Nat} {w w' : Window} {bs : List Byte} (h : copyLoop d n w = .ok (w', bs)) :
    w' = pushAll w bs ∧ bs.length = n := by
  induction n generalizing w bs with
  | zero => simp only [copyLoop, Except.ok.injEq, Prod.mk.injEq] at h; obtain ⟨rfl, rfl⟩ := h; exact ⟨rfl, rfl⟩
  | succ n ih =>
    obtain ⟨b, -, h⟩ := Step.bind_ok.mp h
    obtain ⟨⟨w1, bs1⟩, h1, h⟩ := Step.bind_ok.mp h
    simp only [Step.pure_ok, Except.ok.injEq, Prod.mk.injEq] at h
    obtain ⟨rfl, rfl⟩ := h
    obtain ⟨rfl, hl⟩ := ih h1
    exact ⟨rfl, by simp [hl]⟩

theorem swdCopy_some {d n : Nat} {w w' : Window} {bs : List Byte} (h : swdCopy w d n = .ok (some (w', bs))) :
    1 ≤ d ∧ d ≤ w.fill ∧ w' = pushAll w bs ∧ bs.length = n := by
  unfold swdCopy at h
  split at h
  · simp at h
  · split at h
    · simp at h
    · rename_i h1 h2
      obtain ⟨a, ha, he⟩ := Step.map_ok.mp h
      simp only [Option.some.injEq] at he
      subst he
      obtain ⟨rfl, hl⟩ := copyLoop_inv ha
      exact ⟨by omega, by omega, rfl, hl⟩

theorem swdCopy_none {d n : Nat} {w : Window} (h : swdCopy w d n = .ok none) : w.fill < d ∨ w.size < d := by
  unfold swdCopy at h
  split at h
  · simp at h
  · split at h
    · rename_i hc; exact hc
    · obtain ⟨a, -, he⟩ := Step.map_ok.mp h
      simp at he

/-- R174, R175 (c): under the invariant a copy of a distance within the history succeeds. -/
theorem swdCopy_ok {d n : Nat} {w : Window} (h : w.Inv) (h1 : 1 ≤ d) (h2 : d ≤ w.fill) :
    ∃ bs, swdCopy w d n = .ok (some (pushAll w bs, bs)) ∧ bs.length = n ∧
      ∀ j, j < n → bs[j]? = hist w (d - j % d) := by
  obtain ⟨bs, hc, hl, hj⟩ := copyLoop_ok d n w h h1 h2
  have hf := h.filled
  refine ⟨bs, ?_, hl, hj⟩
  rw [swdCopy, if_neg (by omega), if_neg (by omega), hc]; rfl

/-- R174: a distance beyond the history raises before any byte moves. -/
theorem swdCopy_raises {d n : Nat} {w : Window} (h1 : 1 ≤ d) (h2 : w.fill < d ∨ w.size < d) :
    swdCopy w d n = .ok none := by
  rw [swdCopy, if_neg (by omega), if_pos (by omega)]

/-- No copy faults under the invariant. -/
theorem swdCopy_no_fault {d n : Nat} {w : Window} (h : w.Inv) (f : Fault) :
    swdCopy w d n ≠ .error (.fault f) := by
  by_cases h0 : d = 0
  · simp [swdCopy, h0]
  · by_cases h2 : w.fill < d ∨ w.size < d
    · simp [swdCopy_raises (by omega) h2]
    · obtain ⟨bs, hc, -, -⟩ := swdCopy_ok (n := n) h (by omega : 1 ≤ d) (by omega)
      simp [hc]

/-! ## The search (R231 to R233) -/

/-- How many of the bytes agree, in terms of single comparisons. -/
theorem agree_ok (w : Window) (x : List Byte) (d : Nat) (h : w.Inv) (hd : d ≤ w.fill) :
    ∃ k, agree w x d = .ok k ∧ k ≤ min x.length d ∧ (∀ j, j < k → x[j]? = hist w (d - j)) ∧
      (k < min x.length d → x[k]? ≠ hist w (d - k)) := by
  induction x generalizing d with
  | nil => exact ⟨0, by simp [agree], by simp, by simp, by simp⟩
  | cons b t ih =>
    cases d with
    | zero => exact ⟨0, by simp [agree], by simp, by simp, by simp⟩
    | succ d =>
      obtain ⟨y, hy, hr⟩ := readHist_ok .cwin w (d + 1) h (by omega) hd
      by_cases hb : y = b
      · obtain ⟨k, h1, h2, h3, h4⟩ := ih d (by omega)
        refine ⟨k + 1, by simp [agree, hr, hb, h1], by simp only [List.length_cons]; omega, ?_, ?_⟩
        · intro j hj
          cases j with
          | zero => simp [hy, hb]
          | succ j => rw [List.getElem?_cons_succ, h3 j (by omega)]; congr 1; omega
        · intro hk
          simp only [List.length_cons] at hk
          rw [List.getElem?_cons_succ, show d + 1 - (k + 1) = d - k by omega]
          exact h4 (by omega)
      · exact ⟨0, by simp [agree, hr, hb], by simp, by simp, by intro _; simp [hy, Ne.symm hb]⟩

/-- The result of the search up to distance `n`. -/
structure Best (w : Window) (x : List Byte) (n : Nat) (r : Nat × Nat) : Prop where
  found : (r.1 = 0 ∧ r.2 = 0) ∨
    (1 ≤ r.1 ∧ 1 ≤ r.2 ∧ r.2 ≤ n ∧ r.1 ≤ min x.length r.2 ∧ ∀ j, j < r.1 → x[j]? = hist w (r.2 - j))
  best : ∀ d k, 1 ≤ d → d ≤ n → k ≤ min x.length d → (∀ j, j < k → x[j]? = hist w (d - j)) →
    k ≤ r.1 ∧ (k = r.1 → 1 ≤ k → r.2 ≤ d)

theorem searchTo_ok (w : Window) (x : List Byte) (n : Nat) (h : w.Inv) (hn : n ≤ w.fill) :
    ∃ r, searchTo w x n = .ok r ∧ Best w x n r := by
  induction n with
  | zero => exact ⟨(0, 0), rfl, .inl ⟨rfl, rfl⟩, fun d k h1 h2 => by omega⟩
  | succ n ih =>
    obtain ⟨r, hr, hb⟩ := ih (by omega)
    obtain ⟨k, hk, h1, h2, h3⟩ := agree_ok w x (n + 1) h hn
    have hmax : ∀ k', k' ≤ min x.length (n + 1) → (∀ j, j < k' → x[j]? = hist w (n + 1 - j)) → k' ≤ k := by
      intro k' hk' hj
      by_contra hlt
      exact h3 (by omega) (hj k (by omega))
    refine ⟨if k > r.1 then (k, n + 1) else r, by simp [searchTo, hr, hk], ?_, ?_⟩
    · split
      · exact .inr ⟨by simp only; omega, by simp only; omega, le_rfl, h1, h2⟩
      · rcases hb.found with hz | ⟨a, b, c, d, e⟩
        · exact .inl hz
        · exact .inr ⟨a, b, by omega, d, e⟩
    · intro d k' h1' h2' hk' hj
      by_cases hd : d = n + 1
      · subst hd
        have := hmax k' hk' hj
        split
        · exact ⟨this, fun _ _ => le_rfl⟩
        · refine ⟨by omega, fun he hk1 => ?_⟩
          rcases hb.found with hz | ⟨a, b, c, _, _⟩ <;> omega
      · obtain ⟨g1, g2⟩ := hb.best d k' h1' (by omega) hk' hj
        split
        · exact ⟨by simp only; omega, fun he => by simp only at he; omega⟩
        · exact ⟨g1, g2⟩

/-- R232, R233 under the invariant. -/
theorem search_ok (c : Cmp) (h : c.cwin.Inv) :
    ∃ r, search c = .ok r ∧ Best c.cwin (lookahead c) c.cwin.fill r :=
  searchTo_ok _ _ _ h le_rfl

theorem lookahead_length (c : Cmp) (hl : c.la.length = 17) :
    (lookahead c).length = min c.laN 17 := by
  simp only [lookahead, List.length_take, hl, Config.maxMatch]; omega

theorem lookahead_getElem? (c : Cmp) (j : Nat) (h : j < min c.laN 17) : (lookahead c)[j]? = c.la[j]? := by
  rw [lookahead, List.getElem?_take_of_lt (by simpa [Config.maxMatch] using h)]

/-- R232: a best length of 2 or more is no longer than its distance, the history, the lookahead and 17. -/
theorem Best.bounds {c : Cmp} {r : Nat × Nat} (hl : c.la.length = 17)
    (h : Best c.cwin (lookahead c) c.cwin.fill r) :
    r.1 ≤ c.laN ∧ r.1 ≤ 17 ∧ (1 ≤ r.1 → 1 ≤ r.2 ∧ r.2 ≤ c.cwin.fill ∧ r.1 ≤ r.2) := by
  have := lookahead_length c hl
  rcases h.found with ⟨a, b⟩ | ⟨a, b, c', d, e⟩ <;> omega

/-! ## The compressor's step (R235) -/

/-- What a successful encode step did: the search's answer, the emission, the bytes moved. -/
structure Encoded1 (c c' : Cmp) (len dist : Nat) : Prop where
  opened : c.cstate = .opened
  some : 1 ≤ c.laN
  found : search c = .ok (len, dist)
  emits : if len < 2 then emitLiteral c.ccfgL.toNat (c.la.getD 0 0) c.bse = .ok c'.bse
    else emitMatch c.ccfgW.toNat dist len c.bse = .ok c'.bse
  after : c' = dropEncoded (if len < 2 then 1 else len) { c with
    bse := c'.bse, cwin := if len < 2 then push c.cwin (c.la.getD 0 0) else pushAll c.cwin (c.la.take len) }

theorem encodeStep_inv {c c' : Cmp} (h : encodeStep c = .ok c') : ∃ len dist, Encoded1 c c' len dist := by
  unfold encodeStep at h
  split at h
  · simp at h
  · rename_i hc
    obtain ⟨⟨len, dist⟩, hs, h⟩ := Step.bind_ok.mp h
    simp only at h
    have h1 : c.cstate = .opened := by_contra fun hn => hc (.inl hn)
    have h2 : 1 ≤ c.laN := by omega
    by_cases hl : len < 2
    · rw [if_pos (show len < Config.minMatch from hl)] at h
      obtain ⟨b, hb, h⟩ := Step.bind_ok.mp h
      simp only [Step.pure_ok, Except.ok.injEq] at h
      subst h
      exact ⟨len, dist, h1, h2, hs, by simpa [hl, dropEncoded] using hb, by simp [hl, dropEncoded]⟩
    · rw [if_neg (show ¬ len < Config.minMatch from hl)] at h
      obtain ⟨b, hb, h⟩ := Step.bind_ok.mp h
      simp only [Step.pure_ok, Except.ok.injEq] at h
      subst h
      exact ⟨len, dist, h1, h2, hs, by simpa [hl, dropEncoded] using hb, by simp [hl, dropEncoded]⟩

end Sys2Proof.Machine
end

