-- ==== Sys2Proof/Laws/State.lean ====
section
/-! SUPPORT. One lemma per field per named update of the state (Sys2Proof/Machine/Ops.lean), each true by unfolding, so
that no later proof unfolds a record update. Those of the window's updates stand in Sys2Proof/Laws/Window.lean. -/

namespace Sys2Proof.Machine

/-! ## Error entry of the compressor (R300) -/

@[simp] theorem failCmp_bse (e : Condition) (c : Cmp) : (failCmp e c).1.bse = c.bse := rfl
@[simp] theorem failCmp_cwin (e : Condition) (c : Cmp) : (failCmp e c).1.cwin = c.cwin := rfl
@[simp] theorem failCmp_ccfgW (e : Condition) (c : Cmp) : (failCmp e c).1.ccfgW = c.ccfgW := rfl
@[simp] theorem failCmp_ccfgL (e : Condition) (c : Cmp) : (failCmp e c).1.ccfgL = c.ccfgL := rfl
@[simp] theorem failCmp_cstate (e : Condition) (c : Cmp) : (failCmp e c).1.cstate = .error := rfl
@[simp] theorem failCmp_cerr (e : Condition) (c : Cmp) : (failCmp e c).1.cerr = some e := rfl
@[simp] theorem failCmp_la (e : Condition) (c : Cmp) : (failCmp e c).1.la = c.la := rfl
@[simp] theorem failCmp_laN (e : Condition) (c : Cmp) : (failCmp e c).1.laN = c.laN := rfl
@[simp] theorem failCmp_report (e : Condition) (c : Cmp) : (failCmp e c).2 = .error e := rfl

/-! ## Error entry of the decompressor (R300) -/

@[simp] theorem failDmp_bsd (e : Condition) (d : Dmp) : (failDmp e d).1.bsd = d.bsd := rfl
@[simp] theorem failDmp_dwin (e : Condition) (d : Dmp) : (failDmp e d).1.dwin = d.dwin := rfl
@[simp] theorem failDmp_dcfgW (e : Condition) (d : Dmp) : (failDmp e d).1.dcfgW = d.dcfgW := rfl
@[simp] theorem failDmp_dcfgL (e : Condition) (d : Dmp) : (failDmp e d).1.dcfgL = d.dcfgL := rfl
@[simp] theorem failDmp_tokKind (e : Condition) (d : Dmp) : (failDmp e d).1.tokKind = d.tokKind := rfl
@[simp] theorem failDmp_tokByte (e : Condition) (d : Dmp) : (failDmp e d).1.tokByte = d.tokByte := rfl
@[simp] theorem failDmp_tokDist (e : Condition) (d : Dmp) : (failDmp e d).1.tokDist = d.tokDist := rfl
@[simp] theorem failDmp_tokLen (e : Condition) (d : Dmp) : (failDmp e d).1.tokLen = d.tokLen := rfl
@[simp] theorem failDmp_dstate (e : Condition) (d : Dmp) : (failDmp e d).1.dstate = .error := rfl
@[simp] theorem failDmp_derr (e : Condition) (d : Dmp) : (failDmp e d).1.derr = some e := rfl
@[simp] theorem failDmp_rout (e : Condition) (d : Dmp) : (failDmp e d).1.rout = d.rout := rfl
@[simp] theorem failDmp_report (e : Condition) (d : Dmp) : (failDmp e d).2 = .error e := rfl

/-! ## `C.RESET` (R330) -/

@[simp] theorem resetCmp_bse (c : Cmp) :
    (resetCmp c).bse = { acc := 0, nacc := 0, flushed := false, obuf := [] } := rfl
@[simp] theorem resetCmp_cwin (c : Cmp) : (resetCmp c).cwin = { c.cwin with wr := 0, fill := 0 } := rfl
@[simp] theorem resetCmp_ccfgW (c : Cmp) : (resetCmp c).ccfgW = 0 := rfl
@[simp] theorem resetCmp_ccfgL (c : Cmp) : (resetCmp c).ccfgL = 0 := rfl
@[simp] theorem resetCmp_cstate (c : Cmp) : (resetCmp c).cstate = .idle := rfl
@[simp] theorem resetCmp_cerr (c : Cmp) : (resetCmp c).cerr = none := rfl
@[simp] theorem resetCmp_la (c : Cmp) : (resetCmp c).la = c.la := rfl
@[simp] theorem resetCmp_laN (c : Cmp) : (resetCmp c).laN = 0 := rfl

/-! ## `D.RESET` (R332) -/

@[simp] theorem resetDmp_bsd (d : Dmp) : (resetDmp d).bsd = { ibuf := [], rpos := 0, eof := false } := rfl
@[simp] theorem resetDmp_dwin (d : Dmp) : (resetDmp d).dwin = { d.dwin with wr := 0, fill := 0 } := rfl
@[simp] theorem resetDmp_dcfgW (d : Dmp) : (resetDmp d).dcfgW = 0 := rfl
@[simp] theorem resetDmp_dcfgL (d : Dmp) : (resetDmp d).dcfgL = 0 := rfl
@[simp] theorem resetDmp_tokKind (d : Dmp) : (resetDmp d).tokKind = d.tokKind := rfl
@[simp] theorem resetDmp_tokByte (d : Dmp) : (resetDmp d).tokByte = d.tokByte := rfl
@[simp] theorem resetDmp_tokDist (d : Dmp) : (resetDmp d).tokDist = d.tokDist := rfl
@[simp] theorem resetDmp_tokLen (d : Dmp) : (resetDmp d).tokLen = d.tokLen := rfl
@[simp] theorem resetDmp_dstate (d : Dmp) : (resetDmp d).dstate = .readingHeader := rfl
@[simp] theorem resetDmp_derr (d : Dmp) : (resetDmp d).derr = none := rfl
@[simp] theorem resetDmp_rout (d : Dmp) : (resetDmp d).rout = [] := rfl

/-! ## A byte joins the lookahead (R237) -/

@[simp] theorem acceptByte_bse (x : Byte) (c : Cmp) : (acceptByte x c).bse = c.bse := rfl
@[simp] theorem acceptByte_cwin (x : Byte) (c : Cmp) : (acceptByte x c).cwin = c.cwin := rfl
@[simp] theorem acceptByte_ccfgW (x : Byte) (c : Cmp) : (acceptByte x c).ccfgW = c.ccfgW := rfl
@[simp] theorem acceptByte_ccfgL (x : Byte) (c : Cmp) : (acceptByte x c).ccfgL = c.ccfgL := rfl
@[simp] theorem acceptByte_cstate (x : Byte) (c : Cmp) : (acceptByte x c).cstate = c.cstate := rfl
@[simp] theorem acceptByte_cerr (x : Byte) (c : Cmp) : (acceptByte x c).cerr = c.cerr := rfl
@[simp] theorem acceptByte_la (x : Byte) (c : Cmp) : (acceptByte x c).la = c.la.set c.laN x := rfl
@[simp] theorem acceptByte_laN (x : Byte) (c : Cmp) : (acceptByte x c).laN = c.laN + 1 := rfl

/-! ## Encoded bytes leave the lookahead (R235) -/

@[simp] theorem dropEncoded_bse (m : Nat) (c : Cmp) : (dropEncoded m c).bse = c.bse := rfl
@[simp] theorem dropEncoded_cwin (m : Nat) (c : Cmp) : (dropEncoded m c).cwin = c.cwin := rfl
@[simp] theorem dropEncoded_ccfgW (m : Nat) (c : Cmp) : (dropEncoded m c).ccfgW = c.ccfgW := rfl
@[simp] theorem dropEncoded_ccfgL (m : Nat) (c : Cmp) : (dropEncoded m c).ccfgL = c.ccfgL := rfl
@[simp] theorem dropEncoded_cstate (m : Nat) (c : Cmp) : (dropEncoded m c).cstate = c.cstate := rfl
@[simp] theorem dropEncoded_cerr (m : Nat) (c : Cmp) : (dropEncoded m c).cerr = c.cerr := rfl
@[simp] theorem dropEncoded_la (m : Nat) (c : Cmp) :
    (dropEncoded m c).la = (c.la.drop m).take (c.laN - m) ++ c.la.drop (c.laN - m) := rfl
@[simp] theorem dropEncoded_laN (m : Nat) (c : Cmp) : (dropEncoded m c).laN = c.laN - m := rfl

/-! ## The latched literal is appended (R265) -/

@[simp] theorem appendLiteral_bsd (d : Dmp) : (appendLiteral d).bsd = d.bsd := rfl
@[simp] theorem appendLiteral_dwin (d : Dmp) : (appendLiteral d).dwin = push d.dwin d.tokByte := rfl
@[simp] theorem appendLiteral_dcfgW (d : Dmp) : (appendLiteral d).dcfgW = d.dcfgW := rfl
@[simp] theorem appendLiteral_dcfgL (d : Dmp) : (appendLiteral d).dcfgL = d.dcfgL := rfl
@[simp] theorem appendLiteral_tokKind (d : Dmp) : (appendLiteral d).tokKind = d.tokKind := rfl
@[simp] theorem appendLiteral_tokByte (d : Dmp) : (appendLiteral d).tokByte = d.tokByte := rfl
@[simp] theorem appendLiteral_tokDist (d : Dmp) : (appendLiteral d).tokDist = d.tokDist := rfl
@[simp] theorem appendLiteral_tokLen (d : Dmp) : (appendLiteral d).tokLen = d.tokLen := rfl
@[simp] theorem appendLiteral_dstate (d : Dmp) : (appendLiteral d).dstate = .readingToken := rfl
@[simp] theorem appendLiteral_derr (d : Dmp) : (appendLiteral d).derr = d.derr := rfl
@[simp] theorem appendLiteral_rout (d : Dmp) : (appendLiteral d).rout = d.rout ++ [d.tokByte] := rfl

/-! ## A window of the state -/

@[simp] theorem setWin_cwin_win (s : State) (w : Window) : (s.setWin .cwin w).win .cwin = w := rfl
@[simp] theorem setWin_cwin_dwin (s : State) (w : Window) : (s.setWin .cwin w).win .dwin = s.win .dwin := rfl
@[simp] theorem setWin_cwin_dmp (s : State) (w : Window) : (s.setWin .cwin w).dmp = s.dmp := rfl
@[simp] theorem setWin_cwin_inbox (s : State) (w : Window) : (s.setWin .cwin w).inbox = s.inbox := rfl
@[simp] theorem setWin_cwin_report (s : State) (w : Window) : (s.setWin .cwin w).report = s.report := rfl
@[simp] theorem setWin_dwin_win (s : State) (w : Window) : (s.setWin .dwin w).win .dwin = w := rfl
@[simp] theorem setWin_dwin_cwin (s : State) (w : Window) : (s.setWin .dwin w).win .cwin = s.win .cwin := rfl
@[simp] theorem setWin_dwin_cmp (s : State) (w : Window) : (s.setWin .dwin w).cmp = s.cmp := rfl
@[simp] theorem setWin_dwin_inbox (s : State) (w : Window) : (s.setWin .dwin w).inbox = s.inbox := rfl
@[simp] theorem setWin_dwin_report (s : State) (w : Window) : (s.setWin .dwin w).report = s.report := rfl

end Sys2Proof.Machine
end

