-- ==== Sys2Proof/Laws/Invariant.lean ====
section
/-! SUPPORT. Every shared operation keeps the invariant of its unit (10_state.md R32) and, under it, none faults. -/

namespace Sys2Proof.Machine

/-! ## Compressor -/

/-- The invariant survives a change of the BSE and the window alone. -/
theorem Cmp.Inv.withBlocks {c : Cmp} (h : c.Inv) {b : Bse} {w : Window} (hb : b.Inv) (hw : w.Inv) :
    Cmp.Inv { c with bse := b, cwin := w } :=
  ⟨hb, hw, h.cells, h.ahead, h.opened, h.error⟩

theorem Cmp.Inv.withBse {c : Cmp} (h : c.Inv) {b : Bse} (hb : b.Inv) : Cmp.Inv { c with bse := b } :=
  h.withBlocks hb h.cwin

theorem Cmp.Inv.withWin {c : Cmp} (h : c.Inv) {w : Window} (hw : w.Inv) : Cmp.Inv { c with cwin := w } :=
  h.withBlocks h.bse hw

/-- What an encode step keeps, also from the full lookahead of R237: all but the fill of the lookahead. -/
structure Cmp.Busy (c : Cmp) : Prop where
  bse : c.bse.Inv
  cwin : c.cwin.Inv
  cells : c.la.length = Config.laDepth
  full : c.laN ≤ Config.laDepth
  opened : c.cstate = .opened → Config.legalW c.ccfgW.toNat ∧ Config.legalL c.ccfgL.toNat
  error : c.cerr = if c.cstate = .error then some .invalidConfiguration else none

theorem Cmp.Inv.busy {c : Cmp} (h : c.Inv) : c.Busy :=
  ⟨h.bse, h.cwin, h.cells, Nat.le_of_lt h.ahead, h.opened, h.error⟩

theorem Cmp.Inv.accept {c : Cmp} (h : c.Inv) (x : Byte) : (acceptByte x c).Busy :=
  ⟨h.bse, h.cwin, by simp [acceptByte, h.cells], h.ahead, h.opened, h.error⟩

theorem dropEncoded_length (m : Nat) (c : Cmp) (hl : c.la.length = Config.laDepth) (hn : c.laN ≤ Config.laDepth)
    (hm : m ≤ c.laN) : (dropEncoded m c).la.length = Config.laDepth := by
  simp only [dropEncoded, List.length_append, List.length_take, List.length_drop, hl]; omega


/-- R235: an encode step removes at least one byte from the lookahead, and keeps the rest. -/
theorem encodeStep_keeps {c c' : Cmp} (h : encodeStep c = .ok c') (hi : c.Busy) :
    c'.Inv ∧ c'.laN < c.laN ∧ c.bse.obuf <+: c'.bse.obuf ∧ c'.cstate = c.cstate ∧ c'.ccfgW = c.ccfgW ∧
      c'.ccfgL = c.ccfgL ∧ c'.cerr = c.cerr ∧ c'.cwin.bits = c.cwin.bits := by
  obtain ⟨len, dist, e⟩ := encodeStep_inv h
  obtain ⟨r, hr, hb⟩ := search_ok c hi.cwin
  have hlen : len ≤ c.laN := by
    have h2 := (hb.bounds hi.cells).1
    rw [e.found, Except.ok.injEq] at hr
    rw [← hr] at h2; exact h2
  have hs := e.some
  have hd := hi.full
  have hk : Kept c.bse c'.bse := by
    have := e.emits
    split at this
    · exact emitLiteral_kept this
    · exact emitMatch_kept this
  have hm : 1 ≤ (if len < 2 then 1 else len) ∧ (if len < 2 then 1 else len) ≤ c.laN := by split <;> omega
  rw [e.after]
  refine ⟨⟨hk.inv hi.bse, ?_, ?_, ?_, hi.opened, hi.error⟩, ?_, hk.grows, rfl, rfl, rfl, rfl, ?_⟩
  · simp only [dropEncoded_cwin]
    split
    · exact push_inv _ _ hi.cwin
    · exact pushAll_inv _ _ hi.cwin
  · exact dropEncoded_length _ _ hi.cells hi.full hm.2
  · simp only [dropEncoded_laN]; omega
  · simp only [dropEncoded_laN]; omega
  · simp only [dropEncoded_cwin]
    split <;> simp

theorem encodeStep_no_fault {c : Cmp} (hw : c.cwin.Inv) (f : Fault) : encodeStep c ≠ .error (.fault f) := by
  obtain ⟨r, hr, -⟩ := search_ok c hw
  intro h
  unfold encodeStep at h
  split at h
  · simp at h
  · obtain ⟨len, dist⟩ := r
    rw [hr, Step.ok_bind] at h
    simp only at h
    have writeNoFault : ∀ v n b, writeBits v n b ≠ .error (.fault f) := by
      intro v n b hn
      unfold writeBits at hn
      repeat' split at hn
      all_goals simp [refuse] at hn
    split at h
    · rcases Step.bind_error.mp h with h | ⟨b, -, h⟩
      · rcases Step.bind_error.mp h with h | ⟨b, -, h⟩
        · exact writeNoFault _ _ _ h
        · split at h
          · exact writeNoFault _ _ _ h
          · split at h
            · exact writeNoFault _ _ _ h
            · rcases Step.bind_error.mp h with h | ⟨b, -, h⟩ <;> exact writeNoFault _ _ _ h
      · simp at h
    · rcases Step.bind_error.mp h with h | ⟨b, -, h⟩
      · unfold emitMatch at h
        split at h
        · simp at h
        · rcases Step.bind_error.mp h with h | ⟨b, -, h⟩
          · exact writeNoFault _ _ _ h
          · rcases Step.bind_error.mp h with h | ⟨b, -, h⟩ <;> exact writeNoFault _ _ _ h
      · simp at h

/-- R238: draining keeps the invariant; with as many turns as bytes it empties the lookahead. -/
theorem drain_keeps {n : Nat} {c c' : Cmp} (h : drain n c = .ok c') (hi : c.Inv) :
    c'.Inv ∧ c'.cstate = c.cstate ∧ c'.ccfgW = c.ccfgW ∧ c'.ccfgL = c.ccfgL ∧ c'.cerr = c.cerr ∧
      c.bse.obuf <+: c'.bse.obuf ∧ (c.laN ≤ n → c'.laN = 0) := by
  induction n generalizing c with
  | zero =>
    simp only [drain, Except.ok.injEq] at h
    subst h
    exact ⟨hi, rfl, rfl, rfl, rfl, List.prefix_refl _, by omega⟩
  | succ n ih =>
    unfold drain at h
    split at h
    · rename_i h0
      simp only [Except.ok.injEq] at h
      subst h
      exact ⟨hi, rfl, rfl, rfl, rfl, List.prefix_refl _, fun _ => h0⟩
    · obtain ⟨c1, h1, h⟩ := Step.bind_ok.mp h
      obtain ⟨k1, k2, k3, k4, k5, k6, k7, -⟩ := encodeStep_keeps h1 hi.busy
      obtain ⟨j1, j2, j3, j4, j5, j6, j7⟩ := ih h k1
      exact ⟨j1, j2.trans k4, j3.trans k5, j4.trans k6, j5.trans k7, k3.trans j6, fun hl => j7 (by omega)⟩

theorem drain_no_fault {n : Nat} {c : Cmp} (hi : c.Inv) (f : Fault) : drain n c ≠ .error (.fault f) := by
  induction n generalizing c with
  | zero => simp [drain]
  | succ n ih =>
    intro h
    unfold drain at h
    split at h
    · simp at h
    · rcases Step.bind_error.mp h with h | ⟨c1, h1, h⟩
      · exact encodeStep_no_fault hi.cwin f h
      · exact ih (encodeStep_keeps h1 hi.busy).1 h

theorem resetCmp_inv {c : Cmp} (h : c.Inv) : (resetCmp c).Inv :=
  ⟨bseClear_inv c.bse, emptyWindow_inv _ h.cwin, h.cells, by simp [resetCmp, Config.laDepth], by simp [resetCmp], by simp [resetCmp]⟩

/-- R236: what an opening that is accepted did. -/
theorem cOpen_cases {w l : Nat} {c c' : Cmp} {r : Report} (h : cOpen w l c = .ok (c', r)) :
    c.cstate = .idle ∧
      ((¬ (Config.legalW w ∧ Config.legalL l) ∧ r = .error .invalidConfiguration ∧
          c' = { c with cerr := some .invalidConfiguration, cstate := .error }) ∨
        (Config.legalW w ∧ Config.legalL l ∧ r = .done .none ∧ emitHeader w l c.bse = .ok c'.bse ∧
          c' = { c with ccfgW := .ofNat 4 w, ccfgL := .ofNat 4 l, cwin := clearWindow c.cwin w, laN := 0,
                        bse := c'.bse, cstate := .opened })) := by
  unfold cOpen at h
  split at h
  · simp at h
  · rename_i hc
    refine ⟨by simpa using hc, ?_⟩
    split at h
    · rename_i hr
      simp only [failCmp, Except.ok.injEq, Prod.mk.injEq] at h
      obtain ⟨rfl, rfl⟩ := h
      exact .inl ⟨by simp only [Config.legalW, Config.legalL]; omega, rfl, rfl⟩
    · rename_i hr
      obtain ⟨cw, h1, h⟩ := Step.bind_ok.mp h
      obtain ⟨b, h2, h⟩ := Step.bind_ok.mp h
      simp only [Step.pure_ok, Except.ok.injEq, Prod.mk.injEq] at h
      obtain ⟨rfl, rfl⟩ := h
      obtain ⟨-, rfl⟩ := swdClear_ok h1
      exact .inr ⟨by simp only [Config.legalW]; omega, by simp only [Config.legalL]; omega, rfl, h2, rfl⟩

theorem cOpen_inv {w l : Nat} {c c' : Cmp} {r : Report} (h : cOpen w l c = .ok (c', r)) (hi : c.Inv) : c'.Inv := by
  obtain ⟨hs, ⟨-, -, rfl⟩ | ⟨hw, hl, -, he, hc⟩⟩ := cOpen_cases h
  · exact ⟨hi.bse, hi.cwin, hi.cells, hi.ahead, by simp, by simp⟩
  · have he' := hi.error
    rw [hs] at he'
    rw [hc]
    refine ⟨(emitHeader_kept he).inv hi.bse, clearWindow_inv _ _ hi.cwin hw, hi.cells, by simp [Config.laDepth], ?_, ?_⟩
    · intro _
      have h1 := hw.1; have h2 := hw.2; have h3 := hl.1; have h4 := hl.2
      simp only [BitVec.toNat_ofNat, Config.legalW, Config.legalL]; omega
    · simpa using he'

/-- R237: what an accepted write did. -/
theorem cWrite_cases {x : Byte} {c c' : Cmp} (h : cWrite x c = .ok c') :
    c.cstate = .opened ∧
      ((c.laN + 1 ≠ 17 ∧ c' = acceptByte x c) ∨ (c.laN + 1 = 17 ∧ encodeStep (acceptByte x c) = .ok c')) := by
  unfold cWrite at h
  split at h
  · simp at h
  · rename_i hc
    refine ⟨by simpa using hc, ?_⟩
    simp only at h
    split at h
    · rename_i h17; exact .inr ⟨h17, h⟩
    · rename_i h17; simp only [Except.ok.injEq] at h; exact .inl ⟨h17, h.symm⟩

theorem cWrite_inv {x : Byte} {c c' : Cmp} (h : cWrite x c = .ok c') (hi : c.Inv) : c'.Inv := by
  obtain ⟨-, ⟨h17, rfl⟩ | ⟨h17, he⟩⟩ := cWrite_cases h
  · have hb := hi.accept x
    have ha := hi.ahead
    simp only [Config.laDepth] at ha
    exact ⟨hb.bse, hb.cwin, hb.cells, by simp only [acceptByte, Config.laDepth]; omega, hb.opened, hb.error⟩
  · exact (encodeStep_keeps he (hi.accept x)).1

theorem cWrite_no_fault {x : Byte} {c : Cmp} (hi : c.Inv) (f : Fault) : cWrite x c ≠ .error (.fault f) := by
  intro h
  unfold cWrite at h
  split at h
  · simp at h
  · simp only at h
    split at h
    · exact encodeStep_no_fault (hi.accept x).cwin f h
    · simp at h

/-- R238: what an accepted close did. -/
theorem cClose_cases {c c' : Cmp} (h : cClose c = .ok c') :
    c.cstate = .opened ∧ ∃ c1, drain c.laN c = .ok c1 ∧ bseFlush c1.bse = .ok c'.bse ∧
      c' = { c1 with bse := c'.bse, cstate := .closed } := by
  unfold cClose at h
  split at h
  · simp at h
  · rename_i hc
    obtain ⟨c1, h1, h⟩ := Step.bind_ok.mp h
    obtain ⟨b, h2, h⟩ := Step.bind_ok.mp h
    simp only [Step.pure_ok, Except.ok.injEq] at h
    subst h
    exact ⟨by simpa using hc, c1, h1, h2, rfl⟩

theorem cClose_inv {c c' : Cmp} (h : cClose c = .ok c') (hi : c.Inv) : c'.Inv := by
  obtain ⟨hs, c1, h1, h2, hc⟩ := cClose_cases h
  obtain ⟨k1, k2, -, -, k5, -, -⟩ := drain_keeps h1 hi
  have he := k1.error
  rw [k2, hs] at he
  rw [hc]
  exact ⟨(bseFlush_kept h2).1.inv k1.bse, k1.cwin, k1.cells, k1.ahead, by simp, by simpa using he⟩

theorem cClose_no_fault {c : Cmp} (hi : c.Inv) (f : Fault) : cClose c ≠ .error (.fault f) := by
  intro h
  unfold cClose at h
  split at h
  · simp at h
  · rcases Step.bind_error.mp h with h | ⟨c1, -, h⟩
    · exact drain_no_fault hi f h
    · rcases Step.bind_error.mp h with h | ⟨b, -, h⟩
      · unfold bseFlush at h
        split at h <;> simp [refuse] at h
      · simp at h

/-! ## Decompressor -/

theorem skipBits_ok {n : Nat} {b b' : Bsd} (h : skipBits n b = .ok b') :
    n ≤ avail b ∧ b' = { b with rpos := b.rpos + n } := by
  unfold skipBits at h
  split at h
  · simp at h
  · rename_i hn
    simp only [Except.ok.injEq] at h
    exact ⟨by omega, h.symm⟩

/-- What the BSD's part of the invariant says. -/
theorem skipBits_cursor {n : Nat} {b b' : Bsd} (h : skipBits n b = .ok b') (hi : b.rpos ≤ 8 * b.ibuf.length) :
    b'.rpos ≤ 8 * b'.ibuf.length := by
  obtain ⟨hn, rfl⟩ := skipBits_ok h
  simp only [avail] at hn
  simp only; omega

theorem Dmp.Inv.withBsd {d : Dmp} (h : d.Inv) {b : Bsd} (hb : b.rpos ≤ 8 * b.ibuf.length) :
    Dmp.Inv { d with bsd := b } :=
  ⟨hb, h.dwin, h.parsed, h.literal, h.latched, h.failed, h.fine⟩

theorem Dmp.Inv.withWin {d : Dmp} (h : d.Inv) {w : Window} (hw : w.Inv) : Dmp.Inv { d with dwin := w } :=
  ⟨h.cursor, hw, h.parsed, h.literal, h.latched, h.failed, h.fine⟩

theorem Dmp.Inv.withOut {d : Dmp} (h : d.Inv) (bs : List Byte) : Dmp.Inv { d with rout := bs } :=
  ⟨h.cursor, h.dwin, h.parsed, h.literal, h.latched, h.failed, h.fine⟩

/-- R300: error entry with one of the decompressor's three conditions. -/
theorem failDmp_inv {d : Dmp} {e : Condition} (hc : d.bsd.rpos ≤ 8 * d.bsd.ibuf.length) (hw : d.dwin.Inv)
    (he : e = .corruptHeader ∨ e = .invalidDistance ∨ e = .truncatedStream) : (failDmp e d).1.Inv :=
  ⟨hc, hw, by simp [failDmp], by simp [failDmp], by simp [failDmp],
    by intro _; rcases he with rfl | rfl | rfl <;> simp [failDmp], by simp [failDmp]⟩

theorem resetDmp_inv {d : Dmp} (h : d.Inv) : (resetDmp d).Inv :=
  ⟨by simp [resetDmp, bsdClear], emptyWindow_inv _ h.dwin, by simp [resetDmp], by simp [resetDmp],
    by simp [resetDmp], by simp [resetDmp], by simp [resetDmp]⟩

theorem takeHeader_cases {w l : Nibble} {d d' : Dmp} {r : Report} (h : takeHeader w l d = .ok (d', r)) :
    16 ≤ avail d.bsd ∧ Config.legalW w.toNat ∧ r = .done .none ∧
      d' = { d with bsd := { d.bsd with rpos := d.bsd.rpos + 16 }, dcfgW := w, dcfgL := l,
                    dwin := clearWindow d.dwin w.toNat, dstate := .readingToken } := by
  obtain ⟨b, h1, h⟩ := Step.bind_ok.mp h
  obtain ⟨dw, h2, h⟩ := Step.bind_ok.mp h
  simp only [Step.pure_ok, Except.ok.injEq, Prod.mk.injEq] at h
  obtain ⟨rfl, rfl⟩ := h
  obtain ⟨hn, rfl⟩ := skipBits_ok h1
  obtain ⟨hw, rfl⟩ := swdClear_ok h2
  exact ⟨hn, hw, rfl, rfl⟩

theorem takeHeader_inv {w l : Nibble} {d d' : Dmp} {r : Report} (h : takeHeader w l d = .ok (d', r)) (hi : d.Inv)
    (hs : d.dstate = .readingHeader) (hl : Config.legalL l.toNat) : d'.Inv := by
  obtain ⟨hn, hw, -, rfl⟩ := takeHeader_cases h
  simp only [avail] at hn
  exact ⟨by simp only; omega, clearWindow_inv _ _ hi.dwin hw, fun _ => ⟨hw, hl⟩, by simp, by simp, by simp,
    fun _ => hi.fine (by simp [hs])⟩

theorem takeCorruptHeader_cases {d d' : Dmp} {r : Report} (h : takeCorruptHeader d = .ok (d', r)) :
    16 ≤ avail d.bsd ∧
      (d', r) = failDmp .corruptHeader { d with bsd := { d.bsd with rpos := d.bsd.rpos + 16 } } := by
  obtain ⟨b, h1, h⟩ := Step.bind_ok.mp h
  simp only [Step.pure_ok, Except.ok.injEq] at h
  obtain ⟨hn, rfl⟩ := skipBits_ok h1
  exact ⟨hn, h.symm⟩

theorem takeCorruptHeader_inv {d d' : Dmp} {r : Report} (h : takeCorruptHeader d = .ok (d', r)) (hi : d.Inv) :
    d'.Inv := by
  obtain ⟨hn, he⟩ := takeCorruptHeader_cases h
  simp only [avail] at hn
  rw [show d' = (failDmp .corruptHeader { d with bsd := { d.bsd with rpos := d.bsd.rpos + 16 } }).1 by rw [← he]]
  exact failDmp_inv (by simp only; omega) hi.dwin (.inl rfl)

theorem needMore_inv {d : Dmp} (hi : d.Inv) : (needMore d).1.Inv := by
  unfold needMore
  split
  · exact failDmp_inv hi.cursor hi.dwin (.inr (.inr rfl))
  · exact hi

theorem takePad_cases {d d' : Dmp} {r : Report} (h : takePad d = .ok (d', r)) :
    r = .done .none ∧
      d' = { d with bsd := { d.bsd with rpos := d.bsd.rpos + avail d.bsd }, dstate := .done } := by
  obtain ⟨b, h1, h⟩ := Step.bind_ok.mp h
  simp only [Step.pure_ok, Except.ok.injEq, Prod.mk.injEq] at h
  obtain ⟨rfl, rfl⟩ := h
  obtain ⟨hn, rfl⟩ := skipBits_ok h1
  exact ⟨rfl, rfl⟩

theorem takePad_inv {d d' : Dmp} {r : Report} (h : takePad d = .ok (d', r)) (hi : d.Inv)
    (hs : d.dstate = .readingToken) : d'.Inv := by
  obtain ⟨-, rfl⟩ := takePad_cases h
  have := hi.cursor
  exact ⟨by simp only [avail]; omega, hi.dwin, fun _ => hi.parsed (.inl hs), by simp, by simp, by simp,
    fun _ => hi.fine (by simp [hs])⟩

theorem latchLiteral_cases {x : Byte} {k : Nat} {d d' : Dmp} (h : latchLiteral x k d = .ok d') :
    k ≤ avail d.bsd ∧ d' = { d with bsd := { d.bsd with rpos := d.bsd.rpos + k }, tokKind := true, tokByte := x,
                                    dstate := .appendingLiteral } := by
  obtain ⟨b, h1, h⟩ := Step.bind_ok.mp h
  simp only [Step.pure_ok, Except.ok.injEq] at h
  obtain ⟨hn, rfl⟩ := skipBits_ok h1
  exact ⟨hn, h.symm⟩

theorem latchMatch_cases {x : Half} {n : Five} {k : Nat} {d d' : Dmp} (h : latchMatch x n k d = .ok d') :
    k ≤ avail d.bsd ∧ d' = { d with bsd := { d.bsd with rpos := d.bsd.rpos + k }, tokKind := false, tokDist := x,
                                    tokLen := n, dstate := .copyingMatch } := by
  obtain ⟨b, h1, h⟩ := Step.bind_ok.mp h
  simp only [Step.pure_ok, Except.ok.injEq] at h
  obtain ⟨hn, rfl⟩ := skipBits_ok h1
  exact ⟨hn, h.symm⟩

theorem latchLiteral_inv {x : Byte} {k : Nat} {d d' : Dmp} (h : latchLiteral x k d = .ok d') (hi : d.Inv)
    (hs : d.dstate = .readingToken) : d'.Inv := by
  obtain ⟨hn, rfl⟩ := latchLiteral_cases h
  simp only [avail] at hn
  have := hi.cursor
  exact ⟨by simp only; omega, hi.dwin, fun _ => hi.parsed (.inl hs), by simp, by simp, by simp,
    fun _ => hi.fine (by simp [hs])⟩

theorem latchMatch_inv {x : Half} {n : Five} {k : Nat} {d d' : Dmp} (h : latchMatch x n k d = .ok d') (hi : d.Inv)
    (hs : d.dstate = .readingToken) (h1 : 1 ≤ x.toNat) (h2 : x.toNat ≤ 2 ^ d.dcfgW.toNat) (h3 : 2 ≤ n.toNat)
    (h4 : n.toNat ≤ 17) : d'.Inv := by
  obtain ⟨hn, rfl⟩ := latchMatch_cases h
  simp only [avail] at hn
  have := hi.cursor
  exact ⟨by simp only; omega, hi.dwin, fun _ => hi.parsed (.inl hs), by simp, fun _ => ⟨rfl, h1, h2, h3, h4⟩,
    by simp, fun _ => hi.fine (by simp [hs])⟩

theorem appendLiteral_inv {d : Dmp} (hi : d.Inv) (hs : d.dstate = .appendingLiteral) : (appendLiteral d).Inv :=
  ⟨hi.cursor, push_inv _ _ hi.dwin, fun _ => hi.parsed (.inr (.inl hs)), by simp [appendLiteral],
    by simp [appendLiteral], by simp [appendLiteral], fun _ => hi.fine (by simp [hs])⟩

theorem copyMatch_cases {d d' : Dmp} {r : Report} (h : copyMatch d = .ok (d', r)) :
    (swdCopy d.dwin d.tokDist.toNat d.tokLen.toNat = .ok none ∧ (d', r) = failDmp .invalidDistance d) ∨
      ∃ bs, swdCopy d.dwin d.tokDist.toNat d.tokLen.toNat = .ok (some (pushAll d.dwin bs, bs)) ∧ r = .done .none ∧
        d' = { d with dwin := pushAll d.dwin bs, rout := d.rout ++ bs, dstate := .readingToken } := by
  obtain ⟨o, h1, h⟩ := Step.bind_ok.mp h
  cases o with
  | none => simp only [Step.pure_ok, Except.ok.injEq] at h; exact .inl ⟨h1, h.symm⟩
  | some p =>
    obtain ⟨w, bs⟩ := p
    simp only [Step.pure_ok, Except.ok.injEq, Prod.mk.injEq] at h
    obtain ⟨rfl, rfl⟩ := h
    obtain ⟨-, -, rfl, -⟩ := swdCopy_some h1
    exact .inr ⟨bs, h1, rfl, rfl⟩

theorem copyMatch_inv {d d' : Dmp} {r : Report} (h : copyMatch d = .ok (d', r)) (hi : d.Inv)
    (hs : d.dstate = .copyingMatch) : d'.Inv := by
  rcases copyMatch_cases h with ⟨-, he⟩ | ⟨bs, -, -, rfl⟩
  · rw [show d' = (failDmp .invalidDistance d).1 by rw [← he]]
    exact failDmp_inv hi.cursor hi.dwin (.inr (.inl rfl))
  · exact ⟨hi.cursor, pushAll_inv _ _ hi.dwin, fun _ => hi.parsed (.inr (.inr (.inl hs))), by simp, by simp, by simp,
      fun _ => hi.fine (by simp [hs])⟩

theorem copyMatch_no_fault {d : Dmp} (hw : d.dwin.Inv) (f : Fault) : copyMatch d ≠ .error (.fault f) := by
  intro h
  rcases Step.bind_error.mp h with h | ⟨o, -, h⟩
  · exact swdCopy_no_fault hw f h
  · cases o <;> simp at h

/-! ## Bounds of what a parse answers (R211, R212) -/

theorem peekBits_lt (b : Bsd) (n off : Nat) : peekBits b n off < 2 ^ n := by
  have := valueOf_lt (streamBits b.ibuf (b.rpos + off) n)
  simpa [peekBits] using this

theorem parseHeader_header {b : Bsd} {w l : Nibble} (h : parseHeader b = .header w l) :
    16 ≤ avail b ∧ Config.legalW w.toNat ∧ Config.legalL l.toNat := by
  unfold parseHeader at h
  split at h
  · simp at h
  · rename_i ha
    simp only [Config.headerBits] at ha
    simp only at h
    split at h
    · simp at h
    split at h
    · simp at h
    split at h
    · simp at h
    split at h
    · simp at h
    split at h
    · simp at h
    rename_i h1 h2 h3 h4 h5
    simp only [HeaderAnswer.header.injEq] at h
    obtain ⟨rfl, rfl⟩ := h
    simp only [BitVec.toNat_ofNat, Config.legalW, Config.legalL]
    omega

theorem distanceOf_toNat (d : Nat) (h : d < 2 ^ 15) : (distanceOf d).toNat = d + 1 := by
  simp only [distanceOf, BitVec.toNat_add, BitVec.toNat_ofNat]
  change (d % 65536 + 1) % 65536 = _
  omega

theorem lengthOf_toNat (n : Nibble) : (lengthOf n).toNat = n.toNat + 2 := by
  have := n.isLt
  simp only [lengthOf, BitVec.toNat_add, BitVec.toNat_setWidth]
  change (n.toNat % 32 + 2) % 32 = _
  omega

theorem parseToken_literal {w l : Nat} {b : Bsd} {x : Byte} {k : Nat} (h : parseToken w l b = .literal x k) :
    1 ≤ k ∧ k ≤ avail b := by
  unfold parseToken at h
  simp only at h
  split at h
  · simp at h
  split at h
  · split at h
    · simp at h
    split at h
    · split at h
      · simp at h
      · simp only [TokenAnswer.literal.injEq] at h; omega
    · simp only [TokenAnswer.literal.injEq] at h; omega
  · split at h <;> simp at h

theorem parseToken_matched {w l : Nat} {b : Bsd} {d : Half} {n : Five} {k : Nat} (hw : w ≤ 15)
    (h : parseToken w l b = .matched d n k) :
    1 ≤ k ∧ k ≤ avail b ∧ 1 ≤ d.toNat ∧ d.toNat ≤ 2 ^ w ∧ 2 ≤ n.toNat ∧ n.toNat ≤ 17 := by
  unfold parseToken at h
  simp only at h
  split at h
  · simp at h
  split at h
  · repeat' split at h
    all_goals simp at h
  · split at h
    · simp at h
    · simp only [TokenAnswer.matched.injEq] at h
      obtain ⟨rfl, rfl, rfl⟩ := h
      have h1 := peekBits_lt b w 1
      have h2 : 2 ^ w ≤ 2 ^ 15 := Nat.pow_le_pow_right (by omega) hw
      rw [distanceOf_toNat _ (by omega), lengthOf_toNat]
      have := (BitVec.ofNat 4 (peekBits b 4 (1 + w))).isLt
      omega

/-! ## D.STEP and the elements -/

/-- R262: a step keeps the invariant of the decompressor. -/
theorem dStep_inv {d d' : Dmp} {r : Report} (h : dStep d = .ok (d', r)) (hi : d.Inv) : d'.Inv := by
  unfold dStep at h
  split at h
  · rename_i hs
    unfold stepHeader at h
    split at h
    · simp only [Except.ok.injEq] at h
      rw [show d' = (needMore d).1 by rw [h]]
      exact needMore_inv hi
    · exact takeCorruptHeader_inv h hi
    · rename_i hp
      exact takeHeader_inv h hi hs (parseHeader_header hp).2.2
  · rename_i hs
    unfold stepToken at h
    split at h
    · exact takePad_inv h hi hs
    split at h
    · simp at h
    split at h
    · simp only [Except.ok.injEq] at h
      rw [show d' = (needMore d).1 by rw [h]]
      exact needMore_inv hi
    · obtain ⟨d1, h1, he⟩ := Step.map_ok.mp h
      simp only [Prod.mk.injEq] at he
      rw [← he.1]
      exact latchLiteral_inv h1 hi hs
    · rename_i hp
      obtain ⟨d1, h1, he⟩ := Step.map_ok.mp h
      simp only [Prod.mk.injEq] at he
      rw [← he.1]
      have hw := (hi.parsed (.inl hs)).1.2
      obtain ⟨-, -, p1, p2, p3, p4⟩ := parseToken_matched hw hp
      exact latchMatch_inv h1 hi hs p1 p2 p3 p4
  · rename_i hs
    simp only [Except.ok.injEq, Prod.mk.injEq] at h
    rw [← h.1]
    exact appendLiteral_inv hi hs
  · rename_i hs
    exact copyMatch_inv h hi hs
  · simp only [Except.ok.injEq, Prod.mk.injEq] at h
    rw [← h.1]; exact hi
  · simp only [Except.ok.injEq, Prod.mk.injEq] at h
    rw [← h.1]; exact hi

theorem skipBits_no_fault (n : Nat) (b : Bsd) (f : Fault) : skipBits n b ≠ .error (.fault f) := by
  intro h
  unfold skipBits at h
  split at h <;> simp [refuse] at h

theorem latchLiteral_no_fault (x : Byte) (k : Nat) (d : Dmp) (f : Fault) :
    latchLiteral x k d ≠ .error (.fault f) := by
  intro h
  rcases Step.bind_error.mp h with h | ⟨b, -, h⟩
  · exact skipBits_no_fault _ _ _ h
  · simp at h

theorem latchMatch_no_fault (x : Half) (n : Five) (k : Nat) (d : Dmp) (f : Fault) :
    latchMatch x n k d ≠ .error (.fault f) := by
  intro h
  rcases Step.bind_error.mp h with h | ⟨b, -, h⟩
  · exact skipBits_no_fault _ _ _ h
  · simp at h

theorem swdClear_no_fault (w : Window) (n : Nat) (f : Fault) : swdClear w n ≠ .error (.fault f) := by
  intro h
  unfold swdClear at h
  split at h <;> simp [refuse] at h

theorem takeHeader_no_fault (w l : Nibble) (d : Dmp) (f : Fault) : takeHeader w l d ≠ .error (.fault f) := by
  intro h
  rcases Step.bind_error.mp h with h | ⟨b, -, h⟩
  · exact skipBits_no_fault _ _ _ h
  · rcases Step.bind_error.mp h with h | ⟨b, -, h⟩
    · exact swdClear_no_fault _ _ _ h
    · simp at h

theorem takeCorruptHeader_no_fault (d : Dmp) (f : Fault) : takeCorruptHeader d ≠ .error (.fault f) := by
  intro h
  rcases Step.bind_error.mp h with h | ⟨b, -, h⟩
  · exact skipBits_no_fault _ _ _ h
  · simp at h

theorem takePad_no_fault (d : Dmp) (f : Fault) : takePad d ≠ .error (.fault f) := by
  intro h
  rcases Step.bind_error.mp h with h | ⟨b, -, h⟩
  · exact skipBits_no_fault _ _ _ h
  · simp at h

theorem dStep_no_fault {d : Dmp} (hw : d.dwin.Inv) (f : Fault) : dStep d ≠ .error (.fault f) := by
  intro h
  unfold dStep at h
  split at h
  · unfold stepHeader at h
    split at h
    · simp at h
    · exact takeCorruptHeader_no_fault _ _ h
    · exact takeHeader_no_fault _ _ _ _ h
  · unfold stepToken at h
    split at h
    · exact takePad_no_fault _ _ h
    split at h
    · simp at h
    split at h
    · simp at h
    · exact latchLiteral_no_fault _ _ _ _ (Step.map_error.mp h)
    · exact latchMatch_no_fault _ _ _ _ _ (Step.map_error.mp h)
  · simp at h
  · exact copyMatch_no_fault hw f h
  · simp at h
  · simp at h

theorem carryLiteral_cases {l k : Nat} {x : Byte} {d d' : Dmp} {r : Report} (h : carryLiteral l x k d = .ok (d', r)) :
    d.dstate = .readingToken ∧ d.dcfgL.toNat = l ∧ r = .done .none ∧
      ∃ d1, latchLiteral x k d = .ok d1 ∧ d' = appendLiteral d1 := by
  unfold carryLiteral at h
  split at h
  · simp at h
  · rename_i hc
    obtain ⟨d1, h1, he⟩ := Step.map_ok.mp h
    simp only [Prod.mk.injEq] at he
    exact ⟨by_contra fun hn => hc (.inl hn), by_contra fun hn => hc (.inr hn), he.2.symm, d1, h1, he.1.symm⟩

theorem carryLiteral_inv {l k : Nat} {x : Byte} {d d' : Dmp} {r : Report} (h : carryLiteral l x k d = .ok (d', r))
    (hi : d.Inv) : d'.Inv := by
  obtain ⟨hs, -, -, d1, h1, rfl⟩ := carryLiteral_cases h
  exact appendLiteral_inv (latchLiteral_inv h1 hi hs) (by rw [(latchLiteral_cases h1).2])

theorem carryMatch_cases {w x : Nat} {n : Nibble} {d d' : Dmp} {r : Report} (h : carryMatch w x n d = .ok (d', r)) :
    d.dstate = .readingToken ∧ d.dcfgW.toNat = w ∧
      ∃ d1, latchMatch (distanceOf x) (lengthOf n) (5 + w) d = .ok d1 ∧ copyMatch d1 = .ok (d', r) := by
  unfold carryMatch at h
  split at h
  · simp at h
  · rename_i hc
    exact ⟨by_contra fun hn => hc (.inl hn), by_contra fun hn => hc (.inr hn), Step.bind_ok.mp h⟩

theorem carryMatch_inv {w x : Nat} {n : Nibble} {d d' : Dmp} {r : Report} (h : carryMatch w x n d = .ok (d', r))
    (hi : d.Inv) (hx : x < 2 ^ w) : d'.Inv := by
  obtain ⟨hs, rfl, d1, h1, h2⟩ := carryMatch_cases h
  have hw := (hi.parsed (.inl hs)).1.2
  have hp : 2 ^ d.dcfgW.toNat ≤ 2 ^ 15 := Nat.pow_le_pow_right (by omega) hw
  have hn := n.isLt
  have hd := distanceOf_toNat x (by omega)
  have hl := lengthOf_toNat n
  refine copyMatch_inv h2 (latchMatch_inv h1 hi hs ?_ ?_ ?_ ?_) (by rw [(latchMatch_cases h1).2]) <;> omega

theorem carryShort_inv {l c : Nat} {d d' : Dmp} {r : Report} (h : carryShort l c d = .ok (d', r)) (hi : d.Inv) :
    d'.Inv := by
  unfold carryShort at h
  split at h
  · simp at h
  · exact carryLiteral_inv h hi

theorem headerLegal_iff {v w l : Nibble} {k : BitVec 1} {r : BitVec 3} :
    headerLegal v w l k r = true ↔ v.toNat = 1 ∧ Config.legalW w.toNat ∧ Config.legalL l.toNat ∧ k.toNat = 0 ∧
      r.toNat = 0 := by
  simp [headerLegal, Config.version, and_assoc]

theorem carryHeader_inv {v w l : Nibble} {k : BitVec 1} {q : BitVec 3} {d d' : Dmp} {r : Report}
    (h : carryHeader v w l k q d = .ok (d', r)) (hi : d.Inv) : d'.Inv := by
  unfold carryHeader at h
  split at h
  · simp at h
  · rename_i hs
    split at h
    · rename_i hl
      exact takeHeader_inv h hi (by simpa using hs) (headerLegal_iff.mp hl).2.2.1
    · exact takeCorruptHeader_inv h hi

theorem carryPad_inv {k : Nat} {d d' : Dmp} {r : Report} (h : carryPad k d = .ok (d', r)) (hi : d.Inv) : d'.Inv := by
  unfold carryPad at h
  split at h
  · simp at h
  · rename_i hc
    exact takePad_inv h hi (by_contra fun hn => hc (.inl hn))

theorem carryLiteral_no_fault (l k : Nat) (x : Byte) (d : Dmp) (f : Fault) :
    carryLiteral l x k d ≠ .error (.fault f) := by
  intro h
  unfold carryLiteral at h
  split at h
  · simp at h
  · exact latchLiteral_no_fault _ _ _ _ (Step.map_error.mp h)

theorem carryShort_no_fault (l c : Nat) (d : Dmp) (f : Fault) : carryShort l c d ≠ .error (.fault f) := by
  intro h
  unfold carryShort at h
  split at h
  · simp at h
  · exact carryLiteral_no_fault _ _ _ _ _ h

theorem carryMatch_no_fault {w x : Nat} {n : Nibble} {d : Dmp} (hw : d.dwin.Inv) (f : Fault) :
    carryMatch w x n d ≠ .error (.fault f) := by
  intro h
  unfold carryMatch at h
  split at h
  · simp at h
  · rcases Step.bind_error.mp h with h | ⟨d1, h1, h⟩
    · exact latchMatch_no_fault _ _ _ _ _ h
    · obtain ⟨-, rfl⟩ := latchMatch_cases h1
      refine absurd h (copyMatch_no_fault ?_ f)
      exact hw

theorem carryHeader_no_fault (v w l : Nibble) (k : BitVec 1) (q : BitVec 3) (d : Dmp) (f : Fault) :
    carryHeader v w l k q d ≠ .error (.fault f) := by
  intro h
  unfold carryHeader at h
  split at h
  · simp at h
  split at h
  · exact takeHeader_no_fault _ _ _ _ h
  · exact takeCorruptHeader_no_fault _ _ h

theorem carryPad_no_fault (k : Nat) (d : Dmp) (f : Fault) : carryPad k d ≠ .error (.fault f) := by
  intro h
  unfold carryPad at h
  split at h
  · simp at h
  · exact takePad_no_fault _ _ h

end Sys2Proof.Machine
end

