-- ==== Sys2Proof/Laws/Parse.lean ====
section
/-! SUPPORT. What the interpreter answers, told by the unread bits (44_token_interpreter.md R211 to R213), and what the
token decoder answers, told by the token forms of 30_encoding.md R93 to R98. -/

namespace Sys2Proof.Machine

/-- A peek inside a known piece of the pending bits. -/
theorem peekBits_of_pending {b : Bsd} {x y z : List Bool} (h : pendingBits b = x ++ (y ++ z)) :
    peekBits b y.length x.length = valueOf y := by
  have hl := pendingBits_length b
  rw [h] at hl
  simp only [List.length_append] at hl
  rw [peekBits_eq _ _ _ (by omega), h, List.drop_left' rfl, List.take_left' rfl]

theorem avail_of_pending {b : Bsd} {x y : List Bool} (h : pendingBits b = x ++ y) : avail b = x.length + y.length := by
  rw [← pendingBits_length, h, List.length_append]

/-- R211, R91, R92: the header at the cursor. -/
theorem parseHeader_of_pending {b : Bsd} {v w l : Nibble} {k : BitVec 1} {r : BitVec 3} {rest : List Bool}
    (h : pendingBits b = headerBitsOf v w l k r ++ rest) :
    parseHeader b = if headerLegal v w l k r then .header w l else .corrupt := by
  have hl := headerBitsOf_length v w l k r
  have ha := avail_of_pending h
  rw [hl] at ha
  have hp := peekBits_of_pending (x := []) (y := headerBitsOf v w l k r) (z := rest) (by simpa using h)
  rw [hl, valueOf_headerBitsOf] at hp
  have := v.isLt; have := w.isLt; have := l.isLt; have := k.isLt; have := r.isLt
  have hw : BitVec.ofNat 4 ((v.toNat * 4096 + w.toNat * 256 + l.toNat * 16 + k.toNat * 8 + r.toNat) / 256) = w :=
    ofNat_toNat_eq _ _ (by omega)
  have hl2 : BitVec.ofNat 4 ((v.toNat * 4096 + w.toNat * 256 + l.toNat * 16 + k.toNat * 8 + r.toNat) / 16) = l :=
    ofNat_toNat_eq _ _ (by omega)
  simp only [parseHeader, if_neg (show ¬ avail b < Config.headerBits by omega)]
  simp only [Config.headerBits, List.length_nil] at hp
  rw [hp]
  simp only [Config.version, hw, hl2]
  by_cases hg : headerLegal v w l k r = true
  · obtain ⟨h1, h2, h3, h4, h5⟩ := headerLegal_iff.mp hg
    simp only [Config.legalW, Config.legalL] at h2 h3
    rw [if_pos hg, if_neg (by omega), if_neg (by omega), if_neg (by omega), if_neg (by omega), if_neg (by omega)]
  · rw [if_neg hg]
    have hn : ¬ (v.toNat = 1 ∧ Config.legalW w.toNat ∧ Config.legalL l.toNat ∧ k.toNat = 0 ∧ r.toNat = 0) :=
      fun hc => hg (headerLegal_iff.mpr hc)
    simp only [Config.legalW, Config.legalL] at hn
    split_ifs <;> first | rfl | omega

/-- R212: a short literal at the cursor. -/
theorem parseToken_short {w l c : Nat} {b : Bsd} {rest : List Bool} (h : pendingBits b = literalBitsOf l c ++ rest)
    (hc : c < 2 ^ l) (he : ¬ (l < 8 ∧ c = 2 ^ l - 1)) :
    parseToken w l b = .literal (literalByte c) (1 + l) := by
  have ha := avail_of_pending h
  have h1 := peekBits_of_pending (b := b) (x := []) (y := [true]) (z := bitsOf l c ++ rest) (by simpa [literalBitsOf] using h)
  have h2 := peekBits_of_pending (b := b) (x := [true]) (y := bitsOf l c) (z := rest) (by simpa [literalBitsOf] using h)
  simp only [literalBitsOf, List.length_cons, bitsOf_length] at ha
  simp only [List.length_cons, List.length_nil, bitsOf_length, valueOf_bitsOf, Nat.mod_eq_of_lt hc] at h1 h2
  simp only [parseToken, h1, h2, if_neg (show ¬ avail b < 1 by omega), if_neg (show ¬ avail b < 1 + l by omega),
    if_neg he]
  rfl

/-- R212: an escaped literal at the cursor. -/
theorem parseToken_escaped {w l : Nat} {x : Byte} {b : Bsd} {rest : List Bool}
    (h : pendingBits b = escapeBitsOf l x ++ rest) (h8 : l < 8) :
    parseToken w l b = .literal x (1 + l + 8) := by
  have ha := avail_of_pending h
  have hp : (2 ^ l - 1) % 2 ^ l = 2 ^ l - 1 := Nat.mod_eq_of_lt (by have := Nat.two_pow_pos l; omega)
  have h1 := peekBits_of_pending (b := b) (x := []) (y := [true]) (z := bitsOf l (2 ^ l - 1) ++ (bitsOf 8 x.toNat ++ rest))
    (by simpa [escapeBitsOf] using h)
  have h2 := peekBits_of_pending (b := b) (x := [true]) (y := bitsOf l (2 ^ l - 1)) (z := bitsOf 8 x.toNat ++ rest)
    (by simpa [escapeBitsOf] using h)
  have h3 := peekBits_of_pending (b := b) (x := true :: bitsOf l (2 ^ l - 1)) (y := bitsOf 8 x.toNat) (z := rest)
    (by simpa [escapeBitsOf] using h)
  simp only [escapeBitsOf, List.length_cons, List.length_append, bitsOf_length] at ha
  simp only [List.length_cons, List.length_nil, bitsOf_length, valueOf_bitsOf, hp] at h1 h2 h3
  rw [Nat.add_comm l 1] at h3
  simp only [parseToken, h1, h2, h3, if_neg (show ¬ avail b < 1 by omega), if_neg (show ¬ avail b < 1 + l by omega),
    if_neg (show ¬ avail b < 1 + l + 8 by omega), h8, and_self, if_true]
  have := x.isLt
  rw [ofNat_toNat_eq x _ (by omega)]
  rfl

/-- R212: a match at the cursor. -/
theorem parseToken_match {w l d : Nat} {n : Nibble} {b : Bsd} {rest : List Bool}
    (h : pendingBits b = matchBitsOf w d n ++ rest) (hd : d < 2 ^ w) :
    parseToken w l b = .matched (distanceOf d) (lengthOf n) (5 + w) := by
  have ha := avail_of_pending h
  have h1 := peekBits_of_pending (b := b) (x := []) (y := [false]) (z := bitsOf w d ++ (bitsOf 4 n.toNat ++ rest))
    (by simpa [matchBitsOf, Config.lenBits] using h)
  have h2 := peekBits_of_pending (b := b) (x := [false]) (y := bitsOf w d) (z := bitsOf 4 n.toNat ++ rest)
    (by simpa [matchBitsOf, Config.lenBits] using h)
  have h3 := peekBits_of_pending (b := b) (x := false :: bitsOf w d) (y := bitsOf 4 n.toNat) (z := rest)
    (by simpa [matchBitsOf, Config.lenBits] using h)
  simp only [matchBitsOf, Config.lenBits, List.length_cons, List.length_append, bitsOf_length] at ha
  have hn := n.isLt
  simp only [List.length_cons, List.length_nil, bitsOf_length, valueOf_bitsOf, Nat.mod_eq_of_lt hd,
    Nat.mod_eq_of_lt hn] at h1 h2 h3
  rw [Nat.add_comm w 1] at h3
  simp only [parseToken, h1, h2, h3, if_neg (show ¬ avail b < 1 by omega), if_neg (show ¬ avail b < 5 + w by omega)]
  rw [ofNat_toNat_eq n _ (by omega)]
  rfl

/-- R213 b: a byte fed at the end changes no peek that was answered. -/
theorem peekBits_feed {b : Bsd} (x : Byte) {n off : Nat} (h : off + n ≤ avail b) :
    peekBits { b with ibuf := b.ibuf ++ [x] } n off = peekBits b n off := by
  rw [peekBits_eq _ _ _ h, peekBits_eq _ _ _ (by simp only [avail, List.length_append, List.length_singleton] at h ⊢; omega)]
  have : ∃ z, pendingBits { b with ibuf := b.ibuf ++ [x] } = pendingBits b ++ z := by
    refine ⟨(bytesBits [x]).drop (b.rpos - (bytesBits b.ibuf).length), ?_⟩
    simp only [pendingBits, bytesBits_append]
    exact List.drop_append
  obtain ⟨z, hz⟩ := this
  have hl := pendingBits_length b
  have h0 : n - ((pendingBits b).length - off) = 0 := by omega
  rw [hz, List.drop_append, List.take_append, List.length_drop, h0, List.take_zero, List.append_nil]

theorem avail_feed (b : Bsd) (x : Byte) (h : b.rpos ≤ 8 * b.ibuf.length) :
    avail { b with ibuf := b.ibuf ++ [x] } = avail b + 8 := by
  simp [avail]; omega

/-- R213 b for the header. -/
theorem parseHeader_feed {b : Bsd} (x : Byte) (h : b.rpos ≤ 8 * b.ibuf.length) (hn : parseHeader b ≠ .needMore) :
    parseHeader { b with ibuf := b.ibuf ++ [x] } = parseHeader b := by
  have ha : 16 ≤ avail b := by
    by_contra hc
    exact hn (by simp only [parseHeader, if_pos (show avail b < Config.headerBits by simp only [Config.headerBits]; omega)])
  unfold parseHeader
  rw [avail_feed b x h, peekBits_feed x (by omega)]
  have h1 : ¬ avail b < Config.headerBits := by simp [Config.headerBits]; omega
  have h2 : ¬ avail b + 8 < Config.headerBits := by simp [Config.headerBits]; omega
  simp only [if_neg h1, if_neg h2]

/-- R213 b for a token. -/
theorem parseToken_feed {b : Bsd} {w l : Nat} (x : Byte) (h : b.rpos ≤ 8 * b.ibuf.length)
    (hn : parseToken w l b ≠ .needMore) :
    parseToken w l { b with ibuf := b.ibuf ++ [x] } = parseToken w l b := by
  have ha := avail_feed b x h
  unfold parseToken at hn ⊢
  simp only [ha]
  by_cases h1 : avail b < 1
  · simp [h1] at hn
  rw [peekBits_feed x (by omega : 0 + 1 ≤ avail b)]
  by_cases hm : peekBits b 1 0 = 1
  · by_cases h2 : avail b < 1 + l
    · simp [h1, hm, h2] at hn
    rw [peekBits_feed x (by omega : 1 + l ≤ avail b)]
    by_cases h3 : l < 8 ∧ peekBits b l 1 = 2 ^ l - 1
    · by_cases h4 : avail b < 1 + l + 8
      · simp [h1, hm, h2, h3, h4] at hn
      rw [peekBits_feed x (by omega)]
      have e1 : ¬ avail b + 8 < 1 := by omega
      have e2 : ¬ avail b + 8 < 1 + l := by omega
      have e3 : ¬ avail b + 8 < 1 + l + 8 := by omega
      simp only [if_pos hm, if_pos h3, if_neg e1, if_neg e2, if_neg e3, if_neg h1, if_neg h2, if_neg h4]
    · have e1 : ¬ avail b + 8 < 1 := by omega
      have e2 : ¬ avail b + 8 < 1 + l := by omega
      simp only [if_pos hm, if_neg h3, if_neg e1, if_neg e2, if_neg h1, if_neg h2]
  · by_cases h2 : avail b < 5 + w
    · simp [h1, hm, h2] at hn
    rw [peekBits_feed x (by omega : 1 + w ≤ avail b), peekBits_feed x (by omega : (1 + w) + 4 ≤ avail b)]
    have e1 : ¬ avail b + 8 < 1 := by omega
    have e2 : ¬ avail b + 8 < 5 + w := by omega
    simp only [if_neg hm, if_neg e1, if_neg e2, if_neg h1, if_neg h2]

/-! ## The token decoder by form -/

/-- The three forms of a token (R94, R95, R96) at the front of the bits. -/
inductive TokenForm (w l : Nat) (bits rest : List Bool) (i : Instr) : Prop where
  | short (c : Nat) (lt : c < 2 ^ l) (plain : ¬ (l < 8 ∧ c = 2 ^ l - 1)) (is : literalOf l c = .ok i)
      (bits : bits = literalBitsOf l c ++ rest)
  | escaped (x : Byte) (lt : l < 8) (is : escapeOf l x.toNat = .ok i) (bits : bits = escapeBitsOf l x ++ rest)
  | matched (d : Nat) (n : Nibble) (lt : d < 2 ^ w) (is : matchOf w d n.toNat = .ok i)
      (bits : bits = matchBitsOf w d n ++ rest)

/-- The bits of a field stand where its value was read. -/
theorem take_eq_bitsOf {t : List Bool} {n : Nat} (h : n ≤ t.length) : t.take n = bitsOf n (valueOf (t.take n)) := by
  have h1 := bitsOf_valueOf (t.take n)
  rw [List.length_take, Nat.min_eq_left h] at h1
  exact h1.symm

theorem valueOf_take_lt {t : List Bool} {n : Nat} (h : n ≤ t.length) : valueOf (t.take n) < 2 ^ n := by
  have h1 := valueOf_lt (t.take n)
  rwa [List.length_take, Nat.min_eq_left h] at h1

/-- R93 to R98: what the decoder reads is a token of one of the three forms, and those bits are the ones taken. -/
theorem decodeToken_form {w l : Nat} {bits rest : List Bool} {i : Instr} (h : decodeToken w l bits = .ok (i, rest)) :
    Config.legalW w ∧ Config.legalL l ∧ TokenForm w l bits rest i := by
  unfold decodeToken at h
  split at h
  · simp at h
  rename_i hc
  have hc' : Config.legalW w ∧ Config.legalL l := by_contra hc
  refine ⟨hc'.1, hc'.2, ?_⟩
  split at h
  · simp at h
  · rename_i t
    split at h
    · simp at h
    rename_i ht
    have ht' : l ≤ t.length := by omega
    split at h
    · rename_i hesc
      split at h
      · simp at h
      rename_i ht8
      have ht8' : 8 ≤ (t.drop l).length := by rw [List.length_drop]; omega
      cases hx : escapeOf l (valueOf ((t.drop l).take 8)) with
      | error e => rw [hx] at h; simp [Except.map] at h
      | ok j =>
        rw [hx] at h
        simp only [Except.map, Except.ok.injEq, Prod.mk.injEq] at h
        obtain ⟨rfl, rfl⟩ := h
        have hlt := valueOf_take_lt ht8'
        refine .escaped (.ofNat 8 (valueOf ((t.drop l).take 8))) hesc.1 ?_ ?_
        · rw [BitVec.toNat_ofNat, Nat.mod_eq_of_lt hlt]; exact hx
        · rw [escapeBitsOf, BitVec.toNat_ofNat, Nat.mod_eq_of_lt hlt, ← take_eq_bitsOf ht8', ← hesc.2,
            ← take_eq_bitsOf ht', List.cons_append, List.append_assoc, ← List.drop_drop, List.take_append_drop,
            List.take_append_drop]
    · rename_i hesc
      cases hx : literalOf l (valueOf (t.take l)) with
      | error e => rw [hx] at h; simp [Except.map] at h
      | ok j =>
        rw [hx] at h
        simp only [Except.map, Except.ok.injEq, Prod.mk.injEq] at h
        obtain ⟨rfl, rfl⟩ := h
        refine .short _ (valueOf_take_lt ht') hesc hx ?_
        rw [literalBitsOf, ← take_eq_bitsOf ht', List.cons_append, List.take_append_drop]
  · rename_i t
    split at h
    · simp at h
    rename_i ht
    simp only [Config.lenBits] at ht h
    have ht' : w ≤ t.length := by omega
    have ht4 : 4 ≤ (t.drop w).length := by rw [List.length_drop]; omega
    cases hx : matchOf w (valueOf (t.take w)) (valueOf ((t.drop w).take 4)) with
    | error e => rw [hx] at h; simp [Except.map] at h
    | ok j =>
      rw [hx] at h
      simp only [Except.map, Except.ok.injEq, Prod.mk.injEq] at h
      obtain ⟨rfl, rfl⟩ := h
      have hlt := valueOf_take_lt ht4
      refine .matched (valueOf (t.take w)) (.ofNat 4 (valueOf ((t.drop w).take 4))) (valueOf_take_lt ht') ?_ ?_
      · rw [BitVec.toNat_ofNat, Nat.mod_eq_of_lt hlt]; exact hx
      · rw [matchBitsOf, BitVec.toNat_ofNat, Nat.mod_eq_of_lt hlt, Config.lenBits, ← take_eq_bitsOf ht4,
          ← take_eq_bitsOf ht', List.cons_append, List.append_assoc, ← List.drop_drop, List.take_append_drop,
          List.take_append_drop]

/-- R94: the short literal of each width. -/
theorem literalOf_ok {l c : Nat} {i : Instr} (h : literalOf l c = .ok i) (hc : c < 2 ^ l)
    (he : ¬ (l < 8 ∧ c = 2 ^ l - 1)) :
    i.wellFormed = true ∧ (∀ w, i.validUnder w l = true) ∧ encode i = .token (literalBitsOf l c) ∧
      ∀ s, exec i s = onDmp (carryShort l c) s := by
  unfold literalOf at h
  split at h
  all_goals first | (injection h with h; subst h) | (simp at h)
  all_goals
    have hm := Nat.mod_eq_of_lt hc
    simp only [Instr.wellFormed, Instr.validUnder, encode, BitVec.toNat_ofNat, hm, beq_self_eq_true, implies_true,
      true_and]
  · exact ⟨by simp; omega, fun s => by simp only [exec, execLitL5, BitVec.toNat_ofNat, hm]⟩
  · exact ⟨by simp; omega, fun s => by simp only [exec, execLitL6, BitVec.toNat_ofNat, hm]⟩
  · exact ⟨by simp; omega, fun s => by simp only [exec, execLitL7, BitVec.toNat_ofNat, hm]⟩
  · exact fun s => by simp only [exec, execLitL8, BitVec.toNat_ofNat, hm]

/-- R95: the escaped literal of each width. -/
theorem escapeOf_ok {l : Nat} {x : Byte} {i : Instr} (h : escapeOf l x.toNat = .ok i) :
    i.wellFormed = true ∧ (∀ w, i.validUnder w l = true) ∧ encode i = .token (escapeBitsOf l x) ∧
      ∀ s, exec i s = onDmp (carryEscaped l x) s := by
  unfold escapeOf at h
  split at h
  all_goals first | (injection h with h; subst h) | (simp at h)
  all_goals
    simp only [Instr.wellFormed, Instr.validUnder, encode, BitVec.ofNat_toNat, BitVec.setWidth_eq, beq_self_eq_true,
      implies_true, true_and, exec, execEscL5, execEscL6, execEscL7]

/-- R96: the match of each width. -/
theorem matchOf_ok {w d : Nat} {n : Nibble} {i : Instr} (h : matchOf w d n.toNat = .ok i) (hd : d < 2 ^ w) :
    i.wellFormed = true ∧ (∀ l, i.validUnder w l = true) ∧ encode i = .token (matchBitsOf w d n) ∧
      ∀ s, exec i s = onDmp (carryMatch w d n) s := by
  unfold matchOf at h
  split at h
  all_goals first | (injection h with h; subst h) | (simp at h)
  all_goals
    have hm := Nat.mod_eq_of_lt hd
    simp only [Instr.wellFormed, Instr.validUnder, encode, BitVec.ofNat_toNat, BitVec.setWidth_eq, beq_self_eq_true,
      implies_true, true_and, exec, execMatchW8, execMatchW9, execMatchW10, execMatchW11, execMatchW12, execMatchW13,
      execMatchW14, execMatchW15, BitVec.toNat_ofNat, hm]

/-- Every supported width has its short literal, its escape (below 8) and its match. -/
theorem literalOf_total {l : Nat} (c : Nat) (h : Config.legalL l) : ∃ i, literalOf l c = .ok i := by
  obtain ⟨h1, h2⟩ := h
  interval_cases l <;> exact ⟨_, rfl⟩

theorem escapeOf_total {l : Nat} (r : Nat) (h : Config.legalL l) (h8 : l < 8) : ∃ i, escapeOf l r = .ok i := by
  obtain ⟨h1, h2⟩ := h
  interval_cases l <;> exact ⟨_, rfl⟩

theorem matchOf_total {w : Nat} (d n : Nat) (h : Config.legalW w) : ∃ i, matchOf w d n = .ok i := by
  obtain ⟨h1, h2⟩ := h
  interval_cases w <;> exact ⟨_, rfl⟩

/-- R99: what the decoder reads is well-formed and valid there, and the bits it took are its encoding. -/
theorem decodeToken_sound {w l : Nat} {bits rest : List Bool} {i : Instr} (h : decodeToken w l bits = .ok (i, rest)) :
    i.wellFormed = true ∧ i.validUnder w l = true ∧ ∃ tok, encode i = .token tok ∧ bits = tok ++ rest := by
  obtain ⟨-, -, f⟩ := decodeToken_form h
  cases f with
  | short c lt plain is hb =>
    obtain ⟨h1, h2, h3, -⟩ := literalOf_ok is lt plain
    exact ⟨h1, h2 w, _, h3, hb⟩
  | escaped x lt is hb =>
    obtain ⟨h1, h2, h3, -⟩ := escapeOf_ok is
    exact ⟨h1, h2 w, _, h3, hb⟩
  | matched d n lt is hb =>
    obtain ⟨h1, h2, h3, -⟩ := matchOf_ok is lt
    exact ⟨h1, h2 l, _, h3, hb⟩

/-- R103: 20 bits always hold a token. -/
theorem decodeToken_total {w l : Nat} {bits : List Bool} (hw : Config.legalW w) (hl : Config.legalL l)
    (h : 20 ≤ bits.length) : ∃ i rest, decodeToken w l bits = .ok (i, rest) := by
  have hw2 := hw.2
  have hl2 := hl.2
  unfold decodeToken
  rw [if_neg (not_not.mpr ⟨hw, hl⟩)]
  cases bits with
  | nil => simp at h
  | cons b t =>
    simp only [List.length_cons] at h
    cases b with
    | true =>
      simp only [if_neg (show ¬ t.length < l by omega)]
      split
      · rename_i he
        rw [if_neg (by omega)]
        obtain ⟨i, hi⟩ := escapeOf_total (valueOf ((t.drop l).take 8)) hl he.1
        exact ⟨i, _, by rw [hi]; rfl⟩
      · obtain ⟨i, hi⟩ := literalOf_total (valueOf (t.take l)) hl
        exact ⟨i, _, by rw [hi]; rfl⟩
    | false =>
      have hlen : ¬ t.length < w + Config.lenBits := by simp only [Config.lenBits]; omega
      simp only [if_neg hlen]
      obtain ⟨i, hi⟩ := matchOf_total (valueOf (t.take w)) (valueOf ((t.drop w).take Config.lenBits)) hw
      exact ⟨i, _, by rw [hi]; rfl⟩

end Sys2Proof.Machine
end

