-- ==== Sys2Proof/Laws/Codec.lean ====
section
/-! SUPPORT. What one encode step does, forwards (45_match_search_engine.md R235), and what a token at the cursor does to
the decompressor (46_decompressor_state_machine.md R264 to R266). -/

namespace Sys2Proof.Machine

/-- R97: the distance and the length a match's fields carry. -/
theorem distanceOf_eq (d : Nat) (h : d < 2 ^ 15) : distanceOf d = .ofNat 16 (d + 1) := by
  apply BitVec.eq_of_toNat_eq
  rw [distanceOf_toNat d h, BitVec.toNat_ofNat]
  omega

theorem lengthOf_eq (n : Nibble) : lengthOf n = .ofNat 5 (n.toNat + 2) := by
  have := n.isLt
  apply BitVec.eq_of_toNat_eq
  rw [lengthOf_toNat, BitVec.toNat_ofNat]
  omega

/-! ## The encode step -/

/-- The bytes a step encodes (R235). -/
def stepBytes (c : Cmp) (len : Nat) : List Byte := if len < 2 then [c.la.getD 0 0] else c.la.take len

/-- The bits a step emits (R235). -/
def stepBits (c : Cmp) (len dist : Nat) : List Bool :=
  if len < 2 then literalCode c.ccfgL.toNat (c.la.getD 0 0)
  else matchBitsOf c.ccfgW.toNat (dist - 1) (.ofNat 4 (len - 2))

/-- Everything an encode step does, from any lookahead of 1 to 17 bytes. -/
structure EncodeDone (c c' : Cmp) (len dist : Nat) : Prop where
  found : search c = .ok (len, dist)
  best : Best c.cwin (lookahead c) c.cwin.fill (len, dist)
  wrote : Wrote c.bse c'.bse (stepBits c len dist)
  count : (stepBytes c len).length = if len < 2 then 1 else len
  fits : (stepBytes c len).length ≤ c.laN
  taken : stepBytes c len = c.la.take (stepBytes c len).length
  after : c' = dropEncoded (stepBytes c len).length { c with bse := c'.bse, cwin := pushAll c.cwin (stepBytes c len) }

/-- R235: with a stream open and something to encode, the step completes. -/
theorem encodeStep_ok {c : Cmp} (hb : c.bse.Inv) (hw : c.cwin.Inv) (hl : c.la.length = 17) (hn : c.laN ≤ 17)
    (h1 : 1 ≤ c.laN) (ho : c.cstate = .opened) (hf : c.bse.flushed = false) (hs : c.cwin.bits = c.ccfgW.toNat)
    (hcw : Config.legalW c.ccfgW.toNat) (hcl : Config.legalL c.ccfgL.toNat) :
    ∃ c' len dist, encodeStep c = .ok c' ∧ EncodeDone c c' len dist := by
  obtain ⟨⟨len, dist⟩, hfound, hbest⟩ := search_ok c hw
  obtain ⟨b1, b2, b3⟩ := hbest.bounds hl
  simp only at b1 b2 b3
  have hc : ¬ (c.cstate ≠ .opened ∨ c.laN < 1) := by
    rintro (h | h)
    · exact h ho
    · omega
  by_cases hlen : len < 2
  · obtain ⟨b, he, hwr⟩ := emitLiteral_ok c.ccfgL.toNat (c.la.getD 0 0) c.bse hb hf hcl
    refine ⟨dropEncoded 1 { c with bse := b, cwin := push c.cwin (c.la.getD 0 0) }, len, dist, ?_, hfound, hbest,
      ?_, ?_, ?_, ?_, ?_⟩
    · rw [encodeStep, if_neg hc, hfound, Step.ok_bind]
      simp only [if_pos (show len < Config.minMatch from hlen), he, Step.ok_bind, Step.pure_ok]
    · simpa [stepBits, hlen] using hwr
    · simp [stepBytes, hlen]
    · simp only [stepBytes, if_pos hlen, List.length_singleton]; omega
    · simp only [stepBytes, if_pos hlen, List.length_singleton]
      cases hla : c.la with
      | nil => rw [hla] at hl; simp at hl
      | cons x t => simp
    · simp [stepBytes, hlen, pushAll, dropEncoded]
  · obtain ⟨h2, h3, h4⟩ := b3 (by omega)
    have hd : dist ≤ 2 ^ c.ccfgW.toNat := by
      have := hw.filled
      rw [Window.size, hs] at this
      omega
    obtain ⟨b, he, hwr⟩ := emitMatch_ok c.ccfgW.toNat dist len c.bse hb hf hcw h2 hd (by omega) b2
    refine ⟨dropEncoded len { c with bse := b, cwin := pushAll c.cwin (c.la.take len) }, len, dist, ?_, hfound, hbest,
      ?_, ?_, ?_, ?_, ?_⟩
    · rw [encodeStep, if_neg hc, hfound, Step.ok_bind]
      simp only [if_neg (show ¬ len < Config.minMatch from hlen), he, Step.ok_bind, Step.pure_ok]
    · simpa [stepBits, hlen] using hwr
    · simp only [stepBytes, if_neg hlen, List.length_take, hl]; omega
    · simp only [stepBytes, if_neg hlen, List.length_take, hl]; omega
    · simp only [stepBytes, if_neg hlen, List.length_take, hl]
      rw [Nat.min_eq_left (by omega)]
    · simp only [stepBytes, if_neg hlen, List.length_take, hl]
      rw [Nat.min_eq_left (show len ≤ 17 by omega), dropEncoded_bse]

/-- R235, the loop of R238: as many turns as bytes empty the lookahead. -/
theorem drain_ok {n : Nat} {c : Cmp} (hi : c.Inv) (ho : c.cstate = .opened) (hf : c.bse.flushed = false)
    (hs : c.cwin.bits = c.ccfgW.toNat) (hn : c.laN ≤ n) :
    ∃ c', drain n c = .ok c' ∧ c'.laN = 0 ∧ c'.bse.flushed = false := by
  induction n generalizing c with
  | zero => exact ⟨c, rfl, by omega, hf⟩
  | succ n ih =>
    unfold drain
    by_cases h0 : c.laN = 0
    · rw [if_pos h0]; exact ⟨c, rfl, h0, hf⟩
    · rw [if_neg h0]
      have ha := hi.ahead
      simp only [Config.laDepth] at ha
      obtain ⟨c1, len, dist, he, hd⟩ := encodeStep_ok hi.bse hi.cwin hi.cells (by omega) (by omega) ho hf hs
        (hi.opened ho).1 (hi.opened ho).2
      obtain ⟨k1, k2, -, k4, k5, -, -, k8⟩ := encodeStep_keeps he hi.busy
      rw [he, Step.ok_bind]
      exact ih k1 (by rw [k4, ho]) hd.wrote.open' (by rw [k8, k5, hs]) (by omega)

/-! ## Tokens at the cursor -/

/-- A token begins with a set bit or is longer than padding, so it is never taken for padding (R100, R101). -/
theorem tailIsPad_eq_false_of_literal {b : Bsd} {rest : List Bool} (h : pendingBits b = true :: rest) :
    tailIsPad b = false := by
  have ha := avail_of_pending (x := true :: rest) (y := []) (by simpa using h)
  have hp : peekBits b (avail b) 0 ≠ 0 := by
    rw [peekBits_eq _ _ _ (by omega), List.drop_zero, ← pendingBits_length, List.take_length, h, Ne, valueOf_eq_zero]
    simp
  simp [tailIsPad, hp]

theorem tailIsPad_eq_false_of_long {b : Bsd} (h : 8 ≤ avail b) : tailIsPad b = false := by
  simp only [tailIsPad, Bool.and_eq_false_iff, decide_eq_false_iff_not]
  exact .inl (.inr (by omega))

/-- R100: at most 7 zero bits at the end are padding. -/
theorem tailIsPad_of_pending {b : Bsd} {k : Nat} (he : b.eof = true) (hk : k ≤ 7)
    (h : pendingBits b = List.replicate k false) : tailIsPad b = true := by
  have ha : avail b = k := by rw [← pendingBits_length, h, List.length_replicate]
  simp only [tailIsPad, he, ha, hk, decide_true, Bool.true_and, beq_iff_eq]
  rw [peekBits_eq _ _ _ (by omega), h]
  simp [valueOf_replicate_false]

/-- R264, R265: a literal of `k` bits, carried out in full. -/
theorem carryLiteral_ok {l k : Nat} {x : Byte} {d : Dmp} (hs : d.dstate = .readingToken) (hl : d.dcfgL.toNat = l)
    (hk : k ≤ avail d.bsd) :
    carryLiteral l x k d = .ok ({ d with
      bsd := { d.bsd with rpos := d.bsd.rpos + k }, tokKind := true, tokByte := x, rout := d.rout ++ [x],
      dwin := push d.dwin x, dstate := .readingToken }, .done .none) := by
  have h : ¬ k > avail d.bsd := by omega
  have hc : ¬ (d.dstate ≠ .readingToken ∨ d.dcfgL.toNat ≠ l) := by simp [hs, hl]
  simp only [carryLiteral, if_neg hc, latchLiteral, skipBits, if_neg h, Step.ok_bind, Step.pure_ok, Step.map_ok_eq,
    appendLiteral]

/-- The bits left when the cursor moves on. -/
theorem pendingBits_skip {b : Bsd} {x y : List Bool} (h : pendingBits b = x ++ y) :
    pendingBits { b with rpos := b.rpos + x.length } = y := by
  unfold pendingBits at h ⊢
  simp only
  rw [← List.drop_drop, h, List.drop_left' rfl]

/-- R192, R212: reading back what the emitter writes for a byte. -/
theorem parseToken_literalCode {w l : Nat} {x : Byte} {b : Bsd} {rest : List Bool} (hl : Config.legalL l)
    (h : pendingBits b = literalCode l x ++ rest) : parseToken w l b = .literal x (literalCode l x).length := by
  have hx := x.isLt
  have h8 := hl.2
  unfold literalCode at h ⊢
  by_cases hc : covered l x = true
  · rw [if_pos hc] at h ⊢
    simp only [covered, Bool.or_eq_true, beq_iff_eq, decide_eq_true_eq] at hc
    have hlt : x.toNat < 2 ^ l := by
      rcases hc with hc | hc
      · rw [hc]; exact hx
      · omega
    rw [parseToken_short h hlt (by rcases hc with hc | hc <;> omega)]
    simp only [literalBitsOf, List.length_cons, bitsOf_length, literalByte, BitVec.ofNat_toNat, BitVec.setWidth_eq]
    rw [Nat.add_comm]
  · rw [if_neg hc] at h ⊢
    simp only [covered, Bool.or_eq_true, beq_iff_eq, decide_eq_true_eq] at hc
    rw [parseToken_escaped h (by omega)]
    simp only [escapeBitsOf, List.length_cons, List.length_append, bitsOf_length]
    rw [show 1 + l + 8 = l + 8 + 1 by omega]

end Sys2Proof.Machine
end

