-- ==== Sys2Proof/Laws/PerInstr.lean ====
section
/-! SUPPORT. Statements made per instruction. The family `RoundTrip`: decoding the encoding of a well-formed instruction
gives it back, with every bit that follows it untouched (30_encoding.md R99, 44_token_interpreter.md R213 a). -/

namespace Sys2Proof.Laws.RoundTrip

/-- What decode and encode agree on for one instruction, by the kind of encoding it has. A token is read under every
pair of configuration values it is valid under, whatever bits follow. -/
def Agrees (i : Instr) : Encoded → Prop
  | .header bits => ∀ rest, decodeHeader (bits ++ rest) = .ok (i, rest)
  | .token bits => ∀ w l rest, Config.legalW w → Config.legalL l → i.validUnder w l = true →
      decodeToken w l (bits ++ rest) = .ok (i, rest)
  | .tail bits => decodeTail bits = .ok i
  | .port p => decodePort p = .ok i

/-- The family's statement. -/
def Statement (i : Instr) : Prop := i.wellFormed = true → Agrees i (encode i)

theorem hdr (v w l : Nibble) (k : BitVec 1) (r : BitVec 3) : Statement (.hdr v w l k r) := fun _ rest => decodeHeader_headerBitsOf v w l k r rest

theorem litL5 (c : BitVec 5) : Statement (.litL5 c) := by
  intro h w l rest hw hl hv
  obtain rfl : l = 5 := by simpa [Instr.validUnder] using hv
  exact decodeToken_literal w 5 c.toNat _ rest hw hl c.isLt (by simpa [Instr.wellFormed] using h) (by simp [literalOf])

theorem litL6 (c : BitVec 6) : Statement (.litL6 c) := by
  intro h w l rest hw hl hv
  obtain rfl : l = 6 := by simpa [Instr.validUnder] using hv
  exact decodeToken_literal w 6 c.toNat _ rest hw hl c.isLt (by simpa [Instr.wellFormed] using h) (by simp [literalOf])

theorem litL7 (c : BitVec 7) : Statement (.litL7 c) := by
  intro h w l rest hw hl hv
  obtain rfl : l = 7 := by simpa [Instr.validUnder] using hv
  exact decodeToken_literal w 7 c.toNat _ rest hw hl c.isLt (by simpa [Instr.wellFormed] using h) (by simp [literalOf])

theorem litL8 (c : BitVec 8) : Statement (.litL8 c) := by
  intro _ w l rest hw hl hv
  obtain rfl : l = 8 := by simpa [Instr.validUnder] using hv
  exact decodeToken_literal w 8 c.toNat _ rest hw hl c.isLt (by simp) (by simp [literalOf])

theorem escL5 (r : Byte) : Statement (.escL5 r) := by
  intro _ w l rest hw hl hv
  obtain rfl : l = 5 := by simpa [Instr.validUnder] using hv
  exact decodeToken_escape w 5 r _ rest hw hl (by omega) (by simp [escapeOf])

theorem escL6 (r : Byte) : Statement (.escL6 r) := by
  intro _ w l rest hw hl hv
  obtain rfl : l = 6 := by simpa [Instr.validUnder] using hv
  exact decodeToken_escape w 6 r _ rest hw hl (by omega) (by simp [escapeOf])

theorem escL7 (r : Byte) : Statement (.escL7 r) := by
  intro _ w l rest hw hl hv
  obtain rfl : l = 7 := by simpa [Instr.validUnder] using hv
  exact decodeToken_escape w 7 r _ rest hw hl (by omega) (by simp [escapeOf])

theorem matchW8 (d : BitVec 8) (n : Nibble) : Statement (.matchW8 d n) := by
  intro _ w l rest hw hl hv
  obtain rfl : w = 8 := by simpa [Instr.validUnder] using hv
  exact decodeToken_match 8 l d.toNat n _ rest hw hl d.isLt (by simp [matchOf])

theorem matchW9 (d : BitVec 9) (n : Nibble) : Statement (.matchW9 d n) := by
  intro _ w l rest hw hl hv
  obtain rfl : w = 9 := by simpa [Instr.validUnder] using hv
  exact decodeToken_match 9 l d.toNat n _ rest hw hl d.isLt (by simp [matchOf])

theorem matchW10 (d : BitVec 10) (n : Nibble) : Statement (.matchW10 d n) := by
  intro _ w l rest hw hl hv
  obtain rfl : w = 10 := by simpa [Instr.validUnder] using hv
  exact decodeToken_match 10 l d.toNat n _ rest hw hl d.isLt (by simp [matchOf])

theorem matchW11 (d : BitVec 11) (n : Nibble) : Statement (.matchW11 d n) := by
  intro _ w l rest hw hl hv
  obtain rfl : w = 11 := by simpa [Instr.validUnder] using hv
  exact decodeToken_match 11 l d.toNat n _ rest hw hl d.isLt (by simp [matchOf])

theorem matchW12 (d : BitVec 12) (n : Nibble) : Statement (.matchW12 d n) := by
  intro _ w l rest hw hl hv
  obtain rfl : w = 12 := by simpa [Instr.validUnder] using hv
  exact decodeToken_match 12 l d.toNat n _ rest hw hl d.isLt (by simp [matchOf])

theorem matchW13 (d : BitVec 13) (n : Nibble) : Statement (.matchW13 d n) := by
  intro _ w l rest hw hl hv
  obtain rfl : w = 13 := by simpa [Instr.validUnder] using hv
  exact decodeToken_match 13 l d.toNat n _ rest hw hl d.isLt (by simp [matchOf])

theorem matchW14 (d : BitVec 14) (n : Nibble) : Statement (.matchW14 d n) := by
  intro _ w l rest hw hl hv
  obtain rfl : w = 14 := by simpa [Instr.validUnder] using hv
  exact decodeToken_match 14 l d.toNat n _ rest hw hl d.isLt (by simp [matchOf])

theorem matchW15 (d : BitVec 15) (n : Nibble) : Statement (.matchW15 d n) := by
  intro _ w l rest hw hl hv
  obtain rfl : w = 15 := by simpa [Instr.validUnder] using hv
  exact decodeToken_match 15 l d.toNat n _ rest hw hl d.isLt (by simp [matchOf])

theorem pad (k : Nat) : Statement (.pad k) := by
  intro h
  have hk : k ≤ 7 := by simpa [Instr.wellFormed] using h
  simp [Agrees, encode, decodeTail, hk]

theorem bseClear : Statement .bseClear := fun _ => rfl

theorem bseWriteBits (value : Half) (nBits : Five) : Statement (.bseWriteBits value nBits) := fun _ => rfl

theorem bseFlush : Statement .bseFlush := fun _ => rfl

theorem bsdClear : Statement .bsdClear := fun _ => rfl

theorem bsdFeed (b : Byte) : Statement (.bsdFeed b) := by
  intro _
  simp only [Agrees, encode, decodePort]
  have : (b.setWidth 16).setWidth 8 = b := by apply BitVec.eq_of_toNat_eq; simp
  simp [this]

theorem bsdEnd : Statement .bsdEnd := fun _ => rfl

theorem bsdReadBits (nBits : Five) : Statement (.bsdReadBits nBits) := fun _ => rfl

theorem bsdSkipBits (n : Five) : Statement (.bsdSkipBits n) := fun _ => rfl

theorem bsdAvail : Statement .bsdAvail := fun _ => rfl

theorem bsdPeekBits (nBits off : Five) : Statement (.bsdPeekBits nBits off) := by
  intro _
  have : (off.setWidth 16).setWidth 5 = off := by apply BitVec.eq_of_toNat_eq; simp
  simp [Agrees, encode, decodePort, this]

theorem bsdTailIsPad : Statement .bsdTailIsPad := fun _ => rfl

theorem swdClear (i : Win) (w : Nat) : Statement (.swdClear i w) := by
  intro h
  have hw : w < 16 := by simpa [Instr.wellFormed] using h
  have h2 : w % 65536 % 16 = w := by omega
  cases i <;> simp [Agrees, encode, decodePort, h2]

theorem swdPush (i : Win) (b : Byte) : Statement (.swdPush i b) := by
  intro _
  have : (b.setWidth 16).setWidth 8 = b := by apply BitVec.eq_of_toNat_eq; simp
  cases i <;> simp [Agrees, encode, decodePort, this]

theorem swdCopy (distance : Half) (length : Five) : Statement (.swdCopy distance length) := fun _ => rfl

theorem swdHist (i : Win) (d : Half) : Statement (.swdHist i d) := by
  intro _
  cases i <;> rfl

theorem temEmitHeader (w l : Nibble) : Statement (.temEmitHeader w l) := by
  intro _
  have h1 : (w.setWidth 16).setWidth 4 = w := by apply BitVec.eq_of_toNat_eq; simp
  have h2 : (l.setWidth 5).setWidth 4 = l := by apply BitVec.eq_of_toNat_eq; simp
  simp [Agrees, encode, decodePort, h1, h2]

theorem temEmitLiteral (b : Byte) : Statement (.temEmitLiteral b) := by
  intro _
  simp only [Agrees, encode, decodePort]
  have : (b.setWidth 16).setWidth 8 = b := by apply BitVec.eq_of_toNat_eq; simp
  simp [this]

theorem temEmitMatch (distance : Half) (length : Five) : Statement (.temEmitMatch distance length) := fun _ => rfl

theorem tinParseHeader : Statement .tinParseHeader := fun _ => rfl

theorem tinParseToken : Statement .tinParseToken := fun _ => rfl

theorem mseSearch : Statement .mseSearch := fun _ => rfl

theorem csqEncodeStep : Statement .csqEncodeStep := fun _ => rfl

theorem cReset : Statement .cReset := fun _ => rfl

theorem cOpen (w l : Nat) : Statement (.cOpen w l) := by
  intro h
  have hw : w < 16 ∧ l < 16 := by simpa [Instr.wellFormed] using h
  have h2 : w % 65536 % 16 = w := by omega
  have h3 : l % 32 % 16 = l := by omega
  simp [Agrees, encode, decodePort, h2, h3]

theorem cWrite (b : Byte) : Statement (.cWrite b) := by
  intro _
  simp only [Agrees, encode, decodePort]
  have : (b.setWidth 16).setWidth 8 = b := by apply BitVec.eq_of_toNat_eq; simp
  simp [this]

theorem cClose : Statement .cClose := fun _ => rfl

theorem dReset : Statement .dReset := fun _ => rfl

theorem dFeed (b : Byte) : Statement (.dFeed b) := by
  intro _
  simp only [Agrees, encode, decodePort]
  have : (b.setWidth 16).setWidth 8 = b := by apply BitVec.eq_of_toNat_eq; simp
  simp [this]

theorem dEnd : Statement .dEnd := fun _ => rfl

theorem dStep : Statement .dStep := fun _ => rfl

theorem reservedDOp3 : Statement .reservedDOp3 := fun _ => rfl

theorem noneBse : Statement .noneBse := fun _ => rfl

theorem noneBsd : Statement .noneBsd := fun _ => rfl

theorem noneSwd (i : Win) : Statement (.noneSwd i) := by
  intro _
  cases i <;> rfl

theorem noneTem : Statement .noneTem := fun _ => rfl

theorem noneCOp : Statement .noneCOp := fun _ => rfl

theorem noneDOp : Statement .noneDOp := fun _ => rfl

theorem reservedBsdOp (low : BitVec 1) : Statement (.reservedBsdOp low) := by
  intro _
  have h := low.isLt
  obtain rfl | rfl : low = 0 ∨ low = 1 := by
    rcases (by omega : low.toNat = 0 ∨ low.toNat = 1) with h | h
    · exact .inl (BitVec.eq_of_toNat_eq h)
    · exact .inr (BitVec.eq_of_toNat_eq h)
  all_goals rfl

end Sys2Proof.Laws.RoundTrip
end

