-- ==== Sys2Proof/Tests/Slice0.lean ====
section
/-! SUPPORT. Tests. Expected results come from spec/95_test_vectors.md (the vector is named at each test) or are worked by
hand from the encodings of 30_encoding.md. The last part shows, for each statement that has hypotheses, a state and
operands that meet them. -/

namespace Sys2Proof.Tests

open Sys2Proof.Machine

/-! ## Helpers -/

/-- Bits written out. -/
def bits (l : List Nat) : List Bool := l.map (· == 1)

/-- Bytes written out. -/
def bytes (l : List Nat) : List Byte := l.map (BitVec.ofNat 8)

/-- The state a script leaves. -/
def after (is : List Instr) (s : State := State.reset) : State :=
  match runScript is s with
  | .next t => t
  | _ => s

/-- The state an outcome holds, and the refusal. -/
def next? : Host.Outcome State Fault Refusal → Option State
  | .next t => some t
  | _ => none
def refusal? : Host.Outcome State Fault Refusal → Option Refusal
  | .refused r => some r
  | _ => none

/-- A window of 2^8 cells that holds these bytes. -/
def demoWindow (h : List Byte) : Window := pushAll (clearWindow Window.reset 8) h

/-- A compressor with an open stream under the pair (8, 5). -/
def demoCmp (h la : List Byte) : Cmp :=
  { Cmp.reset with cwin := demoWindow h, ccfgW := 8, ccfgL := 5, cstate := .opened,
                   la := la ++ List.replicate (17 - la.length) 0, laN := la.length }

/-- A decompressor under the pair (`w`, `l`). -/
def demoDmp (h : List Byte) (w l : Nibble) (st : DState) (ibuf : List Byte) (rpos : Nat) (eof : Bool) : Dmp :=
  { Dmp.reset with dwin := demoWindow h, dcfgW := w, dcfgL := l, dstate := st,
                   bsd := { ibuf := ibuf, rpos := rpos, eof := eof } }

/-- A state whose two windows hold `h`, the compressor about to encode `la`, the decompressor at a token boundary. -/
def demo (h la : List Byte) (ibuf : List Byte) (eof : Bool) : State :=
  { State.reset with cmp := demoCmp h la, dmp := demoDmp h 8 5 .readingToken ibuf 0 eof }

/-! ## WellFormed refuses each ill-formed term -/

theorem test_wf_header : (Instr.hdr 1 10 8 0 0).wellFormed = true := by decide
theorem test_wf_header_version : (Instr.hdr 2 10 8 0 0).wellFormed = false := by decide
theorem test_wf_header_window : (Instr.hdr 1 7 8 0 0).wellFormed = false := by decide
theorem test_wf_header_literal_low : (Instr.hdr 1 10 4 0 0).wellFormed = false := by decide
theorem test_wf_header_literal_high : (Instr.hdr 1 10 9 0 0).wellFormed = false := by decide
theorem test_wf_header_size_known : (Instr.hdr 1 10 8 1 0).wellFormed = false := by decide
theorem test_wf_header_reserved : (Instr.hdr 1 10 8 0 4).wellFormed = false := by decide
theorem test_wf_escape_code_5 : (Instr.litL5 31).wellFormed = false := by decide
theorem test_wf_escape_code_6 : (Instr.litL6 63).wellFormed = false := by decide
theorem test_wf_escape_code_7 : (Instr.litL7 127).wellFormed = false := by decide
theorem test_wf_no_escape_at_8 : (Instr.litL8 255).wellFormed = true := by decide
theorem test_wf_padding : (Instr.pad 8).wellFormed = false := by decide
theorem test_wf_clear_operand : (Instr.swdClear .cwin 16).wellFormed = false := by decide
theorem test_wf_open_window : (Instr.cOpen 16 8).wellFormed = false := by decide
theorem test_wf_open_literal : (Instr.cOpen 10 16).wellFormed = false := by decide

/-! ## Decoding: words written out from R91 to R100 -/

/-- V40: `1A 80`. -/
theorem test_decode_hdr : decodeHeader (bits [0,0,0,1, 1,0,1,0, 1,0,0,0, 0, 0,0,0]) = .ok (.hdr 1 10 8 0 0, []) := by
  decide
/-- V50: `2A 80`, read as a header of version 2. -/
theorem test_decode_hdr_bad : decodeHeader (bits [0,0,1,0, 1,0,1,0, 1,0,0,0, 0, 0,0,0]) = .ok (.hdr 2 10 8 0 0, []) := by
  decide
/-- V41. -/
theorem test_decode_litL5 : decodeToken 8 5 (bits [1, 1,1,1,1,0]) = .ok (.litL5 0x1E, []) := by decide
theorem test_decode_litL6 : decodeToken 8 6 (bits [1, 1,1,1,1,1,0]) = .ok (.litL6 0x3E, []) := by decide
theorem test_decode_litL7 : decodeToken 8 7 (bits [1, 1,0,0,0,0,0,1]) = .ok (.litL7 0x41, []) := by decide
theorem test_decode_litL8 : decodeToken 8 8 (bits [1, 0,1,0,0,0,0,0,1]) = .ok (.litL8 0x41, []) := by decide
theorem test_decode_escL5 : decodeToken 8 5 (bits [1, 1,1,1,1,1, 0,0,0,1,1,1,1,1]) = .ok (.escL5 0x1F, []) := by decide
theorem test_decode_escL6 : decodeToken 8 6 (bits [1, 1,1,1,1,1,1, 0,0,1,1,1,1,1,1]) = .ok (.escL6 0x3F, []) := by
  decide
theorem test_decode_escL7 : decodeToken 8 7 (bits [1, 1,1,1,1,1,1,1, 1,0,0,0,0,0,0,0]) = .ok (.escL7 0x80, []) := by
  decide
/-- V42 and the field widths of R96. -/
theorem test_decode_matchW8 : decodeToken 8 5 (bits [0, 1,1,1,1,1,1,1,1, 1,1,1,1]) = .ok (.matchW8 255 15, []) := by
  decide
theorem test_decode_matchW9 : decodeToken 9 5 (bits [0, 0,0,0,0,0,0,0,1,1, 0,0,1,0]) = .ok (.matchW9 3 2, []) := by
  decide
theorem test_decode_matchW10 : decodeToken 10 8 (bits [0, 0,0,0,0,0,1,0,0,0,0, 1,1,1,1]) = .ok (.matchW10 16 15, []) := by
  decide
theorem test_decode_matchW11 :
    decodeToken 11 8 (bits [0, 1,0,0,0,0,0,0,0,0,0,1, 1,0,0,0]) = .ok (.matchW11 1025 8, []) := by decide
theorem test_decode_matchW12 :
    decodeToken 12 8 (bits [0, 0,0,1,1,1,1,1,0,0,1,1,1, 0,1,1,1]) = .ok (.matchW12 999 7, []) := by decide
theorem test_decode_matchW13 :
    decodeToken 13 8 (bits [0, 1,0,0,0,0,0,0,0,0,0,0,0,0, 0,0,0,1]) = .ok (.matchW13 4096 1, []) := by decide
theorem test_decode_matchW14 :
    decodeToken 14 8 (bits [0, 0,0,0,0,0,0,0,0,0,0,0,0,1,0, 0,0,1,1]) = .ok (.matchW14 2 3, []) := by decide
theorem test_decode_matchW15 :
    decodeToken 15 8 (bits [0, 1,1,1,1,1,1,1,1,1,1,1,1,1,1,1, 1,1,1,1]) = .ok (.matchW15 32767 15, []) := by decide
theorem test_decode_pad : decodeTail (bits [0,0,0]) = .ok (.pad 3) := by decide
theorem test_decode_pad_not_zero : decodeTail (bits [0,1]) = .error .notPadding := by decide
theorem test_decode_pad_too_long : decodeTail (bits [0,0,0,0,0,0,0,0]) = .error .notPadding := by decide
/-- V51: six of fourteen bits; and no token outside the supported pairs. -/
theorem test_decode_need_more : decodeToken 8 5 (bits [1, 1,1,1,1,1]) = .error .needMore := by decide
theorem test_decode_bad_pair : decodeToken 7 5 (bits [1, 0,0,0,0,0]) = .error .badConfiguration := by decide

/-! ## Decoding: the select codes of R108 -/

theorem test_port_bse_none : decodePort ⟨.bseOp, 0, 0, 0⟩ = .ok .noneBse := by decide
theorem test_port_bse_clear : decodePort ⟨.bseOp, 1, 0, 0⟩ = .ok .bseClear := by decide
theorem test_port_bse_write : decodePort ⟨.bseOp, 2, 0x41, 8⟩ = .ok (.bseWriteBits 0x41 8) := by decide
theorem test_port_bse_flush : decodePort ⟨.bseOp, 3, 0, 0⟩ = .ok .bseFlush := by decide
theorem test_port_bsd_none : decodePort ⟨.bsdOp, 0, 0, 0⟩ = .ok .noneBsd := by decide
theorem test_port_bsd_clear : decodePort ⟨.bsdOp, 1, 0, 0⟩ = .ok .bsdClear := by decide
theorem test_port_bsd_feed : decodePort ⟨.bsdOp, 2, 0x80, 0⟩ = .ok (.bsdFeed 0x80) := by decide
theorem test_port_bsd_end : decodePort ⟨.bsdOp, 3, 0, 0⟩ = .ok .bsdEnd := by decide
theorem test_port_bsd_read : decodePort ⟨.bsdOp, 4, 0, 9⟩ = .ok (.bsdReadBits 9) := by decide
theorem test_port_bsd_skip : decodePort ⟨.bsdOp, 5, 0, 20⟩ = .ok (.bsdSkipBits 20) := by decide
theorem test_port_bsd_unused_6 : decodePort ⟨.bsdOp, 6, 0, 0⟩ = .ok (.reservedBsdOp 0) := by decide
theorem test_port_bsd_unused_7 : decodePort ⟨.bsdOp, 7, 0, 0⟩ = .ok (.reservedBsdOp 1) := by decide
theorem test_port_swd_none : decodePort ⟨.dwinOp, 0, 0, 0⟩ = .ok (.noneSwd .dwin) := by decide
theorem test_port_swd_clear : decodePort ⟨.cwinOp, 1, 8, 0⟩ = .ok (.swdClear .cwin 8) := by decide
theorem test_port_swd_push : decodePort ⟨.dwinOp, 2, 0x61, 0⟩ = .ok (.swdPush .dwin 0x61) := by decide
theorem test_port_swd_copy : decodePort ⟨.dwinOp, 3, 256, 17⟩ = .ok (.swdCopy 256 17) := by decide
theorem test_port_swd_copy_cwin : decodePort ⟨.cwinOp, 3, 256, 17⟩ = .error .copyOnCompressorWindow := by decide
theorem test_port_tem_none : decodePort ⟨.temOp, 0, 0, 0⟩ = .ok .noneTem := by decide
theorem test_port_tem_header : decodePort ⟨.temOp, 1, 10, 8⟩ = .ok (.temEmitHeader 10 8) := by decide
theorem test_port_tem_literal : decodePort ⟨.temOp, 2, 0x41, 0⟩ = .ok (.temEmitLiteral 0x41) := by decide
theorem test_port_tem_match : decodePort ⟨.temOp, 3, 1000, 9⟩ = .ok (.temEmitMatch 1000 9) := by decide
theorem test_port_c_reset : decodePort ⟨.cRst, 1, 0, 0⟩ = .ok .cReset := by decide
theorem test_port_c_reset_idle : decodePort ⟨.cRst, 0, 0, 0⟩ = .error .resetNotAsserted := by decide
theorem test_port_c_none : decodePort ⟨.cOp, 0, 0, 0⟩ = .ok .noneCOp := by decide
theorem test_port_c_open : decodePort ⟨.cOp, 1, 10, 8⟩ = .ok (.cOpen 10 8) := by decide
theorem test_port_c_write : decodePort ⟨.cOp, 2, 0x61, 0⟩ = .ok (.cWrite 0x61) := by decide
theorem test_port_c_close : decodePort ⟨.cOp, 3, 0, 0⟩ = .ok .cClose := by decide
theorem test_port_c_no_code : decodePort ⟨.cOp, 4, 0, 0⟩ = .error .noSuchCode := by decide
theorem test_port_d_reset : decodePort ⟨.dRst, 1, 0, 0⟩ = .ok .dReset := by decide
theorem test_port_d_none : decodePort ⟨.dOp, 0, 0, 0⟩ = .ok .noneDOp := by decide
theorem test_port_d_feed : decodePort ⟨.dOp, 1, 0x1A, 0⟩ = .ok (.dFeed 0x1A) := by decide
theorem test_port_d_end : decodePort ⟨.dOp, 2, 0, 0⟩ = .ok .dEnd := by decide
theorem test_port_d_unused : decodePort ⟨.dOp, 3, 0, 0⟩ = .ok .reservedDOp3 := by decide
theorem test_port_lines :
    [Port.availLine, .peekLine, .tailLine, .cwinHistLine, .dwinHistLine, .parseHeaderLine, .parseTokenLine, .searchLine,
      .encodeStepLine, .stepLine].map (fun p => (decodePort ⟨p, 0, 3, 4⟩).toOption) =
    [Instr.bsdAvail, .bsdPeekBits 4 3, .bsdTailIsPad, .swdHist .cwin 3, .swdHist .dwin 3, .tinParseHeader,
      .tinParseToken, .mseSearch, .csqEncodeStep, .dStep].map some := by decide

/-! ## Words as spec/opcode_table.json numbers them -/

theorem test_table_hdr : decodeTableWord 16 0x1A80 = some (.hdr 1 10 8 0 0) := by decide
theorem test_table_lit : decodeTableWord 8 0xC1 = some (.litL7 0x41) := by decide
theorem test_table_esc : decodeTableWord 16 0xFF80 = some (.escL7 0x80) := by decide
theorem test_table_match : decodeTableWord 16 0x4018 = some (.matchW11 1025 8) := by decide
theorem test_table_read : decodeTableWord 8 4 = some (.bsdReadBits 0) := by decide
theorem test_table_open : decodeTableWord 32 0x08000A31 = some (.cOpen 10 8) := by decide
/-- The next step after `withFetchWord` runs the word's instruction. -/
theorem test_fetch_hdr : (next? (step (State.reset.withFetchWord 16 0x1A80))).map
    (fun t => (t.dmp.dstate, t.dmp.dcfgW, t.dmp.dcfgL)) = some (.readingToken, 10, 8) := by decide
theorem test_fetch_feed : (next? (step (State.reset.withFetchWord 32 0x00001A02))).map
    (fun t => t.dmp.bsd.ibuf) = some [0x1A] := by decide

/-! ## bitstream_encoder -/

/-- V1. -/
theorem test_bse_one_bit : (after [.bseClear, .bseWriteBits 1 1, .bseWriteBits 0x41 8]).cmp.bse =
    { acc := 1, nacc := 1, flushed := false, obuf := bytes [0xA0] } := by decide
theorem test_bse_flush : (after [.bseClear, .bseWriteBits 1 1, .bseWriteBits 0x41 8, .bseFlush]).cmp.bse =
    { acc := 0, nacc := 0, flushed := true, obuf := bytes [0xA0, 0x80] } := by decide
/-- V3, V4: only the low bits are taken; bytes leave most significant bit first. -/
theorem test_bse_low_bits : (after [.bseWriteBits 0xFFFF 3, .bseFlush]).cmp.bse.obuf = bytes [0xE0] := by decide
theorem test_bse_across_bytes : (after [.bseWriteBits 5 3, .bseWriteBits 0x3FF 10, .bseWriteBits 0 4]).cmp.bse =
    { acc := 0, nacc := 1, flushed := false, obuf := bytes [0xBF, 0xF8] } := by decide
/-- V8: two bytes out of one write while one bit was pending. -/
theorem test_bse_seventeen_pending :
    (after [.bseWriteBits 0x8001 16, .bseWriteBits 1 1, .bseWriteBits 0x8001 16, .bseFlush]).cmp.bse.obuf =
      bytes [0x80, 0x01, 0xC0, 0x00, 0x80] := by decide
/-- V11. -/
theorem test_bse_flush_of_nothing : (after [.bseClear, .bseFlush]).cmp.bse.obuf = [] := by decide
/-- V9, V10. -/
theorem test_bse_width_0 : refusal? (exec (.bseWriteBits 1 0) State.reset) = some .widthOutOfRange := by decide
theorem test_bse_after_flush : refusal? (exec (.bseWriteBits 1 1) (after [.bseFlush])) = some .alreadyFlushed := by decide

/-! ## bitstream_decoder -/

/-- V20. -/
def v20 : State := after [.bsdClear, .bsdFeed 0x1A, .bsdFeed 0x80, .bsdFeed 0xA0]
theorem test_bsd_avail : (after [.bsdAvail] v20).report = .done (.count 24) := by decide
theorem test_bsd_read : (after [.bsdReadBits 4, .bsdReadBits 4] v20).report = .done (.value 0xA) := by decide
theorem test_bsd_read_moves : (after [.bsdReadBits 4, .bsdReadBits 4, .bsdReadBits 8] v20).dmp.bsd.rpos = 16 := by decide
theorem test_bsd_peek : (after [.bsdSkipBits 16, .bsdPeekBits 8 0] v20).report = .done (.value 0xA0) := by decide
theorem test_bsd_hold : next? (exec (.bsdReadBits 9) (after [.bsdSkipBits 16] v20)) =
    some { after [.bsdSkipBits 16] v20 with report := .hold } := by decide
theorem test_bsd_end_of_stream : (after [.bsdSkipBits 16, .bsdEnd, .bsdReadBits 9] v20).report = .error .endOfStream := by
  decide
/-- V22, V23, V24. -/
theorem test_bsd_pad_needs_eof : (after [.bsdFeed 0xA0, .bsdFeed 0x80, .bsdSkipBits 9, .bsdTailIsPad]).report =
    .done (.flag false) := by decide
theorem test_bsd_pad : (after [.bsdFeed 0xA0, .bsdFeed 0x80, .bsdSkipBits 9, .bsdEnd, .bsdTailIsPad]).report =
    .done (.flag true) := by decide
theorem test_bsd_pad_set_bit : (after [.bsdFeed 0xA0, .bsdFeed 0x81, .bsdEnd, .bsdSkipBits 9, .bsdTailIsPad]).report =
    .done (.flag false) := by decide
theorem test_bsd_pad_eight : (after [.bsdFeed 0, .bsdEnd, .bsdTailIsPad]).report = .done (.flag false) := by decide
/-- V26. -/
theorem test_bsd_split_read : (after [.bsdFeed 0x12, .bsdFeed 0x34, .bsdReadBits 5, .bsdReadBits 11]).report =
    .done (.value 0x234) := by decide
/-- V27, V28. -/
theorem test_bsd_feed_after_end : refusal? (exec (.bsdFeed 0) (after [.bsdEnd])) = some .inputAlreadyEnded := by decide
theorem test_bsd_peek_beyond : refusal? (exec (.bsdPeekBits 4 0) (after [.bsdSkipBits 21] v20)) = some .beyondAvail := by decide

/-! ## sliding_window_dictionary -/

/-- V30. -/
def v30 : State := after [.swdClear .dwin 8, .swdPush .dwin 0x61, .swdPush .dwin 0x62, .swdPush .dwin 0x63]
theorem test_swd_push : v30.dmp.dwin = { buf := [(0, 0x61), (1, 0x62), (2, 0x63)], wr := 3, fill := 3, bits := 8 } := by
  decide
theorem test_swd_hist_newest : (after [.swdHist .dwin 1] v30).report = .done (.byte 0x63) := by decide
theorem test_swd_hist_oldest : (after [.swdHist .dwin 3] v30).report = .done (.byte 0x61) := by decide
theorem test_swd_hist_outside : refusal? (exec (.swdHist .dwin 4) v30) = some .outsideHistory := by decide
/-- V31: the cursor wraps and the fill saturates (the window is written down full, its cell 0 the oldest). -/
theorem test_swd_push_wraps : (push { buf := [(0, 0), (255, 0xFF)], wr := 0, fill := 256, bits := 8 } 7) =
    { buf := [(0, 7), (255, 0xFF)], wr := 1, fill := 256, bits := 8 } := by decide
theorem test_swd_hist_wraps : hist { buf := [(0, 7), (1, 1), (255, 0xFF)], wr := 1, fill := 256, bits := 8 } 2 =
    some 0xFF := by decide
/-- V32. -/
theorem test_swd_copy_overlaps : (after [.swdClear .dwin 8, .swdPush .dwin 0x61, .swdPush .dwin 0x62,
    .swdCopy 2 6]).dmp.rout = bytes [0x61, 0x62, 0x61, 0x62, 0x61, 0x62] := by decide
/-- V35. -/
theorem test_swd_copy_invalid : next? (exec (.swdCopy 4 2) v30) = some { v30 with report := .error .invalidDistance } := by
  decide
/-- V37. -/
theorem test_swd_clear_7 : refusal? (exec (.swdClear .cwin 7) State.reset) = some .windowBitsOutOfRange := by decide
theorem test_swd_copy_0 : refusal? (exec (.swdCopy 0 2) v30) = some .distanceZero := by decide

/-! ## token_emitter -/

/-- The bits an emission adds under a pair, after a header has fixed the pair. -/
def emitted (w l : Nat) (i : Instr) : List Bool := (acceptedBits (after [.cOpen w l, i]).cmp.bse).drop 16
/-- V40. -/
theorem test_tem_header : (after [.temEmitHeader 9 6]).cmp.bse.obuf = bytes [0x19, 0x60] := by decide
/-- V41. -/
theorem test_tem_literal_covered : emitted 8 5 (.temEmitLiteral 0x1E) = bits [1, 1,1,1,1,0] := by decide
theorem test_tem_literal_escaped : emitted 8 5 (.temEmitLiteral 0x1F) = bits [1, 1,1,1,1,1, 0,0,0,1,1,1,1,1] := by decide
/-- V42, V43. -/
theorem test_tem_match : emitted 12 8 (.temEmitMatch 1000 9) = bits [0, 0,0,1,1,1,1,1,0,0,1,1,1, 0,1,1,1] := by decide
theorem test_tem_match_refused : refusal? (exec (.temEmitMatch 257 2) (after [.cOpen 8 8])) = some .matchOutOfRange := by decide

/-! ## token_interpreter -/

/-- The answer of `TIN.PARSE_HEADER` for these bytes, and of `TIN.PARSE_TOKEN` under a pair. -/
def headerAnswer (l : List Nat) : Report := (after ((bytes l).map .bsdFeed ++ [.tinParseHeader])).report
def tokenAnswer (w l : Nibble) (b : List Nat) : Report :=
  (after ((bytes b).map .bsdFeed ++ [.tinParseToken])
    { State.reset with dmp := { Dmp.reset with dcfgW := w, dcfgL := l } }).report
/-- V50. -/
theorem test_tin_header : headerAnswer [0x1A, 0x80] = .done (.header (.header 10 8)) := by decide
theorem test_tin_header_corrupt :
    [[0x2A, 0x80], [0x0A, 0x80], [0x17, 0x80], [0x1A, 0x40], [0x1A, 0x90], [0x1A, 0x88], [0x1A, 0x84], [0x1A, 0x81]].map
      headerAnswer = List.replicate 8 (.done (.header .corrupt)) := by decide
/-- V51. -/
theorem test_tin_token_redundant_escape : tokenAnswer 8 5 [0xFC, 0x14] = .done (.token (.literal 0x05 14)) := by decide
theorem test_tin_token_match : tokenAnswer 10 8 [0x02, 0x1E] = .done (.token (.matched 17 17 15)) := by decide

/-! ## match_search_engine and the compressor -/

/-- The answer of the search for a history and a lookahead. -/
def found (h la : List Nat) : Report := (after [.mseSearch] (demo (bytes h) (bytes la) [] false)).report
/-- V55: capped by the distance, the nearest of equals, the longest, not what follows by accident. -/
theorem test_mse_search :
    [found [] [1, 2], found [1] [1, 1], found [1, 1] [1, 1, 1], found [1, 2, 3, 1, 2, 3] [1, 2, 3, 9],
      found [1, 2, 1, 2] [1, 2, 1, 2, 1, 2], found [1, 2, 3, 4, 5, 1, 2, 3, 4, 9] [1, 2, 3, 4, 5],
      found [1, 8, 2, 1, 9, 2] [1, 2]] =
    [(0, 0), (1, 1), (2, 2), (3, 3), (4, 4), (5, 10), (1, 3)].map fun p => .done (.search p.1 p.2) := by decide
/-- V81, V80. -/
theorem test_c_open : (after [.cReset, .cOpen 10 8]).cmp.bse.obuf = bytes [0x1A, 0x80] := by decide
theorem test_c_open_bad : (after [.cReset, .cOpen 16 8]).cmp.cerr = some .invalidConfiguration := by decide
/-- V82, the step itself: with `la_n = 17`, one literal. -/
theorem test_c_write_full :
    (after (.cOpen 8 8 :: List.replicate 17 (.cWrite 0x61))).cmp.bse =
      { acc := 1, nacc := 1, flushed := false, obuf := bytes [0x18, 0x80, 0xB0] } := by decide
theorem test_csq_encode_step : (after [.cOpen 8 8, .cWrite 0x61, .cWrite 0x62, .csqEncodeStep]).cmp.la.take 1 = [0x62] := by
  decide
/-- P9. -/
theorem test_c_close : (after [.cOpen 8 8, .cWrite 0x61, .cWrite 0x62, .cClose]).cmp.bse.obuf =
    bytes [0x18, 0x80, 0xB0, 0xD8, 0x80] := by decide
/-- V83. -/
theorem test_c_write_closed : refusal? (exec (.cWrite 0) (after [.cOpen 8 8, .cClose])) = some .noStreamOpen := by decide
theorem test_c_open_twice : refusal? (exec (.cOpen 8 8) (after [.cOpen 8 8])) = some .notIdle := by decide

/-! ## decompressor_state_machine and the stream elements -/

/-- P3, the steps one by one. -/
def p3 : State := after ((bytes [0x18, 0x80, 0xB0, 0x80, 0x0C]).map .dFeed ++ [.dEnd])
theorem test_d_step_header : (after [.dStep] p3).dmp.dstate = .readingToken ∧ (after [.dStep] p3).dmp.bsd.rpos = 16 := by
  decide
theorem test_d_step_literal : (after [.dStep, .dStep] p3).dmp.tokByte = 0x61 ∧
    (after [.dStep, .dStep] p3).dmp.dstate = .appendingLiteral := by decide
theorem test_d_step_append : (after [.dStep, .dStep, .dStep] p3).dmp.rout = [0x61] := by decide
theorem test_d_step_match : (after [.dStep, .dStep, .dStep, .dStep] p3).dmp.tokLen = 5 ∧
    (after [.dStep, .dStep, .dStep, .dStep] p3).dmp.bsd.rpos = 38 := by decide
theorem test_d_step_copy : (after [.dStep, .dStep, .dStep, .dStep, .dStep] p3).dmp.rout = List.replicate 6 0x61 := by
  decide
theorem test_d_step_done : (after [.dStep, .dStep, .dStep, .dStep, .dStep, .dStep] p3).dmp.dstate = .done := by decide
/-- P10: a further feed is stored and ignored in `Error`; the step changes nothing. -/
theorem test_d_feed_in_error :
    (after [.dFeed 0x2A, .dFeed 0x80, .dStep, .dFeed 0x55, .dStep]).dmp.derr = some .corruptHeader := by decide
/-- V60 to V69, V70: whole streams. -/
theorem test_decompress_empty : decompress State.reset (bytes [0x1A, 0x80]) = .ok [] := by decide
theorem test_decompress_nothing : decompress State.reset [] = .err .truncatedStream := by decide
theorem test_decompress_invalid : decompress State.reset (bytes [0x1A, 0x80, 0, 0]) = .err .invalidDistance := by decide
theorem test_decompress_overlap : decompress State.reset (bytes [0x18, 0x80, 0xB0, 0xD8, 0x80, 0x28]) =
    .ok (bytes [0x61, 0x62, 0x61, 0x62, 0x61, 0x62, 0x61, 0x62]) := by decide
theorem test_decompress_escape : decompress State.reset (bytes [0x18, 0x50, 0xFC, 0x7C]) = .ok [0x1F] := by decide
/-- P9. -/
theorem test_compress_escape : compress State.reset [0x61] 8 6 = .ok (bytes [0x18, 0x60, 0xFE, 0xC2]) := by decide

/-- A decompressor about to read these bits under a pair. -/
def reading (w l : Nibble) (b : List Nat) : State := State.reset.withUnread (bits b) .readingToken w l
/-- R264, R265 on a short literal, with and without the step's own fetch (V41). -/
theorem test_lit_appends : (after [.litL5 0x1E] (reading 8 5 [1, 1,1,1,1,0])).dmp.rout = [0x1E] := by decide
theorem test_lit_by_step : next? (step (reading 8 6 [1, 0,0,0,0,1,1])) = next? (exec (.litL6 3) (reading 8 6 [1, 0,0,0,0,1,1])) := by
  decide
theorem test_lit_escape_code : refusal? (exec (.litL7 127) (reading 8 7 [1, 1,1,1,1,1,1,1, 0,0,0,0,0,0,0,0])) = some .elementOutOfPlace := by decide
theorem test_esc_appends : (after [.escL7 0x05] (reading 8 7 [1, 1,1,1,1,1,1,1, 0,0,0,0,0,1,0,1])).dmp.rout = [0x05] := by
  decide
/-- V67: 15 bits consumed, then `InvalidDistance`. -/
theorem test_match_invalid : (after [.matchW10 0 0] (reading 10 8 (List.replicate 16 0))).dmp.derr =
    some .invalidDistance := by decide
theorem test_hdr_corrupt :
    (after [.hdr 1 10 8 1 0] (after [.dFeed 0x1A, .dFeed 0x88])).dmp.derr = some .corruptHeader := by decide
theorem test_pad_ends : (after [.pad 2] (after [.dEnd] (reading 8 8 [0,0,0,0,0,0,0,0]) |> fun s =>
    { s with dmp := { s.dmp with bsd := { s.dmp.bsd with rpos := 6 } } })).dmp.dstate = .done := by decide
/-- V83 and the codes without an operation. -/
theorem test_code_zero : next? (exec .noneCOp v20) = some v20 := by decide
theorem test_unused_code : refusal? (exec .reservedDOp3 v20) = some .unusedCode := by decide

/-! ## Witnesses

For each statement of Sys2Proof/Certificates/Slice0/Obligations.lean with hypotheses, clause by clause, values that meet
them, at the ends of their ranges. -/

theorem windowReset_inv : Window.reset.Inv :=
  ⟨by decide, by simp [Window.reset], by decide, by decide, by decide, fun d h1 h2 => by simp [Window.reset] at h2; omega⟩

theorem demoWindow_inv (h : List Byte) : (demoWindow h).Inv :=
  pushAll_inv _ _ (clearWindow_inv _ 8 windowReset_inv (by decide))

theorem demoCmp_inv (h la : List Byte) (hl : la.length ≤ 16) : (demoCmp h la).Inv :=
  ⟨⟨by simp [demoCmp, Cmp.reset], by simp [demoCmp, Cmp.reset], by simp [demoCmp, Cmp.reset]⟩, demoWindow_inv h,
    by simp [demoCmp, Config.laDepth]; omega, by simp [demoCmp, Config.laDepth]; omega,
    fun _ => (show Config.legalW (8 : Nibble).toNat ∧ Config.legalL (5 : Nibble).toNat by decide),
    by simp [demoCmp, Cmp.reset]⟩

theorem demoDmp_inv (h : List Byte) (w l : Nibble) (st : DState) (ibuf : List Byte) (rpos : Nat) (eof : Bool)
    (hr : rpos ≤ 8 * ibuf.length) (hw : Config.legalW w.toNat) (hl : Config.legalL l.toNat)
    (hs : st = .readingHeader ∨ st = .readingToken ∨ st = .done) : (demoDmp h w l st ibuf rpos eof).Inv :=
  ⟨hr, demoWindow_inv h, fun _ => ⟨hw, hl⟩, by rcases hs with rfl | rfl | rfl <;> simp [demoDmp],
    by rcases hs with rfl | rfl | rfl <;> simp [demoDmp], by rcases hs with rfl | rfl | rfl <;> simp [demoDmp],
    by simp [demoDmp, Dmp.reset]⟩

/-- The demonstration state meets the invariant. -/
theorem demo_inv (h la ibuf : List Byte) (eof : Bool) (hl : la.length ≤ 16) : (demo h la ibuf eof).Inv :=
  ⟨demoCmp_inv h la hl, demoDmp_inv h 8 5 _ _ _ _ (by omega) (by decide) (by decide) (.inr (.inl rfl))⟩

theorem demo_open (h la ibuf : List Byte) (eof : Bool) : streamOpen (demo h la ibuf eof).cmp :=
  ⟨rfl, rfl, by simp [demo, demoCmp, demoWindow]⟩

theorem demo_encodes (h la ibuf : List Byte) (eof : Bool) (hl : la.length ≤ 17) : encodes (demo h la ibuf eof).cmp :=
  ⟨⟨by simp [demo, demoCmp, Cmp.reset], by simp [demo, demoCmp, Cmp.reset], by simp [demo, demoCmp, Cmp.reset]⟩,
    demoWindow_inv h, by simp [demo, demoCmp]; omega, hl⟩

/-- `a b`, `a b a b`: a history and a lookahead. -/
def ab : List Byte := [0x61, 0x62]
/-- A state about to encode `a b` with `a b` in the window; two bytes of input wait. -/
def demo1 : State := demo ab ab (bytes [0x00, 0x10]) false
theorem demo1_inv : demo1.Inv := demo_inv _ _ _ _ (by decide)

/-- An encoder with `n` pending bits. -/
def withPending (n : Nat) (fl : Bool) : State :=
  { State.reset with cmp := { Cmp.reset with bse := { acc := 0, nacc := n, flushed := fl, obuf := [] } } }
theorem withPending_inv (n : Nat) (h : n ≤ 7) : (withPending n false).cmp.bse.Inv :=
  ⟨h, by simp [withPending], by simp [withPending]⟩

theorem test_witness_ClearAndFlushTheEncoder :
    ((withPending 0 false).cmp.bse.flushed = false ∧ (withPending 0 false).cmp.bse.Inv) ∧
    ((withPending 7 false).cmp.bse.flushed = false ∧ (withPending 7 false).cmp.bse.Inv) ∧
    (withPending 0 true).cmp.bse.flushed = true :=
  ⟨⟨rfl, withPending_inv 0 (by omega)⟩, ⟨rfl, withPending_inv 7 (by omega)⟩, rfl⟩

theorem test_witness_WriteBitsPacksMsbFirst :
    ((withPending 7 false).cmp.bse.Inv ∧ (withPending 7 false).cmp.bse.flushed = false ∧ 1 ≤ (1 : Five).toNat ∧
      (16 : Five).toNat ≤ 16) ∧
    ((withPending 0 true).cmp.bse.Inv ∧ (withPending 0 true).cmp.bse.flushed = true) ∧
    ((0 : Five).toNat < 1 ∧ 16 < (17 : Five).toNat) :=
  ⟨⟨withPending_inv 7 (by omega), rfl, by decide, by decide⟩,
    ⟨⟨by decide, by decide, by decide⟩, rfl⟩, by decide, by decide⟩

theorem test_witness_WritesSpellTheirBits : widthsLegal [(0xFFFF, 1), (5, 3), (0x8001, 16)] := by
  simp [widthsLegal]

theorem test_witness_InputCommandsOfTheDecoder :
    State.reset.dmp.bsd.eof = false ∧ (after [.bsdEnd]).dmp.bsd.eof = true := by decide

/-- Bounds of the widths and of the unread bits (24 of them in `v20`). -/
theorem test_witness_ReadBitsConsumesOrWaits :
    (1 ≤ (1 : Five).toNat ∧ (16 : Five).toNat ≤ 16 ∧ (16 : Five).toNat ≤ avail v20.dmp.bsd) ∧
    (avail State.reset.dmp.bsd < (1 : Five).toNat) ∧ (0 : Five).toNat < 1 ∧ 16 < (17 : Five).toNat := by decide

theorem test_witness_SkipBitsMovesTheCursor :
    (20 : Five).toNat ≤ avail v20.dmp.bsd ∧ (24 : Five).toNat ≤ avail v20.dmp.bsd ∧
      avail v20.dmp.bsd < (25 : Five).toNat := by decide

theorem test_witness_QueriesOfTheDecoder :
    ((8 : Five).toNat + (16 : Five).toNat ≤ avail v20.dmp.bsd) ∧ (0 : Five).toNat < 1 ∧ 16 < (17 : Five).toNat ∧
      avail v20.dmp.bsd < (9 : Five).toNat + (16 : Five).toNat := by decide

theorem test_witness_ReaderMirrorsWriter :
    ∃ t u r : State, widthsLegal ([(5, 3)] ++ (0x3FF, 10) :: [(0, 4)]) ∧
      runScript (.bseClear :: writeScript ([(5, 3)] ++ (0x3FF, 10) :: [(0, 4)])) State.reset = .next t ∧
      exec .bseFlush t = .next u ∧ r.dmp.bsd.ibuf = u.cmp.bse.obuf ∧
      r.dmp.bsd.rpos = (writtenBits [(5, 3)]).length :=
  ⟨_, _, { State.reset with dmp := { Dmp.reset with bsd := { ibuf := bytes [0xBF, 0xF8, 0x00], rpos := 3, eof := false } } },
    by simp [widthsLegal], rfl, rfl, by decide, by decide⟩

theorem test_witness_WindowClearSetsTheSize : (8 ≤ 8 ∧ 8 ≤ 15) ∧ (8 ≤ 15 ∧ 15 ≤ 15) ∧ 7 < 8 ∧ 15 < 16 := by decide

/-- With two bytes of history, a third push leaves two older ones (distances 1 and 2 of before). -/
theorem test_witness_PushShiftsTheHistory :
    (demo1.win .cwin).Inv ∧ (demo1.win .dwin).Inv ∧ 1 ≤ 1 ∧ 2 + 1 ≤ (push (demo1.win .cwin) 0).fill :=
  ⟨demo1_inv.cmp.cwin, demo1_inv.dmp.dwin, by decide, by decide⟩

theorem test_witness_HistReadsTheHistory :
    demo1.Inv ∧ (1 ≤ (1 : Half).toNat ∧ (2 : Half).toNat ≤ (demo1.win .dwin).fill) ∧
      ((0 : Half).toNat < 1 ∧ (demo1.win .dwin).fill < (3 : Half).toNat) :=
  ⟨demo1_inv, by decide, by decide⟩

theorem test_witness_CopyRepeatsTheHistory :
    demo1.Inv ∧ (1 ≤ (1 : Half).toNat ∧ (2 : Half).toNat ≤ demo1.dmp.dwin.fill) ∧
      (demo1.dmp.dwin.fill < (3 : Half).toNat ∧ 2 ^ demo1.dmp.dwin.bits < (257 : Half).toNat) ∧ (0 : Half).toNat = 0 :=
  ⟨demo1_inv, by decide, by decide, rfl⟩

theorem test_witness_WindowHoldsWhatWasPushed :
    (demo1.win .cwin).Inv ∧ ∃ t : State, runScript (.swdClear .cwin 8 :: ab.map (.swdPush .cwin)) demo1 = .next t :=
  ⟨demo1_inv.cmp.cwin, _, rfl⟩

theorem test_witness_EmitHeaderAppendsHeader : demo1.Inv ∧ demo1.cmp.bse.flushed = false := ⟨demo1_inv, rfl⟩

theorem test_witness_EmitLiteralAppendsLiteral :
    demo1.Inv ∧ demo1.cmp.bse.flushed = false ∧ Config.legalL demo1.cmp.ccfgL.toNat := ⟨demo1_inv, rfl, by decide⟩

theorem test_witness_EmitMatchAppendsMatch :
    demo1.Inv ∧ demo1.cmp.bse.flushed = false ∧ Config.legalW demo1.cmp.ccfgW.toNat ∧
      (1 ≤ (1 : Half).toNat ∧ (256 : Half).toNat ≤ 2 ^ demo1.cmp.ccfgW.toNat ∧ 2 ≤ (2 : Five).toNat ∧
        (17 : Five).toNat ≤ 17) ∧
      ((0 : Half).toNat < 1 ∧ 2 ^ demo1.cmp.ccfgW.toNat < (257 : Half).toNat ∧ (1 : Five).toNat < 2 ∧
        17 < (18 : Five).toNat) :=
  ⟨demo1_inv, rfl, by decide, by decide, by decide⟩

/-- `1A 80` is a legal header, `1A 88` is not. -/
theorem test_witness_ParseHeaderAnswers :
    avail (after [.bsdFeed 0x1A]).dmp.bsd < 16 ∧
    pendingBits (after [.bsdFeed 0x1A, .bsdFeed 0x80]).dmp.bsd = headerBitsOf 1 10 8 0 0 ++ [] ∧
    pendingBits (after [.bsdFeed 0x1A, .bsdFeed 0x88]).dmp.bsd = headerBitsOf 1 10 8 1 0 ++ [] := by decide

/-- Under the pair (8, 5): a covered literal, an escaped one, a redundant escape, a match, and the four ways a token is
not all there. -/
theorem test_witness_ParseTokenAnswers :
    ¬ (Config.legalW State.reset.dmp.dcfgW.toNat ∧ Config.legalL State.reset.dmp.dcfgL.toNat) ∧
    (Config.legalW demo1.dmp.dcfgW.toNat ∧ Config.legalL demo1.dmp.dcfgL.toNat) ∧
    pendingBits (demo ab ab (bytes [0xF8]) false).dmp.bsd = literalCode 5 0x1E ++ bits [0, 0] ∧
    pendingBits (demo ab ab (bytes [0xFC, 0x7C]) false).dmp.bsd = literalCode 5 0x1F ++ bits [0, 0] ∧
    pendingBits (demo ab ab (bytes [0xFC, 0x14]) false).dmp.bsd = escapeBitsOf 5 0x05 ++ bits [0, 0] ∧
    pendingBits (demo ab ab (bytes [0x7F, 0xF8]) false).dmp.bsd = matchBitsOf 8 255 15 ++ bits [0, 0, 0] ∧
    pendingBits (demo ab ab [] false).dmp.bsd = [] ∧
    ((pendingBits (demo ab ab (bytes [0x00]) false).dmp.bsd).head? = some false ∧
      avail (demo ab ab (bytes [0x00]) false).dmp.bsd < 5 + 8) ∧
    (List.replicate 6 true <+: pendingBits (demo ab ab (bytes [0xFC]) false).dmp.bsd ∧
      avail (demo ab ab (bytes [0xFC]) false).dmp.bsd < 9 + 5) := by decide

theorem test_witness_SearchFindsTheLongestNearest :
    encodes demo1.cmp ∧ agreesTo demo1.cmp 2 2 := by
  refine ⟨demo_encodes _ _ _ _ (by decide), ?_⟩
  unfold agreesTo; decide

/-- One byte of lookahead, and all 17. -/
theorem test_witness_EncodeStepEmitsOneToken :
    (∃ s : State, encodes s.cmp ∧ streamOpen s.cmp ∧ Config.legalW s.cmp.ccfgW.toNat ∧ Config.legalL s.cmp.ccfgL.toNat ∧
      s.cmp.laN = 1) ∧
    (∃ s : State, encodes s.cmp ∧ streamOpen s.cmp ∧ Config.legalW s.cmp.ccfgW.toNat ∧ Config.legalL s.cmp.ccfgL.toNat ∧
      s.cmp.laN = 17) ∧
    State.reset.cmp.cstate ≠ .opened ∧ (demo ab [] [] false).cmp.laN = 0 :=
  ⟨⟨demo ab [0x61] [] false, demo_encodes _ _ _ _ (by decide), demo_open _ _ _ _, by decide, by decide, rfl⟩,
    ⟨demo ab (List.replicate 17 0x61) [] false, demo_encodes _ _ _ _ (by decide), demo_open _ _ _ _, by decide, by decide,
      rfl⟩, by decide, rfl⟩

theorem test_witness_EmittedMatchesStayInHistory :
    encodes demo1.cmp ∧ ∃ t : State, exec .mseSearch demo1 = .next t ∧ t.report = .done (.search 2 2) ∧ 2 ≤ 2 :=
  ⟨demo_encodes _ _ _ _ (by decide), _, rfl, by decide, by decide⟩

theorem test_witness_OpenWritesTheHeader :
    (State.reset.cmp.cstate = .idle ∧ State.reset.cmp.bse = { acc := 0, nacc := 0, flushed := false, obuf := [] }) ∧
      (8 ≤ 8 ∧ 15 ≤ 15 ∧ 5 ≤ 5 ∧ 8 ≤ 8) ∧ (7 < 8 ∧ 15 < 16 ∧ 4 < 5 ∧ 8 < 9) ∧ demo1.cmp.cstate ≠ .idle := by decide

theorem test_witness_WriteFillsTheLookahead :
    (demo1.cmp.cstate = .opened ∧ demo1.cmp.laN + 1 ≠ 17) ∧
    ((demo ab (List.replicate 16 0x61) [] false).cmp.cstate = .opened ∧
      (demo ab (List.replicate 16 0x61) [] false).cmp.laN + 1 = 17) ∧ State.reset.cmp.cstate ≠ .opened := by decide

theorem test_witness_WriteAlwaysCompletes :
    ∃ s : State, s.Inv ∧ streamOpen s.cmp ∧ s.cmp.laN = 16 :=
  ⟨demo ab (List.replicate 16 0x61) [] false, demo_inv _ _ _ _ (by decide), demo_open _ _ _ _, rfl⟩

theorem test_witness_CloseDrainsAndFlushes :
    (demo1.Inv ∧ streamOpen demo1.cmp) ∧ State.reset.cmp.cstate ≠ .opened :=
  ⟨⟨demo1_inv, demo_open _ _ _ _⟩, by decide⟩

theorem test_witness_StepReadsTheHeader :
    State.reset.dmp.dstate = .readingHeader ∧ (avail State.reset.dmp.bsd < 16 ∧ State.reset.dmp.bsd.eof = false) ∧
    ((after [.dEnd]).dmp.dstate = .readingHeader ∧ avail (after [.dEnd]).dmp.bsd < 16 ∧
      (after [.dEnd]).dmp.bsd.eof = true) ∧
    (pendingBits (after [.dFeed 0x1A, .dFeed 0x88]).dmp.bsd = headerBitsOf 1 10 8 1 0 ++ [] ∧
      headerLegal 1 10 8 1 0 = false) ∧
    (pendingBits (after [.dFeed 0x1A, .dFeed 0x80]).dmp.bsd = headerBitsOf 1 10 8 0 0 ++ [] ∧
      headerLegal 1 10 8 0 0 = true) := by decide

/-- The report of `TIN.PARSE_TOKEN`. -/
def tokenOf (s : State) : Option Report := (next? (exec .tinParseToken s)).map (·.report)

theorem test_witness_StepReadsAToken :
    (demo1.dmp.dstate = .readingToken ∧ Config.legalW demo1.dmp.dcfgW.toNat ∧ Config.legalL demo1.dmp.dcfgL.toNat) ∧
    (tailIsPad (demo ab ab [] true).dmp.bsd = true) ∧
    (tailIsPad (demo ab ab (bytes [0xF8]) false).dmp.bsd = false ∧
      tokenOf (demo ab ab (bytes [0xF8]) false) = some (.done (.token (.literal 0x1E 6)))) ∧
    (tailIsPad demo1.dmp.bsd = false ∧ tokenOf demo1 = some (.done (.token (.matched 1 4 13)))) ∧
    (tailIsPad (demo ab ab (bytes [0]) true).dmp.bsd = false ∧
      tokenOf (demo ab ab (bytes [0]) true) = some (.done (.token .needMore))) := by decide

/-- A latched match of distance `d` and length 2 with `a b` in the window. -/
def latched (d : Half) : State :=
  { demo1 with dmp := { demoDmp ab 8 5 .readingToken [] 0 false with
      tokKind := false, tokDist := d, tokLen := 2, dstate := .copyingMatch } }

theorem latched_inv (d : Half) (h1 : 1 ≤ d.toNat) (h2 : d.toNat ≤ 2 ^ 8) : (latched d).Inv :=
  ⟨demo1_inv.cmp, ⟨Nat.le_refl 0, demoWindow_inv ab,
    fun _ => (show Config.legalW (8 : Nibble).toNat ∧ Config.legalL (5 : Nibble).toNat by decide), by simp [latched],
    fun _ => ⟨rfl, h1, h2, (show 2 ≤ (2 : Five).toNat by decide), (show (2 : Five).toNat ≤ 17 by decide)⟩,
    by simp [latched], by simp [latched, demoDmp, Dmp.reset]⟩⟩

theorem test_witness_StepCarriesOutTheLatch :
    (∃ s : State, s.dmp.dstate = .appendingLiteral) ∧
    ((latched 2).dmp.dstate = .copyingMatch ∧ (latched 2).Inv ∧
      (latched 2).dmp.tokDist.toNat ≤ (latched 2).dmp.dwin.fill) ∧
    ((latched 3).dmp.dstate = .copyingMatch ∧ (latched 3).Inv ∧
      (latched 3).dmp.dwin.fill < (latched 3).dmp.tokDist.toNat) ∧
    ∃ s : State, s.dmp.dstate = .done :=
  ⟨⟨{ demo1 with dmp := { demo1.dmp with dstate := .appendingLiteral } }, rfl⟩,
    ⟨rfl, latched_inv 2 (by decide) (by decide), by decide⟩, ⟨rfl, latched_inv 3 (by decide) (by decide), by decide⟩,
    ⟨{ demo1 with dmp := { demo1.dmp with dstate := .done } }, rfl⟩⟩

theorem test_witness_FeedingCommutesWithSteps :
    demo1.Inv ∧ ∃ t u : State, exec .dStep demo1 = .next t ∧ t.report ≠ .hold ∧ exec (.dFeed 0x55) demo1 = .next u :=
  ⟨demo1_inv, _, _, rfl, by decide, rfl⟩

theorem test_witness_HeaderElementConfigures :
    (State.reset.withFetchWord 16 0x1A80).dmp.dstate = .readingHeader ∧
      16 ≤ avail (State.reset.withFetchWord 16 0x1A80).dmp.bsd ∧ headerLegal 1 10 8 0 0 = true ∧
      headerLegal 1 10 8 1 0 = false ∧ demo1.dmp.dstate ≠ .readingHeader := by decide

/-- The codes at their ends (the escape code left out) and, for each width, a state that is about to read the element. -/
theorem test_witness_LiteralsAppendTheirByte :
    (((30 : BitVec 5).toNat ≠ 31 ∧ (62 : BitVec 6).toNat ≠ 63) ∧ (126 : BitVec 7).toNat ≠ 127) ∧
    [(5, 6), (6, 7), (7, 8), (8, 9), (5, 14), (6, 15), (7, 16)].all fun p =>
      let s := reading 8 (.ofNat 4 p.1) (List.replicate p.2 1)
      decide (s.dmp.dstate = .readingToken ∧ s.dmp.dcfgL.toNat = p.1 ∧ p.2 ≤ avail s.dmp.bsd) := by decide

/-- For each width, a state about to read a match, with two bytes of history: distance 2 is in it, 3 is not. -/
theorem test_witness_MatchesCopyTheHistory (w : Nat) (h1 : 8 ≤ w) (h2 : w ≤ 15) :
    ∃ s : State, s.Inv ∧ s.dmp.dstate = .readingToken ∧ s.dmp.dcfgW.toNat = w ∧ 5 + w ≤ avail s.dmp.bsd ∧
      1 + 1 ≤ s.dmp.dwin.fill ∧ s.dmp.dwin.fill < 2 + 1 := by
  have hw : (BitVec.ofNat 4 w).toNat = w := by rw [BitVec.toNat_ofNat]; omega
  refine ⟨{ demo1 with dmp := demoDmp ab (.ofNat 4 w) 5 .readingToken (bytes [0, 0, 0]) 0 false },
    ⟨demo1_inv.cmp, demoDmp_inv ab _ 5 _ _ 0 _ (by decide) ?_ (by decide) (.inr (.inl rfl))⟩, rfl, hw, ?_,
    (show 1 + 1 ≤ (demoWindow ab).fill by decide), (show (demoWindow ab).fill < 2 + 1 by decide)⟩
  · rw [hw]; exact ⟨h1, h2⟩
  · change 5 + w ≤ 24
    omega

/-- No bits at all, and seven. -/
theorem test_witness_PaddingEndsTheRun :
    [([], 0, 0), ([0x80], 1, 7)].all fun (p : List Nat × Nat × Nat) =>
      let d := demoDmp ab 8 5 .readingToken (bytes p.1) p.2.1 true
      decide (d.dstate = .readingToken ∧ d.bsd.eof = true ∧ avail d.bsd = p.2.2 ∧ p.2.2 ≤ 7 ∧
        pendingBits d.bsd = List.replicate p.2.2 false) := by decide

theorem test_witness_ElementIsItsSteps :
    (demo1.Inv ∧ fetchElement demo1.dmp = some (.matchW8 0 2)) ∧
    ((demo ab ab [] true).Inv ∧ fetchElement (demo ab ab [] true).dmp = some (.pad 0)) :=
  ⟨⟨demo1_inv, by decide⟩, demo_inv _ _ _ _ (by decide), by decide⟩

theorem test_witness_StreamDecodesWhatItEncodes :
    ((Instr.hdr 1 15 5 0 0).wellFormed = true ∧ encode (.hdr 1 15 5 0 0) = .header (headerBitsOf 1 15 5 0 0)) ∧
    ((Instr.matchW15 32767 15).wellFormed = true ∧ (Instr.matchW15 32767 15).validUnder 15 5 = true ∧
      encode (.matchW15 32767 15) = .token (matchBitsOf 15 32767 15) ∧ Config.legalW 15 ∧ Config.legalL 5) ∧
    ((Instr.pad 7).wellFormed = true ∧ encode (.pad 7) = .tail (List.replicate 7 false)) := by decide

theorem test_witness_PortsDecodeWhatTheyEncode :
    (Instr.cOpen 15 15).wellFormed = true ∧ encode (.cOpen 15 15) = .port ⟨.cOp, 1, 15, 15⟩ := by decide

theorem test_witness_EveryBitStringParses :
    Config.legalW 15 ∧ Config.legalL 8 ∧ 20 ≤ (List.replicate 20 false).length := by decide

theorem test_witness_TokensArePrefixFree :
    Config.legalW 8 ∧ Config.legalL 5 ∧ (Instr.litL5 30).wellFormed = true ∧ (Instr.litL5 30).validUnder 8 5 = true ∧
      encode (.litL5 30) = .token (literalBitsOf 5 30) ∧ literalBitsOf 5 30 = literalBitsOf 5 30 ++ [] := by decide

theorem test_witness_StepRunsThePresentedOperation :
    ∃ s : State, s.inbox = [⟨.cOp, 1, 10, 8⟩] ∧ decodePort ⟨.cOp, 1, 10, 8⟩ = .ok (.cOpen 10 8) :=
  ⟨{ State.reset with inbox := [⟨.cOp, 1, 10, 8⟩] }, rfl, rfl⟩

theorem test_witness_StepRunsTheElementAtTheCursor :
    (State.reset.inbox = [] ∧ (State.reset.withFetchWord 16 0x1A80).dmp.dstate = .readingHeader ∧
      pendingBits (State.reset.withFetchWord 16 0x1A80).dmp.bsd = headerBitsOf 1 10 8 0 0 ++ []) ∧
    (demo1.inbox = [] ∧ demo1.dmp.dstate = .readingToken ∧ tailIsPad demo1.dmp.bsd = false ∧
      Config.legalW demo1.dmp.dcfgW.toNat ∧ Config.legalL demo1.dmp.dcfgL.toNat ∧
      (Instr.matchW8 0 2).wellFormed = true ∧ (Instr.matchW8 0 2).validUnder 8 5 = true ∧
      pendingBits demo1.dmp.bsd = matchBitsOf 8 0 2 ++ bits [0, 0, 0]) ∧
    ((demo ab ab [] true).inbox = [] ∧ tailIsPad (demo ab ab [] true).dmp.bsd = true) ∧
    fetchElement State.reset.dmp = none := by decide

theorem test_witness_StepKeepsTheInvariant :
    demo1.Inv ∧ (∃ t : State, step demo1 = .next t) ∧ ∃ t : State, exec .cClose demo1 = .next t :=
  ⟨demo1_inv, ⟨_, rfl⟩, _, rfl⟩

theorem test_witness_NoStepFaults : demo1.Inv := demo1_inv

theorem test_witness_WindowRamReadsWhatWasWritten :
    Memory.wf [(0, 0x61), (32767, 0x62)] ∧ ∀ a, memRead [(0, 0x61)] a = memRead (memWrite [] 0 0x61) a :=
  ⟨by decide, fun _ => rfl⟩

theorem test_witness_CellsChangeAtTheCursorOnly :
    (demo1.cmp.cwin.Inv ∧ ∀ j, j < ab.length → 1 ≠ (demo1.cmp.cwin.wr + j) % 2 ^ demo1.cmp.cwin.bits) ∧
    (∃ t : State, exec .cReset demo1 = .next t) ∧ appendsTo .cReset .cwin = false :=
  ⟨⟨demo1_inv.cmp.cwin, by decide⟩, ⟨_, rfl⟩, rfl⟩

theorem test_witness_UnitsShareNothing :
    ((∃ t : State, exec (.cWrite 0x61) demo1 = .next t) ∧ ofCompressor (.cWrite 0x61) = true) ∧
    ((∃ t : State, exec .dStep demo1 = .next t) ∧ ofCompressor .dStep = false) :=
  ⟨⟨⟨_, rfl⟩, rfl⟩, ⟨_, rfl⟩, rfl⟩

/-- Both units in error, by a bad `C.OPEN` and a bad header; and a unit that is done. -/
def failed : State := after [.cOpen 7 8, .dFeed 0x2A, .dFeed 0x80, .dStep]
theorem test_witness_OnlyResetLeavesAnError :
    (failed.cmp.cstate = .error ∧ failed.dmp.dstate = .error ∧ (next? (exec (.dFeed 0) failed)).isSome = true ∧
      (next? (exec .bseClear failed)).isSome = true) ∧
    (after [.dFeed 0x1A, .dFeed 0x80, .dEnd, .dStep, .dStep]).dmp.dstate = .done := by decide

theorem test_witness_ConfigurationIsImmutable :
    (∃ t : State, exec (.cOpen 15 8) State.reset = .next t ∧ t.cmp.ccfgW = 15 ∧ t.cmp.ccfgL = 8) ∧
    (∃ t : State, exec .cReset demo1 = .next t ∧ t.cmp.ccfgW = 0) ∧
    (∃ t : State, exec .dStep (after [.dFeed 0x1A, .dFeed 0x80]) = .next t ∧ t.dmp.dcfgW = 10) ∧
    ∃ t : State, exec .dReset demo1 = .next t ∧ t.dmp.dcfgL = 0 :=
  ⟨⟨_, rfl, rfl, rfl⟩, ⟨_, rfl, rfl⟩, ⟨_, rfl, rfl⟩, _, rfl, rfl⟩

theorem test_witness_OutputsOnlyGrow :
    ∃ t : State, exec .cClose demo1 = .next t ∧ Instr.cClose ≠ .cReset ∧ Instr.cClose ≠ .bseClear :=
  ⟨_, rfl, by decide, by decide⟩

/-- The compressor encodes `a b` as a match of distance 2; a decompressor with the same window reads those 13 bits. -/
theorem test_witness_WindowsStayEqual :
    ∃ (s' r : State), encodes demo1.cmp ∧ streamOpen demo1.cmp ∧ Config.legalW demo1.cmp.ccfgW.toNat ∧
      Config.legalL demo1.cmp.ccfgL.toNat ∧ r.Inv ∧ exec .csqEncodeStep demo1 = .next s' ∧
      acceptedBits s'.cmp.bse = acceptedBits demo1.cmp.bse ++ matchBitsOf 8 1 0 ∧
      windowsAgree demo1.cmp.cwin r.dmp.dwin ∧ r.dmp.dstate = .readingToken ∧ r.dmp.dcfgW = demo1.cmp.ccfgW ∧
      r.dmp.dcfgL = demo1.cmp.ccfgL ∧ pendingBits r.dmp.bsd = matchBitsOf 8 1 0 ++ bits [0, 0, 0] :=
  ⟨_, demo ab ab (bytes [0x00, 0x80]) false, demo_encodes _ _ _ _ (by decide), demo_open _ _ _ _, by decide, by decide,
    demo_inv _ _ _ _ (by decide), rfl, by decide, ⟨rfl, rfl, rfl, fun _ _ _ => rfl⟩, rfl, rfl, rfl, by decide⟩

theorem test_witness_CompressAlwaysEnds :
    demo1.Inv ∧ (Config.legalW 8 ∧ Config.legalL 5) ∧ (Config.legalW 15 ∧ Config.legalL 8) ∧
      ¬ (Config.legalW 7 ∧ Config.legalL 8) := ⟨demo1_inv, by decide, by decide, by decide⟩

theorem test_witness_DecompressAlwaysEnds : demo1.Inv := demo1_inv

theorem test_witness_DecompressInvertsCompress :
    demo1.Inv ∧ Config.legalW 8 ∧ Config.legalL 8 ∧
      compress demo1 ab 8 8 = .ok (bytes [0x18, 0x80, 0xB0, 0xD8, 0x80]) :=
  ⟨demo1_inv, by decide, by decide, by decide⟩

theorem test_witness_CompressIgnoresThePast : demo1.Inv ∧ (demo [] [] [] true).Inv :=
  ⟨demo1_inv, demo_inv _ _ _ _ (by decide)⟩

theorem test_witness_ConfigurationIsRecovered :
    demo1.Inv ∧ Config.legalW 8 ∧ Config.legalL 8 ∧
      compress demo1 ab 8 8 = .ok (bytes [0x18, 0x80, 0xB0, 0xD8, 0x80]) ∧
      ∃ r t : State, r.dmp.dstate = .readingHeader ∧ r.dmp.bsd.rpos = 0 ∧
        r.dmp.bsd.ibuf = bytes [0x18, 0x80, 0xB0, 0xD8, 0x80] ∧ exec .dStep r = .next t :=
  ⟨demo1_inv, by decide, by decide, by decide,
    after ((bytes [0x18, 0x80, 0xB0, 0xD8, 0x80]).map .dFeed), _, by decide, by decide, by decide, rfl⟩

end Sys2Proof.Tests
end

section
/-! The window RAM and the presented operation (R12, R60, R7, R109). -/

namespace Sys2Proof.Proofs.Scope

open Sys2Proof Sys2Proof.Machine

/-- Settles O49: the RAM's three laws, that a write keeps the canonical form, what a read after a write gives, and that
reading alike makes canonical RAMs equal. -/
theorem windowRamReadsWhatWasWritten : Obligations.WindowRamReadsWhatWasWritten :=
  ⟨fun m a x b hm => ⟨memWrite_wf m a b hm, memRead_memWrite m a b x hm⟩, memory_ext⟩

/-- Settles O44: with a word presented, `step` takes its first branch, and the word's decoding picks the operation. -/
theorem stepRunsThePresentedOperation : Obligations.StepRunsThePresentedOperation := by
  intro s p rest i hpresented hdecode
  simp only [step, hpresented, hdecode]

end Sys2Proof.Proofs.Scope
end

section
/-! What an instruction is: an operation of one unit, nothing, or refused; and what every operation of a unit keeps. One
case split over the instructions (`exec_shape`) serves the invariant (R32), safety (R36), the configuration (R24) and the
independence of the units (R20, R302). -/

namespace Sys2Proof.Proofs.Units

open Sys2Proof Sys2Proof.Machine

/-! ## Sequencing without a fault -/

theorem bind_no_fault {α β : Type} {x : Step α} {g : α → Step β} {e : Fault} (hx : x ≠ .error (.fault e))
    (hg : ∀ a, x = .ok a → g a ≠ .error (.fault e)) : (x >>= g) ≠ .error (.fault e) := fun h =>
  (Step.bind_error.mp h).elim hx fun ⟨a, ha, h⟩ => hg a ha h

theorem map_no_fault {α β : Type} {x : Step α} {g : α → β} {e : Fault} (hx : x ≠ .error (.fault e)) :
    x.map g ≠ .error (.fault e) := fun h => hx (Step.map_error.mp h)

theorem ite_no_fault {α : Type} {p : Prop} [Decidable p] {x y : Step α} {e : Fault} (hx : x ≠ .error (.fault e))
    (hy : y ≠ .error (.fault e)) : (if p then x else y) ≠ .error (.fault e) := by
  split
  · exact hx
  · exact hy

theorem ok_no_fault {α : Type} (a : α) (e : Fault) : (.ok a : Step α) ≠ .error (.fault e) := by simp

/-! ## The block operations of the encoder -/

theorem writeBits_no_fault (v n : Nat) (b : Bse) (e : Fault) : writeBits v n b ≠ .error (.fault e) :=
  ite_no_fault (refuse_ne_fault _ _) (ite_no_fault (refuse_ne_fault _ _) (ok_no_fault _ _))

theorem bseFlush_no_fault (b : Bse) (e : Fault) : bseFlush b ≠ .error (.fault e) :=
  ite_no_fault (refuse_ne_fault _ _) (ok_no_fault _ _)

theorem emitLiteral_no_fault (l : Nat) (x : Byte) (b : Bse) (e : Fault) : emitLiteral l x b ≠ .error (.fault e) :=
  bind_no_fault (writeBits_no_fault _ _ _ _) fun _ _ =>
    ite_no_fault (writeBits_no_fault _ _ _ _) (ite_no_fault (writeBits_no_fault _ _ _ _)
      (bind_no_fault (writeBits_no_fault _ _ _ _) fun _ _ => writeBits_no_fault _ _ _ _))

theorem emitMatch_no_fault (w d n : Nat) (b : Bse) (e : Fault) : emitMatch w d n b ≠ .error (.fault e) :=
  ite_no_fault (refuse_ne_fault _ _) (bind_no_fault (writeBits_no_fault _ _ _ _) fun _ _ =>
    bind_no_fault (writeBits_no_fault _ _ _ _) fun _ _ => writeBits_no_fault _ _ _ _)

/-! ## The block operations of the decoder and of a window -/

/-- The part of R32 that speaks of the BSD. -/
def CursorInside (b : Bsd) : Prop := b.rpos ≤ 8 * b.ibuf.length

theorem bsdFeed_keeps {x : Byte} {b b' : Bsd} (h : bsdFeed x b = .ok b') (hi : CursorInside b) : CursorInside b' := by
  unfold bsdFeed at h
  split at h
  · simp at h
  · cases h
    simp only [CursorInside, List.length_append] at hi ⊢
    omega

theorem bsdFeed_no_fault (x : Byte) (b : Bsd) (e : Fault) : bsdFeed x b ≠ .error (.fault e) :=
  ite_no_fault (refuse_ne_fault _ _) (ok_no_fault _ _)

theorem bsdEnd_keeps {b b' : Bsd} (h : bsdEnd b = .ok b') (hi : CursorInside b) : CursorInside b' := by
  unfold bsdEnd at h
  split at h
  · simp at h
  · cases h
    exact hi

theorem bsdEnd_no_fault (b : Bsd) (e : Fault) : bsdEnd b ≠ .error (.fault e) :=
  ite_no_fault (refuse_ne_fault _ _) (ok_no_fault _ _)

theorem readBits_keeps {n : Nat} {b b' : Bsd} {r : Report} (h : readBits n b = .ok (b', r)) (hi : CursorInside b) :
    CursorInside b' := by
  unfold readBits at h
  split at h
  · simp at h
  split at h
  · rename_i hn
    cases h
    simp only [CursorInside, avail] at hi hn ⊢
    omega
  split at h
  · cases h; exact hi
  · cases h; exact hi

theorem readBits_no_fault (n : Nat) (b : Bsd) (e : Fault) : readBits n b ≠ .error (.fault e) :=
  ite_no_fault (refuse_ne_fault _ _) (ite_no_fault (ok_no_fault _ _) (ite_no_fault (ok_no_fault _ _) (ok_no_fault _ _)))

theorem bsdPeek_no_fault (n off : Nat) (b : Bsd) (e : Fault) : bsdPeek n off b ≠ .error (.fault e) :=
  ite_no_fault (refuse_ne_fault _ _) (ite_no_fault (refuse_ne_fault _ _) (ok_no_fault _ _))

/-- R173, R36: within `fill` the history holds a byte, and beyond it `SWD.HIST` is refused. -/
theorem swdHist_no_fault (i : Win) {w : Window} (d : Nat) (hw : w.Inv) (e : Fault) :
    swdHist i w d ≠ .error (.fault e) := by
  unfold swdHist
  split
  · rename_i hd
    obtain ⟨b, -, hr⟩ := readHist_ok i w d hw hd.1 hd.2
    simp [hr]
  · exact refuse_ne_fault _ _

/-! ## The operations of the compressor -/

/-- R24 for the compressor: how instruction `i` may leave `ccfg_w` and `ccfg_l`. -/
def CmpConfig (i : Instr) (c c' : Cmp) : Prop :=
  (c'.ccfgW = c.ccfgW ∧ c'.ccfgL = c.ccfgL) ∨
    (i = .cReset ∧ c'.ccfgW = 0 ∧ c'.ccfgL = 0) ∨
    (∃ w l, i = .cOpen w l ∧ c.cstate = .idle ∧ c'.ccfgW.toNat = w ∧ c'.ccfgL.toNat = l ∧
      8 ≤ w ∧ w ≤ 15 ∧ 5 ≤ l ∧ l ≤ 8)

/-- What the operation `f` of the compressor, asked for by instruction `i`, does: its configuration rule, the invariant
kept, and no fault under the invariant. -/
structure CmpSpec (i : Instr) (f : Cmp → Step (Cmp × Report)) : Prop where
  config : ∀ {c c' r}, f c = .ok (c', r) → CmpConfig i c c'
  inv : ∀ {c c' r}, c.Inv → f c = .ok (c', r) → c'.Inv
  noFault : ∀ {c}, c.Inv → ∀ e, f c ≠ .error (.fault e)

/-- An operation on the BSE alone; it may read the configuration. -/
theorem cmpSpec_bse {i : Instr} (f : Cmp → Bse → Step Bse) (hk : ∀ {c b b'}, f c b = .ok b' → b.Inv → b'.Inv)
    (hf : ∀ c b e, f c b ≠ .error (.fault e)) :
    CmpSpec i fun c => do
      let b ← f c c.bse
      return ({ c with bse := b }, .done .none) where
  config := fun h => by
    obtain ⟨b, -, h⟩ := Step.bind_ok.mp h
    cases h
    exact .inl ⟨rfl, rfl⟩
  inv := fun hi h => by
    obtain ⟨b, hb, h⟩ := Step.bind_ok.mp h
    cases h
    exact hi.withBse (hk hb hi.bse)
  noFault := fun _ e => bind_no_fault (hf _ _ e) fun _ _ => ok_no_fault _ _

/-- An operation on `cwin` alone. -/
theorem cmpSpec_win {i : Instr} (f : Window → Step (Window × OpResult))
    (hk : ∀ {w w' r}, w.Inv → f w = .ok (w', r) → w'.Inv) (hf : ∀ {w}, w.Inv → ∀ e, f w ≠ .error (.fault e)) :
    CmpSpec i fun c => do
      let (w, r) ← f c.cwin
      return ({ c with cwin := w }, .done r) where
  config := fun h => by
    obtain ⟨⟨w, q⟩, -, h⟩ := Step.bind_ok.mp h
    cases h
    exact .inl ⟨rfl, rfl⟩
  inv := fun hi h => by
    obtain ⟨⟨w, q⟩, hw, h⟩ := Step.bind_ok.mp h
    cases h
    exact hi.withWin (hk hi.cwin hw)
  noFault := fun hi e => bind_no_fault (hf hi.cwin e) fun _ _ => ok_no_fault _ _

/-- A command of the sequencer that keeps the configuration and reports no result. -/
theorem cmpSpec_command {i : Instr} (f : Cmp → Step Cmp)
    (hc : ∀ {c c'}, f c = .ok c' → c.Inv → c'.Inv)
    (hg : ∀ {c c'}, f c = .ok c' → c'.ccfgW = c.ccfgW ∧ c'.ccfgL = c.ccfgL)
    (hf : ∀ {c}, c.Inv → ∀ e, f c ≠ .error (.fault e)) :
    CmpSpec i fun c => (f c).map fun c => (c, .done .none) where
  config := fun h => by
    obtain ⟨c1, h1, h⟩ := Step.map_ok.mp h
    cases h
    exact .inl (hg h1)
  inv := fun hi h => by
    obtain ⟨c1, h1, h⟩ := Step.map_ok.mp h
    cases h
    exact hc h1 hi
  noFault := fun hi e => map_no_fault (hf hi e)

/-- R235: an encode step does not write the configuration. -/
theorem encodeStep_config {c c' : Cmp} (h : encodeStep c = .ok c') : c'.ccfgW = c.ccfgW ∧ c'.ccfgL = c.ccfgL := by
  obtain ⟨len, dist, e⟩ := encodeStep_inv h
  rw [e.after]
  exact ⟨rfl, rfl⟩

theorem drain_config {n : Nat} {c c' : Cmp} (h : drain n c = .ok c') : c'.ccfgW = c.ccfgW ∧ c'.ccfgL = c.ccfgL := by
  induction n generalizing c with
  | zero => cases h; exact ⟨rfl, rfl⟩
  | succ n ih =>
    unfold drain at h
    split at h
    · cases h; exact ⟨rfl, rfl⟩
    · obtain ⟨c1, h1, h⟩ := Step.bind_ok.mp h
      obtain ⟨hw, hl⟩ := encodeStep_config h1
      exact ⟨(ih h).1.trans hw, (ih h).2.trans hl⟩

theorem cWrite_config {x : Byte} {c c' : Cmp} (h : cWrite x c = .ok c') : c'.ccfgW = c.ccfgW ∧ c'.ccfgL = c.ccfgL := by
  obtain ⟨-, ⟨-, rfl⟩ | ⟨-, he⟩⟩ := cWrite_cases h
  · exact ⟨rfl, rfl⟩
  · exact encodeStep_config (c := acceptByte x c) he

theorem cClose_config {c c' : Cmp} (h : cClose c = .ok c') : c'.ccfgW = c.ccfgW ∧ c'.ccfgL = c.ccfgL := by
  obtain ⟨-, c1, hd, -, hc⟩ := cClose_cases h
  rw [hc]
  exact drain_config (c' := c1) hd

theorem cOpen_no_fault (w l : Nat) (c : Cmp) (e : Fault) : cOpen w l c ≠ .error (.fault e) :=
  ite_no_fault (refuse_ne_fault _ _) (ite_no_fault (ok_no_fault _ _)
    (bind_no_fault (swdClear_no_fault _ _ _) fun _ _ => bind_no_fault (writeBits_no_fault _ _ _ _) fun _ _ => ok_no_fault _ _))

/-- R236: the one command that sets the configuration, to a legal pair. -/
theorem cmpSpec_cOpen (w l : Nat) : CmpSpec (.cOpen w l) (cOpen w l) where
  config := fun h => by
    obtain ⟨hs, ⟨-, -, rfl⟩ | ⟨⟨hw1, hw2⟩, ⟨hl1, hl2⟩, -, -, hc⟩⟩ := cOpen_cases h
    · exact .inl ⟨rfl, rfl⟩
    · refine .inr (.inr ⟨w, l, rfl, hs, ?_, ?_, hw1, hw2, hl1, hl2⟩)
      · rw [hc, BitVec.toNat_ofNat]; omega
      · rw [hc, BitVec.toNat_ofNat]; omega
  inv := fun hi h => cOpen_inv h hi
  noFault := fun _ e => cOpen_no_fault w l _ e

theorem cmpSpec_cReset : CmpSpec .cReset fun c => .ok (resetCmp c, .done .none) where
  config := fun h => by cases h; exact .inr (.inl ⟨rfl, rfl, rfl⟩)
  inv := fun hi h => by cases h; exact resetCmp_inv hi
  noFault := fun _ _ => ok_no_fault _ _

/-- R232: a search reads the window and changes nothing. -/
theorem cmpSpec_search {i : Instr} :
    CmpSpec i fun c => (search c).map fun (len, dist) => (c, .done (.search len dist)) where
  config := fun h => by
    obtain ⟨⟨len, dist⟩, -, h⟩ := Step.map_ok.mp h
    cases h
    exact .inl ⟨rfl, rfl⟩
  inv := fun hi h => by
    obtain ⟨⟨len, dist⟩, -, h⟩ := Step.map_ok.mp h
    cases h
    exact hi
  noFault := fun hi e => by
    obtain ⟨r, hr, -⟩ := search_ok _ hi.cwin
    exact map_no_fault (by simp [hr])

/-! ## The operations of a window, for either unit -/

theorem swdClear_keeps {n : Nat} {w w' : Window} {r : OpResult} (hi : w.Inv)
    (h : (swdClear w n).map (fun w => (w, OpResult.none)) = .ok (w', r)) : w'.Inv := by
  obtain ⟨w1, h1, h⟩ := Step.map_ok.mp h
  cases h
  exact swdClear_inv h1 hi

theorem swdHist_keeps {i : Win} {d : Nat} {w w' : Window} {r : OpResult} (hi : w.Inv)
    (h : (swdHist i w d).map (fun b => (w, OpResult.byte b)) = .ok (w', r)) : w'.Inv := by
  obtain ⟨b, -, h⟩ := Step.map_ok.mp h
  cases h
  exact hi

theorem swdPush_keeps {b : Byte} {w w' : Window} {r : OpResult} (hi : w.Inv)
    (h : (.ok (push w b, OpResult.none) : Step (Window × OpResult)) = .ok (w', r)) : w'.Inv := by
  cases h
  exact push_inv w b hi

/-! ## The operations of the decompressor -/

/-- R24 for the decompressor: how instruction `i` may leave `dcfg_w` and `dcfg_l`. -/
def DmpConfig (i : Instr) (d d' : Dmp) : Prop :=
  (d'.dcfgW = d.dcfgW ∧ d'.dcfgL = d.dcfgL) ∨
    (i = .dReset ∧ d'.dcfgW = 0 ∧ d'.dcfgL = 0) ∨
    (d.dstate = .readingHeader ∧ d'.dstate = .readingToken ∧
      Config.legalW d'.dcfgW.toNat ∧ Config.legalL d'.dcfgL.toNat)

/-- What the operation `f` of the decompressor, asked for by instruction `i`, does: its configuration rule, the invariant
kept, and no fault under the invariant. -/
structure DmpSpec (i : Instr) (f : Dmp → Step (Dmp × Report)) : Prop where
  config : ∀ {d d' r}, f d = .ok (d', r) → DmpConfig i d d'
  inv : ∀ {d d' r}, d.Inv → f d = .ok (d', r) → d'.Inv
  noFault : ∀ {d}, d.Inv → ∀ e, f d ≠ .error (.fault e)

/-- An operation on the BSD alone. -/
theorem dmpSpec_bsd {i : Instr} (f : Bsd → Step (Bsd × Report))
    (hk : ∀ {b b' r}, f b = .ok (b', r) → CursorInside b → CursorInside b') (hf : ∀ b e, f b ≠ .error (.fault e)) :
    DmpSpec i fun d => do
      let (b, r) ← f d.bsd
      return ({ d with bsd := b }, r) where
  config := fun h => by
    obtain ⟨⟨b, q⟩, -, h⟩ := Step.bind_ok.mp h
    cases h
    exact .inl ⟨rfl, rfl⟩
  inv := fun hi h => by
    obtain ⟨⟨b, q⟩, hb, h⟩ := Step.bind_ok.mp h
    cases h
    exact hi.withBsd (hk hb hi.cursor)
  noFault := fun _ e => bind_no_fault (hf _ e) fun _ _ => ok_no_fault _ _

/-- A command on the BSD alone that reports no result. -/
theorem dmpSpec_bsdCommand {i : Instr} (f : Bsd → Step Bsd)
    (hk : ∀ {b b'}, f b = .ok b' → CursorInside b → CursorInside b') (hf : ∀ b e, f b ≠ .error (.fault e)) :
    DmpSpec i fun d => do
      let (b, r) ← (f d.bsd).map fun b => (b, .done .none)
      return ({ d with bsd := b }, r) :=
  dmpSpec_bsd (fun b => (f b).map fun b => (b, .done .none))
    (fun h hi => by
      obtain ⟨b1, h1, h⟩ := Step.map_ok.mp h
      cases h
      exact hk h1 hi)
    fun b e => map_no_fault (hf b e)

/-- A query of the BSD: its answer is the report, nothing else changes. -/
theorem dmpSpec_bsdQuery {i : Instr} {α : Type} (f : Bsd → Step α) (report : α → Report)
    (hf : ∀ b e, f b ≠ .error (.fault e)) :
    DmpSpec i fun d => do
      let (b, r) ← (f d.bsd).map fun v => (d.bsd, report v)
      return ({ d with bsd := b }, r) :=
  dmpSpec_bsd (fun b => (f b).map fun v => (b, report v))
    (fun h hi => by
      obtain ⟨v, -, h⟩ := Step.map_ok.mp h
      cases h
      exact hi)
    fun b e => map_no_fault (hf b e)

/-- An operation on `dwin` alone. -/
theorem dmpSpec_win {i : Instr} (f : Window → Step (Window × OpResult))
    (hk : ∀ {w w' r}, w.Inv → f w = .ok (w', r) → w'.Inv) (hf : ∀ {w}, w.Inv → ∀ e, f w ≠ .error (.fault e)) :
    DmpSpec i fun d => do
      let (w, r) ← f d.dwin
      return ({ d with dwin := w }, .done r) where
  config := fun h => by
    obtain ⟨⟨w, q⟩, -, h⟩ := Step.bind_ok.mp h
    cases h
    exact .inl ⟨rfl, rfl⟩
  inv := fun hi h => by
    obtain ⟨⟨w, q⟩, hw, h⟩ := Step.bind_ok.mp h
    cases h
    exact hi.withWin (hk hi.dwin hw)
  noFault := fun hi e => bind_no_fault (hf hi.dwin e) fun _ _ => ok_no_fault _ _

/-- R174 driven directly: the bytes moved go to `rout` and `dwin`, or nothing changes. -/
theorem dmpSpec_swdCopy {i : Instr} (distance length : Nat) :
    DmpSpec i fun d => (swdCopy d.dwin distance length).map fun
      | none => (d, .error .invalidDistance)
      | some (w, bs) => ({ d with dwin := w, rout := d.rout ++ bs }, .done (.bytes bs)) where
  config := fun h => by
    obtain ⟨_ | ⟨w, bs⟩, -, h⟩ := Step.map_ok.mp h
    · cases h; exact .inl ⟨rfl, rfl⟩
    · cases h; exact .inl ⟨rfl, rfl⟩
  inv := fun hi h => by
    obtain ⟨_ | ⟨w, bs⟩, h1, h⟩ := Step.map_ok.mp h
    · cases h; exact hi
    · cases h
      obtain ⟨-, -, rfl, -⟩ := swdCopy_some h1
      exact (hi.withWin (pushAll_inv bs _ hi.dwin)).withOut _
  noFault := fun hi e => map_no_fault (swdCopy_no_fault hi.dwin e)

/-- R211: a query of the token interpreter changes nothing. -/
theorem dmpSpec_parseHeader {i : Instr} : DmpSpec i fun d => .ok (d, .done (.header (parseHeader d.bsd))) where
  config := fun h => by cases h; exact .inl ⟨rfl, rfl⟩
  inv := fun hi h => by cases h; exact hi
  noFault := fun _ _ => ok_no_fault _ _

/-- R212: a query of the token interpreter changes nothing. -/
theorem dmpSpec_parseToken {i : Instr} : DmpSpec i fun d =>
    if ¬ headerParsed d then refuse .headerNotParsed
    else .ok (d, .done (.token (parseToken d.dcfgW.toNat d.dcfgL.toNat d.bsd))) where
  config := fun h => by
    split at h
    · simp at h
    · cases h; exact .inl ⟨rfl, rfl⟩
  inv := fun hi h => by
    split at h
    · simp at h
    · cases h; exact hi
  noFault := fun _ _ => ite_no_fault (refuse_ne_fault _ _) (ok_no_fault _ _)

theorem dmpSpec_dReset : DmpSpec .dReset fun d => .ok (resetDmp d, .done .none) where
  config := fun h => by cases h; exact .inr (.inl ⟨rfl, rfl, rfl⟩)
  inv := fun hi h => by cases h; exact resetDmp_inv hi
  noFault := fun _ _ => ok_no_fault _ _

/-! ## The transitions of the decompressor and the configuration -/

theorem takeHeader_config {i : Instr} {w l : Nibble} {d d' : Dmp} {r : Report} (h : takeHeader w l d = .ok (d', r))
    (hs : d.dstate = .readingHeader) (hl : Config.legalL l.toNat) : DmpConfig i d d' := by
  obtain ⟨-, hw, -, rfl⟩ := takeHeader_cases h
  exact .inr (.inr ⟨hs, rfl, hw, hl⟩)

theorem takeCorruptHeader_config {d d' : Dmp} {r : Report} (h : takeCorruptHeader d = .ok (d', r)) :
    d'.dcfgW = d.dcfgW ∧ d'.dcfgL = d.dcfgL := by
  obtain ⟨-, he⟩ := takeCorruptHeader_cases h
  cases he
  exact ⟨rfl, rfl⟩

theorem needMore_config {d d' : Dmp} {r : Report} (h : needMore d = (d', r)) :
    d'.dcfgW = d.dcfgW ∧ d'.dcfgL = d.dcfgL := by
  unfold needMore at h
  split at h <;> cases h <;> exact ⟨rfl, rfl⟩

theorem takePad_config {d d' : Dmp} {r : Report} (h : takePad d = .ok (d', r)) :
    d'.dcfgW = d.dcfgW ∧ d'.dcfgL = d.dcfgL := by
  obtain ⟨-, rfl⟩ := takePad_cases h
  exact ⟨rfl, rfl⟩

theorem copyMatch_config {d d' : Dmp} {r : Report} (h : copyMatch d = .ok (d', r)) :
    d'.dcfgW = d.dcfgW ∧ d'.dcfgL = d.dcfgL := by
  obtain ⟨-, he⟩ | ⟨bs, -, -, rfl⟩ := copyMatch_cases h
  · cases he; exact ⟨rfl, rfl⟩
  · exact ⟨rfl, rfl⟩

theorem stepHeader_config {i : Instr} {d d' : Dmp} {r : Report} (h : stepHeader d = .ok (d', r))
    (hs : d.dstate = .readingHeader) : DmpConfig i d d' := by
  unfold stepHeader at h
  split at h
  · exact .inl (needMore_config (Except.ok.inj h))
  · exact .inl (takeCorruptHeader_config h)
  · rename_i hp
    exact takeHeader_config h hs (parseHeader_header hp).2.2

theorem stepToken_config {i : Instr} {d d' : Dmp} {r : Report} (h : stepToken d = .ok (d', r)) : DmpConfig i d d' := by
  unfold stepToken at h
  split at h
  · exact .inl (takePad_config h)
  split at h
  · simp at h
  split at h
  · exact .inl (needMore_config (Except.ok.inj h))
  · obtain ⟨d1, h1, h⟩ := Step.map_ok.mp h
    obtain ⟨-, rfl⟩ := latchLiteral_cases h1
    cases h
    exact .inl ⟨rfl, rfl⟩
  · obtain ⟨d1, h1, h⟩ := Step.map_ok.mp h
    obtain ⟨-, rfl⟩ := latchMatch_cases h1
    cases h
    exact .inl ⟨rfl, rfl⟩

/-- R262 to R268, R24: of the transitions of `D.STEP` only the reading of a header writes the configuration. -/
theorem dmpSpec_dStep : DmpSpec .dStep dStep where
  config := fun {d d' r} h => by
    unfold dStep at h
    cases hs : d.dstate with
    | readingHeader => rw [hs] at h; exact stepHeader_config h hs
    | readingToken => rw [hs] at h; exact stepToken_config h
    | appendingLiteral => rw [hs] at h; cases h; exact .inl ⟨rfl, rfl⟩
    | copyingMatch => rw [hs] at h; exact .inl (copyMatch_config h)
    | done => rw [hs] at h; cases h; exact .inl ⟨rfl, rfl⟩
    | error => rw [hs] at h; cases h; exact .inl ⟨rfl, rfl⟩
  inv := fun hi h => dStep_inv h hi
  noFault := fun hi e => dStep_no_fault hi.dwin e

/-! ## The stream elements -/

theorem dmpSpec_carryHeader {i : Instr} (v w l : Nibble) (k : BitVec 1) (q : BitVec 3) :
    DmpSpec i (carryHeader v w l k q) where
  config := fun h => by
    unfold carryHeader at h
    split at h
    · simp at h
    · rename_i hs
      split at h
      · rename_i hl
        exact takeHeader_config h (not_not.mp hs) (headerLegal_iff.mp hl).2.2.1
      · exact .inl (takeCorruptHeader_config h)
  inv := fun hi h => carryHeader_inv h hi
  noFault := fun _ e => carryHeader_no_fault v w l k q _ e

theorem dmpSpec_carryLiteral {i : Instr} (l : Nat) (x : Byte) (k : Nat) : DmpSpec i (carryLiteral l x k) where
  config := fun h => by
    obtain ⟨-, -, -, d1, h1, rfl⟩ := carryLiteral_cases h
    obtain ⟨-, rfl⟩ := latchLiteral_cases h1
    exact .inl ⟨rfl, rfl⟩
  inv := fun hi h => carryLiteral_inv h hi
  noFault := fun _ e => carryLiteral_no_fault l k x _ e

theorem dmpSpec_carryShort {i : Instr} (l c : Nat) : DmpSpec i (carryShort l c) where
  config := fun h => by
    unfold carryShort at h
    split at h
    · simp at h
    · exact (dmpSpec_carryLiteral l _ _).config h
  inv := fun hi h => carryShort_inv h hi
  noFault := fun _ e => carryShort_no_fault l c _ e

theorem dmpSpec_carryEscaped {i : Instr} (l : Nat) (x : Byte) : DmpSpec i (carryEscaped l x) :=
  dmpSpec_carryLiteral l x _

/-- R96: `dist` is a field of `w` bits, so the latched distance is within the window. -/
theorem dmpSpec_carryMatch {i : Instr} (w : Nat) (dist : BitVec w) (n : Nibble) :
    DmpSpec i (carryMatch w dist.toNat n) where
  config := fun h => by
    obtain ⟨-, -, d1, h1, h2⟩ := carryMatch_cases h
    obtain ⟨-, rfl⟩ := latchMatch_cases h1
    have hc := copyMatch_config h2
    exact .inl hc
  inv := fun hi h => carryMatch_inv h hi dist.isLt
  noFault := fun hi e => carryMatch_no_fault hi.dwin e

theorem dmpSpec_carryPad {i : Instr} (k : Nat) : DmpSpec i (carryPad k) where
  config := fun h => by
    unfold carryPad at h
    split at h
    · simp at h
    · exact .inl (takePad_config h)
  inv := fun hi h => carryPad_inv h hi
  noFault := fun _ e => carryPad_no_fault k _ e

/-! ## The shape of every instruction -/

/-- What `exec` does with an instruction (R20, R108): it runs an operation of the unit the instruction is of, does nothing,
or refuses it. -/
inductive ExecShape (i : Instr) : Prop where
  | compressor (f : Cmp → Step (Cmp × Report)) (unit : ofCompressor i = true) (spec : CmpSpec i f)
      (is : ∀ s, exec i s = onCmp f s)
  | decompressor (f : Dmp → Step (Dmp × Report)) (unit : ofCompressor i = false) (spec : DmpSpec i f)
      (is : ∀ s, exec i s = onDmp f s)
  | nothing (is : ∀ s, exec i s = .next s)
  | refused (r : Refusal) (is : ∀ s, exec i s = .refused r)

/-- The one case split over the instructions. -/
theorem exec_shape (i : Instr) : ExecShape i := by
  cases i with
  | hdr v w l k r => exact .decompressor _ rfl (dmpSpec_carryHeader v w l k r) fun _ => rfl
  | litL5 c => exact .decompressor _ rfl (dmpSpec_carryShort 5 c.toNat) fun _ => rfl
  | litL6 c => exact .decompressor _ rfl (dmpSpec_carryShort 6 c.toNat) fun _ => rfl
  | litL7 c => exact .decompressor _ rfl (dmpSpec_carryShort 7 c.toNat) fun _ => rfl
  | litL8 c => exact .decompressor _ rfl (dmpSpec_carryShort 8 c.toNat) fun _ => rfl
  | escL5 x => exact .decompressor _ rfl (dmpSpec_carryEscaped 5 x) fun _ => rfl
  | escL6 x => exact .decompressor _ rfl (dmpSpec_carryEscaped 6 x) fun _ => rfl
  | escL7 x => exact .decompressor _ rfl (dmpSpec_carryEscaped 7 x) fun _ => rfl
  | matchW8 d n => exact .decompressor _ rfl (dmpSpec_carryMatch 8 d n) fun _ => rfl
  | matchW9 d n => exact .decompressor _ rfl (dmpSpec_carryMatch 9 d n) fun _ => rfl
  | matchW10 d n => exact .decompressor _ rfl (dmpSpec_carryMatch 10 d n) fun _ => rfl
  | matchW11 d n => exact .decompressor _ rfl (dmpSpec_carryMatch 11 d n) fun _ => rfl
  | matchW12 d n => exact .decompressor _ rfl (dmpSpec_carryMatch 12 d n) fun _ => rfl
  | matchW13 d n => exact .decompressor _ rfl (dmpSpec_carryMatch 13 d n) fun _ => rfl
  | matchW14 d n => exact .decompressor _ rfl (dmpSpec_carryMatch 14 d n) fun _ => rfl
  | matchW15 d n => exact .decompressor _ rfl (dmpSpec_carryMatch 15 d n) fun _ => rfl
  | pad k => exact .decompressor _ rfl (dmpSpec_carryPad k) fun _ => rfl
  | bseClear =>
    exact .compressor _ rfl (cmpSpec_bse (fun _ b => .ok (bseClear b)) (fun h _ => by cases h; exact bseClear_inv _)
      fun _ _ _ => ok_no_fault _ _) fun _ => rfl
  | bseWriteBits v n =>
    exact .compressor _ rfl (cmpSpec_bse (fun _ => writeBits v.toNat n.toNat) (fun h => (writeBits_kept h).inv)
      fun _ => writeBits_no_fault _ _) fun _ => rfl
  | bseFlush =>
    exact .compressor _ rfl (cmpSpec_bse (fun _ => Machine.bseFlush) (fun h => (bseFlush_kept h).1.inv)
      fun _ => bseFlush_no_fault) fun _ => rfl
  | temEmitHeader w l =>
    exact .compressor _ rfl (cmpSpec_bse (fun _ => emitHeader w.toNat l.toNat) (fun h => (emitHeader_kept h).inv)
      fun _ => writeBits_no_fault _ _) fun _ => rfl
  | temEmitLiteral x =>
    exact .compressor _ rfl (cmpSpec_bse (fun c => emitLiteral c.ccfgL.toNat x) (fun h => (emitLiteral_kept h).inv)
      fun _ => emitLiteral_no_fault _ _) fun _ => rfl
  | temEmitMatch d n =>
    exact .compressor _ rfl (cmpSpec_bse (fun c => emitMatch c.ccfgW.toNat d.toNat n.toNat)
      (fun h => (emitMatch_kept h).inv) fun _ => emitMatch_no_fault _ _ _) fun _ => rfl
  | bsdClear =>
    exact .decompressor _ rfl (dmpSpec_bsd (fun b => .ok (Machine.bsdClear b, .done .none))
      (fun h _ => by cases h; exact Nat.zero_le _) fun _ _ => ok_no_fault _ _) fun _ => rfl
  | bsdFeed x =>
    exact .decompressor _ rfl (dmpSpec_bsdCommand (Machine.bsdFeed x) bsdFeed_keeps (bsdFeed_no_fault x)) fun _ => rfl
  | dFeed x =>
    exact .decompressor _ rfl (dmpSpec_bsdCommand (Machine.bsdFeed x) bsdFeed_keeps (bsdFeed_no_fault x)) fun _ => rfl
  | bsdEnd => exact .decompressor _ rfl (dmpSpec_bsdCommand Machine.bsdEnd bsdEnd_keeps bsdEnd_no_fault) fun _ => rfl
  | dEnd => exact .decompressor _ rfl (dmpSpec_bsdCommand Machine.bsdEnd bsdEnd_keeps bsdEnd_no_fault) fun _ => rfl
  | bsdReadBits n =>
    exact .decompressor _ rfl (dmpSpec_bsd (readBits n.toNat) readBits_keeps (readBits_no_fault _)) fun _ => rfl
  | bsdSkipBits n =>
    exact .decompressor _ rfl (dmpSpec_bsdCommand (skipBits n.toNat) skipBits_cursor (skipBits_no_fault _)) fun _ => rfl
  | bsdAvail =>
    exact .decompressor _ rfl (dmpSpec_bsdQuery (fun b => .ok (avail b)) (fun v => .done (.count v))
      fun _ _ => ok_no_fault _ _) fun _ => rfl
  | bsdPeekBits n off =>
    exact .decompressor _ rfl (dmpSpec_bsdQuery (bsdPeek n.toNat off.toNat) (fun v => .done (.value v))
      (bsdPeek_no_fault _ _)) fun _ => rfl
  | bsdTailIsPad =>
    exact .decompressor _ rfl (dmpSpec_bsdQuery (fun b => .ok (tailIsPad b)) (fun v => .done (.flag v))
      fun _ _ => ok_no_fault _ _) fun _ => rfl
  | swdClear u w =>
    cases u with
    | cwin =>
      exact .compressor _ rfl (cmpSpec_win _ swdClear_keeps fun _ _ => map_no_fault (swdClear_no_fault _ _ _)) fun _ => rfl
    | dwin =>
      exact .decompressor _ rfl (dmpSpec_win _ swdClear_keeps fun _ _ => map_no_fault (swdClear_no_fault _ _ _)) fun _ => rfl
  | swdPush u b =>
    cases u with
    | cwin => exact .compressor _ rfl (cmpSpec_win _ swdPush_keeps fun _ _ => ok_no_fault _ _) fun _ => rfl
    | dwin => exact .decompressor _ rfl (dmpSpec_win _ swdPush_keeps fun _ _ => ok_no_fault _ _) fun _ => rfl
  | swdHist u d =>
    cases u with
    | cwin =>
      exact .compressor _ rfl (cmpSpec_win _ swdHist_keeps fun hi e =>
        map_no_fault (swdHist_no_fault .cwin d.toNat hi e)) fun _ => rfl
    | dwin =>
      exact .decompressor _ rfl (dmpSpec_win _ swdHist_keeps fun hi e =>
        map_no_fault (swdHist_no_fault .dwin d.toNat hi e)) fun _ => rfl
  | swdCopy d n => exact .decompressor _ rfl (dmpSpec_swdCopy d.toNat n.toNat) fun _ => rfl
  | tinParseHeader => exact .decompressor _ rfl dmpSpec_parseHeader fun _ => rfl
  | tinParseToken => exact .decompressor _ rfl dmpSpec_parseToken fun _ => rfl
  | mseSearch => exact .compressor _ rfl cmpSpec_search fun _ => rfl
  | csqEncodeStep =>
    exact .compressor _ rfl (cmpSpec_command encodeStep (fun h hi => (encodeStep_keeps h hi.busy).1) encodeStep_config
      fun hi => encodeStep_no_fault hi.cwin) fun _ => rfl
  | cReset => exact .compressor _ rfl cmpSpec_cReset fun _ => rfl
  | cOpen w l => exact .compressor _ rfl (cmpSpec_cOpen w l) fun _ => rfl
  | cWrite x => exact .compressor _ rfl (cmpSpec_command (cWrite x) cWrite_inv cWrite_config cWrite_no_fault) fun _ => rfl
  | cClose => exact .compressor _ rfl (cmpSpec_command cClose cClose_inv cClose_config cClose_no_fault) fun _ => rfl
  | dReset => exact .decompressor _ rfl dmpSpec_dReset fun _ => rfl
  | dStep => exact .decompressor _ rfl dmpSpec_dStep fun _ => rfl
  | reservedDOp3 => exact .refused _ fun _ => rfl
  | reservedBsdOp _ => exact .refused _ fun _ => rfl
  | noneBse => exact .nothing fun _ => rfl
  | noneBsd => exact .nothing fun _ => rfl
  | noneSwd _ => exact .nothing fun _ => rfl
  | noneTem => exact .nothing fun _ => rfl
  | noneCOp => exact .nothing fun _ => rfl
  | noneDOp => exact .nothing fun _ => rfl

/-! ## One instruction, one step -/

/-- R32: an instruction keeps the invariant of the unit it is of, and does not touch the other. -/
theorem exec_inv {i : Instr} {s t : State} (hs : s.Inv) (h : exec i s = .next t) : t.Inv := by
  cases exec_shape i with
  | compressor f _ spec is =>
    rw [is] at h
    obtain ⟨c, r, hf, rfl⟩ := onCmp_next.mp h
    exact ⟨spec.inv hs.cmp hf, hs.dmp⟩
  | decompressor f _ spec is =>
    rw [is] at h
    obtain ⟨d, r, hf, rfl⟩ := onDmp_next.mp h
    exact ⟨hs.cmp, spec.inv hs.dmp hf⟩
  | nothing is =>
    rw [is] at h
    cases h
    exact hs
  | refused r is => rw [is] at h; cases h

/-- R36: under the invariant no instruction faults. -/
theorem exec_no_fault {s : State} (hs : s.Inv) (i : Instr) (e : Fault) : exec i s ≠ .fault e := by
  intro h
  cases exec_shape i with
  | compressor f _ spec is => rw [is] at h; exact spec.noFault hs.cmp e (onCmp_fault.mp h)
  | decompressor f _ spec is => rw [is] at h; exact spec.noFault hs.dmp e (onDmp_fault.mp h)
  | nothing is => rw [is] at h; cases h
  | refused r is => rw [is] at h; cases h

/-- R7: a step runs one instruction, from a state with the units as they are; or what is presented is no operation. -/
theorem step_cases (s : State) :
    (∃ i inbox, step s = exec i { s with inbox := inbox }) ∨ ∃ e, step s = .refused (.undecodable e) := by
  unfold step
  split
  · split
    · exact .inl ⟨_, _, rfl⟩
    · exact .inr ⟨_, rfl⟩
  · rename_i hin
    have hs : { s with inbox := [] } = s := by rw [← hin]
    split
    · exact .inl ⟨_, [], by rw [hs]⟩
    · exact .inl ⟨_, [], by rw [hs]⟩

/-- The invariant does not speak of what is presented (assumption log 3). -/
theorem inv_withInbox {s : State} (hs : s.Inv) (inbox : List PortWord) : State.Inv { s with inbox := inbox } :=
  ⟨hs.cmp, hs.dmp⟩

theorem step_inv {s t : State} (hs : s.Inv) (h : step s = .next t) : t.Inv := by
  obtain ⟨i, inbox, he⟩ | ⟨e, he⟩ := step_cases s
  · exact exec_inv (inv_withInbox hs inbox) (he ▸ h)
  · rw [he] at h; cases h

theorem step_no_fault {s : State} (hs : s.Inv) : safeStep s := fun f h => by
  obtain ⟨i, inbox, he⟩ | ⟨e, he⟩ := step_cases s
  · exact exec_no_fault (inv_withInbox hs inbox) i f (he ▸ h)
  · rw [he] at h; cases h

/-! ## The launch state -/

theorem windowReset_inv : Window.reset.Inv where
  canonical := List.Pairwise.nil
  inRam := fun _ hx => absurd hx List.not_mem_nil
  legal := by decide
  cursor := Window.size_pos _
  filled := Nat.zero_le _
  written := fun d h1 h2 => absurd (h1.trans h2) (Nat.not_succ_le_zero 0)

theorem cmpReset_inv : Cmp.reset.Inv where
  bse := bseClear_inv Cmp.reset.bse
  cwin := windowReset_inv
  cells := List.length_replicate
  ahead := by decide
  opened := fun h => nomatch h
  error := rfl

theorem dmpReset_inv : Dmp.reset.Inv where
  cursor := Nat.zero_le _
  dwin := windowReset_inv
  parsed := by decide
  literal := fun h => nomatch h
  latched := fun h => nomatch h
  failed := fun h => nomatch h
  fine := fun _ => rfl

/-! ## The obligations -/

/-- Settles O46: the invariant of both units at their reset values. -/
theorem resetMeetsTheInvariant : Obligations.ResetMeetsTheInvariant := ⟨cmpReset_inv, dmpReset_inv⟩

/-- Settles O47: each operation keeps its unit's invariant, and a step is one operation. -/
theorem stepKeepsTheInvariant : Obligations.StepKeepsTheInvariant :=
  ⟨fun _ _ => step_inv, fun _ _ _ => exec_inv⟩

/-- Settles O48: under the invariant every cell an operation reads has been written. -/
theorem noStepFaults : Obligations.NoStepFaults := fun _ hs => ⟨step_no_fault hs, exec_no_fault hs⟩

/-- Settles O51: an operation is a function of its own unit, which the other unit stands beside. -/
theorem unitsShareNothing : Obligations.UnitsShareNothing := by
  intro i s t h
  cases exec_shape i with
  | compressor f unit _ is =>
    rw [is] at h
    obtain ⟨c, r, hf, rfl⟩ := onCmp_next.mp h
    exact ⟨fun _ => ⟨rfl, fun d => (is _).trans (onCmp_ok hf)⟩, fun hd => by simp [unit] at hd⟩
  | decompressor f unit _ is =>
    rw [is] at h
    obtain ⟨d, r, hf, rfl⟩ := onDmp_next.mp h
    exact ⟨fun hc => by simp [unit] at hc, fun _ => ⟨rfl, fun c => (is _).trans (onDmp_ok hf)⟩⟩
  | nothing is =>
    rw [is] at h
    cases h
    exact ⟨fun _ => ⟨rfl, fun _ => is _⟩, fun _ => ⟨rfl, fun _ => is _⟩⟩
  | refused r is => rw [is] at h; cases h

/-- Settles O53: each operation keeps to the configuration rule of its unit and leaves the other unit's registers. -/
theorem configurationIsImmutable : Obligations.ConfigurationIsImmutable := by
  intro i s t h
  cases exec_shape i with
  | compressor f _ spec is =>
    rw [is] at h
    obtain ⟨c, r, hf, rfl⟩ := onCmp_next.mp h
    exact ⟨spec.config hf, .inl ⟨rfl, rfl⟩⟩
  | decompressor f _ spec is =>
    rw [is] at h
    obtain ⟨d, r, hf, rfl⟩ := onDmp_next.mp h
    exact ⟨.inl ⟨rfl, rfl⟩, spec.config hf⟩
  | nothing is =>
    rw [is] at h
    cases h
    exact ⟨.inl ⟨rfl, rfl⟩, .inl ⟨rfl, rfl⟩⟩
  | refused r is => rw [is] at h; cases h

end Sys2Proof.Proofs.Units
end

section
/-! The decoder follows the encoder, token by token (R33, R242): the token an encode step emits, read by two `D.STEP`s,
puts the same bytes into the decoder's window as the step put into the encoder's. -/

namespace Sys2Proof.Proofs.Lockstep

open Sys2Proof Sys2Proof.Machine

/-! ## Agreement of two windows -/

theorem windowsAgree_push {a b : Window} (x : Byte) (ha : a.Inv) (hb : b.Inv) (h : windowsAgree a b) :
    windowsAgree (push a x) (push b x) := by
  obtain ⟨hbits, hwr, hfill, hhist⟩ := h
  have hsize : a.size = b.size := congrArg (2 ^ ·) hbits
  refine ⟨hbits, by simp only [push_wr, hwr, hsize], by simp only [push_fill, hfill, hsize], fun d h1 h2 => ?_⟩
  obtain ⟨hd, hds⟩ : d ≤ a.fill + 1 ∧ d ≤ a.size := by simpa using h2
  rw [hist_push a x d ha.canonical ha.cursor h1 hds, hist_push b x d hb.canonical hb.cursor h1 (hsize ▸ hds)]
  split
  · rfl
  · exact hhist _ (by omega) (by omega)

theorem windowsAgree_pushAll (bs : List Byte) {a b : Window} (ha : a.Inv) (hb : b.Inv) (h : windowsAgree a b) :
    windowsAgree (pushAll a bs) (pushAll b bs) := by
  induction bs generalizing a b with
  | nil => exact h
  | cons x t ih => exact ih (push_inv a x ha) (push_inv b x hb) (windowsAgree_push x ha hb h)

/-! ## Two steps of the decompressor carry a token -/

/-- What carrying out a token that stands for the bytes `bs` does, `rest` being the bits behind it. -/
structure Carried (d d' : Dmp) (bs : List Byte) (rest : List Bool) : Prop where
  dwin : d'.dwin = pushAll d.dwin bs
  dstate : d'.dstate = .readingToken
  pending : pendingBits d'.bsd = rest
  rout : d'.rout = d.rout ++ bs

theorem runScript_twoSteps {s : State} {d1 d2 : Dmp} {q1 q2 : Report} (h1 : dStep s.dmp = .ok (d1, q1))
    (h2 : dStep d1 = .ok (d2, q2)) :
    runScript [.dStep, .dStep] s = .next { s with dmp := d2, report := q2 } := by
  have e1 : exec .dStep s = .next { s with dmp := d1, report := q1 } := onDmp_ok h1
  have e2 : exec .dStep { s with dmp := d1, report := q1 } = .next { s with dmp := d2, report := q2 } := onDmp_ok h2
  simp only [runScript, e1, e2]

theorem skipBits_eq {n : Nat} {b : Bsd} (h : n ≤ avail b) : skipBits n b = .ok { b with rpos := b.rpos + n } :=
  if_neg (Nat.not_lt.mpr h)

/-- R264, case `Literal`: `D.STEP` consumes the token and latches its byte. -/
theorem dStep_literal {d : Dmp} {x : Byte} {k : Nat} (hs : d.dstate = .readingToken) (hp : tailIsPad d.bsd = false)
    (hh : headerParsed d = true) (h : parseToken d.dcfgW.toNat d.dcfgL.toNat d.bsd = .literal x k) :
    dStep d = .ok ({ d with bsd := { d.bsd with rpos := d.bsd.rpos + k }, tokKind := true, tokByte := x,
                            dstate := .appendingLiteral }, .done .none) := by
  simp only [dStep, hs, stepToken, hp, hh, h, latchLiteral, skipBits_eq (parseToken_literal h).2, not_true,
    Bool.false_eq_true, if_false, Step.ok_bind, Step.pure_ok, Step.map_ok_eq]

/-- R264, case `Match`: `D.STEP` consumes the token and latches its distance and length. -/
theorem dStep_matched {d : Dmp} {dist : Half} {len : Five} {k : Nat} (hs : d.dstate = .readingToken)
    (hp : tailIsPad d.bsd = false) (hh : headerParsed d = true) (hk : k ≤ avail d.bsd)
    (h : parseToken d.dcfgW.toNat d.dcfgL.toNat d.bsd = .matched dist len k) :
    dStep d = .ok ({ d with bsd := { d.bsd with rpos := d.bsd.rpos + k }, tokKind := false, tokDist := dist,
                            tokLen := len, dstate := .copyingMatch }, .done .none) := by
  simp only [dStep, hs, stepToken, hp, hh, h, latchMatch, skipBits_eq hk, not_true, Bool.false_eq_true, if_false,
    Step.ok_bind, Step.pure_ok, Step.map_ok_eq]

/-- R266: `D.STEP` carries out the latched match, its copy succeeding. -/
theorem dStep_copied {d : Dmp} {bs : List Byte} (hs : d.dstate = .copyingMatch)
    (hc : swdCopy d.dwin d.tokDist.toNat d.tokLen.toNat = .ok (some (pushAll d.dwin bs, bs))) :
    dStep d = .ok ({ d with dwin := pushAll d.dwin bs, rout := d.rout ++ bs, dstate := .readingToken },
      .done .none) := by
  simp only [dStep, hs, copyMatch, hc, Step.ok_bind, Step.pure_ok]

theorem literalCode_head (l : Nat) (x : Byte) : ∃ t, literalCode l x = true :: t := by
  unfold literalCode
  split
  · exact ⟨_, rfl⟩
  · exact ⟨_, rfl⟩

section
variable {r : State} {rest : List Bool} (hs : r.dmp.dstate = .readingToken) (hw : Config.legalW r.dmp.dcfgW.toNat)
  (hl : Config.legalL r.dmp.dcfgL.toNat)

include hw hl in
theorem headerParsed_of_legal : headerParsed r.dmp = true := by simp [headerParsed, hw, hl]

include hs hw hl

/-- R264, R265: two steps carry out the literal token of a byte. -/
theorem twoSteps_literal {x : Byte} (hb : pendingBits r.dmp.bsd = literalCode r.dmp.dcfgL.toNat x ++ rest) :
    ∃ r', runScript [.dStep, .dStep] r = .next r' ∧ Carried r.dmp r'.dmp [x] rest := by
  obtain ⟨t, ht⟩ := literalCode_head r.dmp.dcfgL.toNat x
  have hpad : tailIsPad r.dmp.bsd = false := tailIsPad_eq_false_of_literal (rest := t ++ rest) (by rw [hb, ht]; rfl)
  have h1 := dStep_literal hs hpad (headerParsed_of_legal hw hl) (parseToken_literalCode hl hb)
  exact ⟨_, runScript_twoSteps h1 rfl, rfl, rfl, pendingBits_skip hb, rfl⟩

/-- R264, R266: two steps carry out a match token whose copy succeeds. -/
theorem twoSteps_match {dist : Nat} {n : Nibble} {bs : List Byte}
    (hb : pendingBits r.dmp.bsd = matchBitsOf r.dmp.dcfgW.toNat dist n ++ rest) (hd : dist < 2 ^ r.dmp.dcfgW.toNat)
    (hc : swdCopy r.dmp.dwin (dist + 1) (n.toNat + 2) = .ok (some (pushAll r.dmp.dwin bs, bs))) :
    ∃ r', runScript [.dStep, .dStep] r = .next r' ∧ Carried r.dmp r'.dmp bs rest := by
  have hlen : (matchBitsOf r.dmp.dcfgW.toNat dist n).length = 5 + r.dmp.dcfgW.toNat := by
    simp only [matchBitsOf, List.length_cons, List.length_append, bitsOf_length, Config.lenBits]
    omega
  have havail := avail_of_pending hb
  have hpad : tailIsPad r.dmp.bsd = false := tailIsPad_eq_false_of_long (by have := hw.1; omega)
  have h1 := dStep_matched hs hpad (headerParsed_of_legal hw hl) (by omega) (parseToken_match hb hd)
  have hdist : (distanceOf dist).toNat = dist + 1 :=
    distanceOf_toNat dist (hd.trans_le (Nat.pow_le_pow_right (by decide) hw.2))
  have h2 := dStep_copied (d := { r.dmp with
    bsd := { r.dmp.bsd with rpos := r.dmp.bsd.rpos + (5 + r.dmp.dcfgW.toNat) }, tokKind := false,
    tokDist := distanceOf dist, tokLen := lengthOf n, dstate := .copyingMatch }) (bs := bs) rfl
    (by simp only [hdist, lengthOf_toNat, hc])
  exact ⟨_, runScript_twoSteps h1 h2, rfl, rfl, hlen ▸ pendingBits_skip hb, rfl⟩

end

/-! ## What the encoder found is what the decoder copies -/

/-- R231, R175 (c): a match does not reach past its own distance, so the copy repeats nothing: the bytes it moves are the
lookahead bytes the search compared. -/
theorem swdCopy_of_search {c : Cmp} {w : Window} {len dist : Nat} (hb : Best c.cwin (lookahead c) c.cwin.fill (len, dist))
    (hla : c.la.length = 17) (hlen : 2 ≤ len) (hw : w.Inv) (ha : windowsAgree c.cwin w) :
    swdCopy w dist len = .ok (some (pushAll w (c.la.take len), c.la.take len)) := by
  obtain ⟨hzero, -⟩ | ⟨-, hd1, hdfill, hle, hfound⟩ := hb.found
  · simp only at hzero; omega
  simp only at hd1 hdfill hle hfound
  obtain ⟨-, -, hfill, hhist⟩ := ha
  rw [lookahead_length c hla] at hle
  obtain ⟨bs, hcopy, hbs, hbyte⟩ := swdCopy_ok (n := len) hw hd1 (hfill ▸ hdfill)
  have htake : bs = c.la.take len := by
    apply List.ext_getElem?
    intro j
    by_cases hj : j < len
    · rw [hbyte j hj, Nat.mod_eq_of_lt (by omega), ← hhist _ (by omega) (by omega), ← hfound j hj,
        lookahead_getElem? c j (by omega), List.getElem?_take_of_lt hj]
    · rw [List.getElem?_eq_none (by omega), List.getElem?_eq_none (by simp; omega)]
  rw [hcopy, htake]

/-- R235: the bytes gone from the lookahead are the bytes encoded. -/
theorem stepBytes_eq_taken {c c' : Cmp} {len dist : Nat} (h : EncodeDone c c' len dist) :
    c.la.take (c.laN - c'.laN) = stepBytes c len := by
  have hn : c.laN - c'.laN = (stepBytes c len).length := by
    have := h.fits
    rw [h.after]
    simp only [dropEncoded_laN]
    omega
  rw [hn, ← h.taken]

/-- R235: the window after an encode step has the encoded bytes pushed. -/
theorem cwin_of_encodeDone {c c' : Cmp} {len dist : Nat} (h : EncodeDone c c' len dist) :
    c'.cwin = pushAll c.cwin (stepBytes c len) := by
  rw [h.after]
  rfl

/-- R33, R242: two steps of the decompressor carry out the token the encode step emitted. -/
theorem twoSteps_of_encodeDone {c c' : Cmp} {len dist : Nat} {r : State} {rest : List Bool}
    (h : EncodeDone c c' len dist) (hc : encodes c) (hsize : c.cwin.bits = c.ccfgW.toNat)
    (hw : Config.legalW c.ccfgW.toNat) (hl : Config.legalL c.ccfgL.toNat) (hr : r.Inv)
    (ha : windowsAgree c.cwin r.dmp.dwin) (hs : r.dmp.dstate = .readingToken) (hcw : r.dmp.dcfgW = c.ccfgW)
    (hcl : r.dmp.dcfgL = c.ccfgL) (hb : pendingBits r.dmp.bsd = stepBits c len dist ++ rest) :
    ∃ r', runScript [.dStep, .dStep] r = .next r' ∧ Carried r.dmp r'.dmp (stepBytes c len) rest := by
  obtain ⟨-, hcwin, hla, -⟩ := hc
  unfold stepBits at hb
  unfold stepBytes
  rw [← hcw] at hw
  rw [← hcl] at hl
  split
  · rename_i hlen
    rw [if_pos hlen, ← hcl] at hb
    exact twoSteps_literal hs hw hl hb
  · rename_i hlen
    rw [if_neg hlen, ← hcw] at hb
    obtain ⟨-, h17, hbounds⟩ := h.best.bounds hla
    simp only at h17 hbounds
    obtain ⟨hd1, hdfill, -⟩ := hbounds (by omega)
    have hring : dist ≤ 2 ^ r.dmp.dcfgW.toNat := by
      rw [hcw, ← hsize]
      exact hdfill.trans hcwin.filled
    have hfield : (BitVec.ofNat 4 (len - 2)).toNat = len - 2 := by rw [BitVec.toNat_ofNat]; omega
    refine twoSteps_match hs hw hl hb (by omega) ?_
    rw [hfield, Nat.sub_add_cancel hd1, Nat.sub_add_cancel (by omega)]
    exact swdCopy_of_search h.best hla (by omega) hr.dmp.dwin ha

theorem exec_csqEncodeStep_next {s t : State} (h : exec .csqEncodeStep s = .next t) :
    encodeStep s.cmp = .ok t.cmp := by
  obtain ⟨c, q, hf, rfl⟩ := (onCmp_next (f := fun c => (encodeStep c).map fun c => (c, .done .none))).mp h
  obtain ⟨c1, he, hc⟩ := Step.map_ok.mp hf
  cases hc
  exact he

/-- Settles O55: the decompressor carries out the emitted token, and both windows have had the same bytes pushed. -/
theorem windowsStayEqual : Obligations.WindowsStayEqual := by
  intro s s' r toks rest hc ⟨hopen, hflushed, hsize⟩ hw hl hr hstep htoks ha hs hcw hcl hb
  have he := exec_csqEncodeStep_next hstep
  obtain ⟨_, _, hen⟩ := encodeStep_inv he
  have ⟨hbse, hcwin, hla, hlaN⟩ := hc
  obtain ⟨c1, len, dist, he1, hdone⟩ :=
    encodeStep_ok hbse hcwin hla hlaN hen.some hopen hflushed hsize hw hl
  obtain rfl : c1 = s'.cmp := Except.ok.inj (he1.symm.trans he)
  obtain rfl : toks = stepBits s.cmp len dist := List.append_cancel_left (htoks.symm.trans hdone.wrote.bits)
  obtain ⟨r', hrun, hcarried⟩ := twoSteps_of_encodeDone hdone hc hsize hw hl hr ha hs hcw hcl hb
  refine ⟨r', hrun, ?_, hcarried.dstate, hcarried.pending, ?_⟩
  · rw [hcarried.dwin, cwin_of_encodeDone hdone]
    exact windowsAgree_pushAll _ hcwin hr.dmp.dwin ha
  · rw [hcarried.rout, stepBytes_eq_taken hdone]

end Sys2Proof.Proofs.Lockstep
end

section
/-! What an instruction leaves as it is: the cells of a window it does not append to (R60, R172), and all that has been
output and read (R71 (a), (b), R29, R134 (c), R159 (c)). One case split over the instructions of each unit
(`exec_cmpKeeps`, `exec_dmpKeeps`) serves both statements. -/

namespace Sys2Proof.Proofs.Frame

open Sys2Proof Sys2Proof.Machine Sys2Proof.Proofs.Units

/-! ## Pushing writes at the cursor -/

/-- R60, R172: one push writes the cell at the cursor and no other. -/
theorem memRead_push {w : Window} {b : Byte} {a : Nat} (hw : w.Inv) (ha : a ≠ w.wr) :
    memRead (push w b).buf a = memRead w.buf a := by
  rw [push_buf, memRead_memWrite _ _ _ _ hw.canonical, if_neg ha]

theorem memRead_pushAll {bs : List Byte} {w : Window} {a : Nat} (hw : w.Inv)
    (ha : ∀ j, j < bs.length → a ≠ (w.wr + j) % w.size) : memRead (pushAll w bs).buf a = memRead w.buf a := by
  induction bs generalizing w with
  | nil => rfl
  | cons b t ih =>
    have hcursor : a ≠ w.wr := by simpa [Nat.mod_eq_of_lt hw.cursor] using ha 0 (by simp)
    have hrest : ∀ j, j < t.length → a ≠ ((push w b).wr + j) % (push w b).size := fun j hj => by
      rw [push_wr, push_size, Nat.mod_add_mod, Nat.add_assoc, Nat.add_comm 1]
      exact ha (j + 1) (by simpa using hj)
    exact (ih (push_inv w b hw) hrest).trans (memRead_push hw hcursor)

/-! ## The operations of a window that append nothing -/

/-- R171: a clear leaves the RAM. -/
theorem swdClearCommand_buf {n : Nat} {w w' : Window} {r : OpResult}
    (h : (swdClear w n).map (fun w => (w, OpResult.none)) = .ok (w', r)) : w'.buf = w.buf := by
  obtain ⟨w1, h1, h⟩ := Step.map_ok.mp h
  cases h
  rw [(swdClear_ok h1).2, clearWindow_buf]

/-- R173: a read of the history changes nothing. -/
theorem swdHistCommand_buf {u : Win} {d : Nat} {w w' : Window} {r : OpResult}
    (h : (swdHist u w d).map (fun b => (w, OpResult.byte b)) = .ok (w', r)) : w'.buf = w.buf := by
  obtain ⟨b, -, h⟩ := Step.map_ok.mp h
  cases h
  rfl

/-! ## The compressor -/

/-- What instruction `i` leaves of the compressor: the cells of `cwin` unless it appends to it, and what has been output
unless it voids the stream. -/
structure CmpKeeps (i : Instr) (c c' : Cmp) : Prop where
  cells : appendsTo i .cwin = false → c'.cwin.buf = c.cwin.buf
  output : i ≠ .cReset → i ≠ .bseClear → c.bse.obuf <+: c'.bse.obuf

theorem CmpKeeps.refl (i : Instr) (c : Cmp) : CmpKeeps i c c := ⟨fun _ => rfl, fun _ _ => List.prefix_rfl⟩

/-- R235: an encode step emits one token behind what is there. -/
theorem encodeStep_output {c c' : Cmp} (h : encodeStep c = .ok c') : c.bse.obuf <+: c'.bse.obuf := by
  obtain ⟨len, dist, e⟩ := encodeStep_inv h
  have hemits := e.emits
  split at hemits
  · exact (emitLiteral_kept hemits).grows
  · exact (emitMatch_kept hemits).grows

theorem drain_output {n : Nat} {c c' : Cmp} (h : drain n c = .ok c') : c.bse.obuf <+: c'.bse.obuf := by
  induction n generalizing c with
  | zero => cases h; exact List.prefix_rfl
  | succ n ih =>
    unfold drain at h
    split at h
    · cases h; exact List.prefix_rfl
    · obtain ⟨c1, h1, h⟩ := Step.bind_ok.mp h
      exact (encodeStep_output h1).trans (ih h)

theorem cWrite_output {x : Byte} {c c' : Cmp} (h : cWrite x c = .ok c') : c.bse.obuf <+: c'.bse.obuf := by
  obtain ⟨-, ⟨-, rfl⟩ | ⟨-, he⟩⟩ := cWrite_cases h
  · exact List.prefix_rfl
  · exact encodeStep_output (c := acceptByte x c) he

theorem cClose_output {c c' : Cmp} (h : cClose c = .ok c') : c.bse.obuf <+: c'.bse.obuf := by
  obtain ⟨-, c1, hdrain, hflush, -⟩ := cClose_cases h
  exact (drain_output hdrain).trans (bseFlush_kept hflush).1.grows

section
variable {i : Instr} {s t : State}

/-- An operation on the BSE alone does not touch `cwin`. -/
theorem onBse_keeps {f : Bse → Step Bse} (h : onBse f s = .next t)
    (hf : ∀ {b b'}, f b = .ok b' → i ≠ .bseClear → b.obuf <+: b'.obuf) : CmpKeeps i s.cmp t.cmp := by
  obtain ⟨c, r, hc, rfl⟩ := onCmp_next.mp h
  obtain ⟨b, hb, hc⟩ := Step.bind_ok.mp hc
  cases hc
  exact ⟨fun _ => rfl, fun _ => hf hb⟩

/-- An operation on `cwin` alone does not touch the BSE. -/
theorem onCwin_keeps {f : Window → Step (Window × OpResult)} (h : onWin .cwin f s = .next t)
    (hf : ∀ {w w' r}, f w = .ok (w', r) → appendsTo i .cwin = false → w'.buf = w.buf) : CmpKeeps i s.cmp t.cmp := by
  unfold onWin at h
  obtain ⟨c, r, hc, rfl⟩ := onCmp_next.mp h
  obtain ⟨⟨w, q⟩, hw, hc⟩ := Step.bind_ok.mp hc
  cases hc
  exact ⟨hf hw, fun _ _ => List.prefix_rfl⟩

/-- A command of the sequencer that appends to `cwin`. -/
theorem onCmpCommand_keeps {f : Cmp → Step Cmp} (h : onCmp (fun c => (f c).map fun c => (c, .done .none)) s = .next t)
    (hi : appendsTo i .cwin = true) (hf : ∀ {c c'}, f c = .ok c' → c.bse.obuf <+: c'.bse.obuf) :
    CmpKeeps i s.cmp t.cmp := by
  obtain ⟨c, r, hc, rfl⟩ := onCmp_next.mp h
  obtain ⟨c1, h1, hc⟩ := Step.map_ok.mp hc
  cases hc
  exact ⟨fun ha => by simp [hi] at ha, fun _ _ => hf h1⟩

end

/-- R232: a search changes nothing but the report. -/
theorem execMseSearch_keeps {s t : State} (h : execMseSearch s = .next t) : CmpKeeps .mseSearch s.cmp t.cmp := by
  unfold execMseSearch at h
  obtain ⟨c, r, hc, rfl⟩ := onCmp_next.mp h
  obtain ⟨_, -, hc⟩ := Step.map_ok.mp hc
  cases hc
  exact .refl _ _

theorem cReset_keeps (c : Cmp) : CmpKeeps .cReset c (resetCmp c) := ⟨fun _ => rfl, fun hi => absurd rfl hi⟩

/-- R236: an opening emits the header behind what is there, and clears `cwin` without touching its RAM. -/
theorem cOpen_keeps {w l : Nat} {c c' : Cmp} {r : Report} (h : cOpen w l c = .ok (c', r)) :
    CmpKeeps (.cOpen w l) c c' := by
  obtain ⟨-, ⟨-, -, rfl⟩ | ⟨-, -, -, hemit, hc⟩⟩ := cOpen_cases h
  · exact ⟨fun _ => rfl, fun _ _ => List.prefix_rfl⟩
  · exact ⟨fun _ => by rw [hc]; rfl, fun _ _ => (emitHeader_kept hemit).grows⟩

theorem exec_cmpKeeps {i : Instr} {s t : State} (h : exec i s = .next t) : CmpKeeps i s.cmp t.cmp := by
  cases hunit : ofCompressor i with
  | false =>
    rw [((unitsShareNothing i s t h).2 hunit).1]
    exact .refl i s.cmp
  | true =>
    cases i with
    | bseClear => exact onBse_keeps (f := fun b => .ok (bseClear b)) h fun _ hi => absurd rfl hi
    | bseWriteBits v n => exact onBse_keeps h fun hb _ => writeBits_obuf hb
    | bseFlush => exact onBse_keeps h fun hb _ => (bseFlush_kept hb).1.grows
    | temEmitHeader w l => exact onBse_keeps h fun hb _ => (emitHeader_kept hb).grows
    | temEmitLiteral x => exact onBse_keeps h fun hb _ => (emitLiteral_kept hb).grows
    | temEmitMatch d n => exact onBse_keeps h fun hb _ => (emitMatch_kept hb).grows
    | swdClear u w =>
      obtain rfl : u = .cwin := eq_of_beq hunit
      exact onCwin_keeps (f := fun v => (swdClear v w).map fun v => (v, .none)) h fun hw _ => swdClearCommand_buf hw
    | swdPush u x =>
      obtain rfl : u = .cwin := eq_of_beq hunit
      exact onCwin_keeps (f := fun w => .ok (push w x, .none)) h fun _ hi => nomatch hi
    | swdHist u d =>
      obtain rfl : u = .cwin := eq_of_beq hunit
      exact onCwin_keeps (f := fun w => (swdHist .cwin w d.toNat).map fun b => (w, .byte b)) h
          fun hw _ => swdHistCommand_buf hw
    | mseSearch => exact execMseSearch_keeps h
    | csqEncodeStep => exact onCmpCommand_keeps h rfl encodeStep_output
    | cWrite x => exact onCmpCommand_keeps h rfl cWrite_output
    | cClose => exact onCmpCommand_keeps h rfl cClose_output
    | cReset => cases h; exact cReset_keeps s.cmp
    | cOpen w l =>
      obtain ⟨c, r, hc, rfl⟩ := onCmp_next.mp h
      exact cOpen_keeps hc
    | noneBse | noneSwd _ | noneTem | noneCOp => cases h; exact .refl _ _
    | _ => nomatch hunit

/-! ## What the decompressor has read and output -/

/-- R29, R159 (c): the cursor does not move back, and what has been fed stays. -/
structure BsdGrows (b b' : Bsd) : Prop where
  cursor : b.rpos ≤ b'.rpos
  input : b.ibuf <+: b'.ibuf

theorem BsdGrows.refl (b : Bsd) : BsdGrows b b := ⟨Nat.le_refl _, List.prefix_rfl⟩

theorem BsdGrows.skip (b : Bsd) (n : Nat) : BsdGrows b { b with rpos := b.rpos + n } :=
  ⟨Nat.le_add_right _ _, List.prefix_rfl⟩

theorem bsdFeed_grows {x : Byte} {b b' : Bsd} (h : bsdFeed x b = .ok b') : BsdGrows b b' := by
  unfold bsdFeed at h
  split at h
  · simp at h
  · cases h
    exact ⟨Nat.le_refl _, List.prefix_append _ _⟩

theorem bsdEnd_grows {b b' : Bsd} (h : bsdEnd b = .ok b') : BsdGrows b b' := by
  unfold bsdEnd at h
  split at h
  · simp at h
  · cases h
    exact ⟨Nat.le_refl _, List.prefix_rfl⟩

theorem skipBits_grows {n : Nat} {b b' : Bsd} (h : skipBits n b = .ok b') : BsdGrows b b' := by
  obtain ⟨-, rfl⟩ := skipBits_ok h
  exact .skip b n

theorem readBits_grows {n : Nat} {b b' : Bsd} {r : Report} (h : readBits n b = .ok (b', r)) : BsdGrows b b' := by
  unfold readBits at h
  split at h
  · simp at h
  split at h
  · cases h; exact .skip b n
  split at h
  · cases h; exact .refl b
  · cases h; exact .refl b

/-- R71 (b), R29: what has been output and what has been fed stays, and the cursor does not move back. -/
structure DmpGrows (d d' : Dmp) : Prop where
  output : d.rout <+: d'.rout
  input : BsdGrows d.bsd d'.bsd

theorem DmpGrows.refl (d : Dmp) : DmpGrows d d := ⟨List.prefix_rfl, .refl _⟩

theorem DmpGrows.trans {a b c : Dmp} (h : DmpGrows a b) (k : DmpGrows b c) : DmpGrows a c :=
  ⟨h.output.trans k.output, h.input.cursor.trans k.input.cursor, h.input.input.trans k.input.input⟩

theorem latchLiteral_grows {x : Byte} {k : Nat} {d d' : Dmp} (h : latchLiteral x k d = .ok d') : DmpGrows d d' := by
  obtain ⟨-, rfl⟩ := latchLiteral_cases h
  exact ⟨List.prefix_rfl, .skip _ _⟩

theorem latchMatch_grows {x : Half} {n : Five} {k : Nat} {d d' : Dmp} (h : latchMatch x n k d = .ok d') :
    DmpGrows d d' := by
  obtain ⟨-, rfl⟩ := latchMatch_cases h
  exact ⟨List.prefix_rfl, .skip _ _⟩

theorem appendLiteral_grows (d : Dmp) : DmpGrows d (appendLiteral d) := ⟨List.prefix_append _ _, .refl _⟩

theorem copyMatch_grows {d d' : Dmp} {r : Report} (h : copyMatch d = .ok (d', r)) : DmpGrows d d' := by
  obtain ⟨-, he⟩ | ⟨bs, -, -, rfl⟩ := copyMatch_cases h
  · cases he; exact ⟨List.prefix_rfl, .refl _⟩
  · exact ⟨List.prefix_append _ _, .refl _⟩

theorem carryLiteral_grows {l k : Nat} {x : Byte} {d d' : Dmp} {r : Report} (h : carryLiteral l x k d = .ok (d', r)) :
    DmpGrows d d' := by
  obtain ⟨-, -, -, d1, h1, rfl⟩ := carryLiteral_cases h
  exact (latchLiteral_grows h1).trans (appendLiteral_grows d1)

theorem carryShort_grows {l c : Nat} {d d' : Dmp} {r : Report} (h : carryShort l c d = .ok (d', r)) :
    DmpGrows d d' := by
  unfold carryShort at h
  split at h
  · simp at h
  · exact carryLiteral_grows h

theorem carryMatch_grows {w x : Nat} {n : Nibble} {d d' : Dmp} {r : Report} (h : carryMatch w x n d = .ok (d', r)) :
    DmpGrows d d' := by
  obtain ⟨-, -, d1, h1, h2⟩ := carryMatch_cases h
  exact (latchMatch_grows h1).trans (copyMatch_grows h2)

/-! ## The transitions of the decompressor that append nothing -/

/-- An operation of the decompressor that grows its streams and leaves the RAM of `dwin`. -/
structure DmpReads (d d' : Dmp) : Prop where
  cells : d'.dwin.buf = d.dwin.buf
  grows : DmpGrows d d'

theorem DmpReads.refl (d : Dmp) : DmpReads d d := ⟨rfl, .refl d⟩

theorem takeHeader_reads {w l : Nibble} {d d' : Dmp} {r : Report} (h : takeHeader w l d = .ok (d', r)) :
    DmpReads d d' := by
  obtain ⟨-, -, -, rfl⟩ := takeHeader_cases h
  exact ⟨rfl, List.prefix_rfl, .skip _ _⟩

theorem takeCorruptHeader_reads {d d' : Dmp} {r : Report} (h : takeCorruptHeader d = .ok (d', r)) : DmpReads d d' := by
  obtain ⟨-, he⟩ := takeCorruptHeader_cases h
  cases he
  exact ⟨rfl, List.prefix_rfl, .skip _ _⟩

theorem takePad_reads {d d' : Dmp} {r : Report} (h : takePad d = .ok (d', r)) : DmpReads d d' := by
  obtain ⟨-, rfl⟩ := takePad_cases h
  exact ⟨rfl, List.prefix_rfl, .skip _ _⟩

theorem needMore_reads {d d' : Dmp} {r : Report} (h : needMore d = (d', r)) : DmpReads d d' := by
  unfold needMore at h
  split at h
  · cases h; exact ⟨rfl, List.prefix_rfl, .refl _⟩
  · cases h; exact .refl d

theorem carryHeader_reads {v w l : Nibble} {k : BitVec 1} {q : BitVec 3} {d d' : Dmp} {r : Report}
    (h : carryHeader v w l k q d = .ok (d', r)) : DmpReads d d' := by
  unfold carryHeader at h
  split at h
  · simp at h
  split at h
  · exact takeHeader_reads h
  · exact takeCorruptHeader_reads h

theorem carryPad_reads {k : Nat} {d d' : Dmp} {r : Report} (h : carryPad k d = .ok (d', r)) : DmpReads d d' := by
  unfold carryPad at h
  split at h
  · simp at h
  · exact takePad_reads h

theorem stepHeader_grows {d d' : Dmp} {r : Report} (h : stepHeader d = .ok (d', r)) : DmpGrows d d' := by
  unfold stepHeader at h
  split at h
  · exact (needMore_reads (Except.ok.inj h)).grows
  · exact (takeCorruptHeader_reads h).grows
  · exact (takeHeader_reads h).grows

theorem stepToken_grows {d d' : Dmp} {r : Report} (h : stepToken d = .ok (d', r)) : DmpGrows d d' := by
  unfold stepToken at h
  split at h
  · exact (takePad_reads h).grows
  split at h
  · simp at h
  split at h
  · exact (needMore_reads (Except.ok.inj h)).grows
  · obtain ⟨d1, h1, h⟩ := Step.map_ok.mp h
    cases h
    exact latchLiteral_grows h1
  · obtain ⟨d1, h1, h⟩ := Step.map_ok.mp h
    cases h
    exact latchMatch_grows h1

/-- R262 to R268: every transition of `D.STEP`. -/
theorem dStep_grows {d d' : Dmp} {r : Report} (h : dStep d = .ok (d', r)) : DmpGrows d d' := by
  unfold dStep at h
  split at h
  · exact stepHeader_grows h
  · exact stepToken_grows h
  · cases h; exact appendLiteral_grows d
  · exact copyMatch_grows h
  · cases h; exact .refl d
  · cases h; exact .refl d

/-! ## The decompressor -/

/-- What instruction `i` leaves of the decompressor: the cells of `dwin` unless it appends to it, and what has been
output and read unless it voids the stream. -/
structure DmpKeeps (i : Instr) (d d' : Dmp) : Prop where
  cells : appendsTo i .dwin = false → d'.dwin.buf = d.dwin.buf
  output : i ≠ .dReset → d.rout <+: d'.rout
  input : i ≠ .dReset → i ≠ .bsdClear → BsdGrows d.bsd d'.bsd

theorem DmpReads.keeps {i : Instr} {d d' : Dmp} (h : DmpReads d d') : DmpKeeps i d d' :=
  ⟨fun _ => h.cells, fun _ => h.grows.output, fun _ _ => h.grows.input⟩

theorem DmpKeeps.refl (i : Instr) (d : Dmp) : DmpKeeps i d d := (DmpReads.refl d).keeps

theorem dReset_keeps (d : Dmp) : DmpKeeps .dReset d (resetDmp d) :=
  ⟨fun _ => rfl, fun hi => absurd rfl hi, fun hi => absurd rfl hi⟩

section
variable {i : Instr} {s t : State}

/-- An operation that appends to `dwin`. -/
theorem onDmp_keeps_of_grows {f : Dmp → Step (Dmp × Report)} (h : onDmp f s = .next t)
    (hi : appendsTo i .dwin = true) (hf : ∀ {d d' r}, f d = .ok (d', r) → DmpGrows d d') : DmpKeeps i s.dmp t.dmp := by
  obtain ⟨d, r, hd, rfl⟩ := onDmp_next.mp h
  have hgrows := hf hd
  exact ⟨fun ha => by simp [hi] at ha, fun _ => hgrows.output, fun _ _ => hgrows.input⟩

/-- An operation that does not append to `dwin`. -/
theorem onDmp_keeps_of_reads {f : Dmp → Step (Dmp × Report)} (h : onDmp f s = .next t)
    (hf : ∀ {d d' r}, f d = .ok (d', r) → DmpReads d d') : DmpKeeps i s.dmp t.dmp := by
  obtain ⟨d, r, hd, rfl⟩ := onDmp_next.mp h
  exact (hf hd).keeps

/-- An operation on the BSD alone does not touch `dwin` and outputs nothing. -/
theorem onBsd_keeps {f : Bsd → Step (Bsd × Report)} (h : onBsd f s = .next t)
    (hf : ∀ {b b' r}, f b = .ok (b', r) → i ≠ .bsdClear → BsdGrows b b') : DmpKeeps i s.dmp t.dmp := by
  obtain ⟨d, r, hd, rfl⟩ := onDmp_next.mp h
  obtain ⟨⟨b, q⟩, hb, hd⟩ := Step.bind_ok.mp hd
  cases hd
  exact ⟨fun _ => rfl, fun _ => List.prefix_rfl, fun _ => hf hb⟩

/-- A command on the BSD alone that reports no result. -/
theorem onBsdCommand_keeps {f : Bsd → Step Bsd} (h : onBsd (fun b => (f b).map fun b => (b, .done .none)) s = .next t)
    (hf : ∀ {b b'}, f b = .ok b' → BsdGrows b b') : DmpKeeps i s.dmp t.dmp :=
  onBsd_keeps h fun hb _ => by
    obtain ⟨b1, h1, hb⟩ := Step.map_ok.mp hb
    cases hb
    exact hf h1

/-- A query of the BSD: its answer is the report, nothing else changes. -/
theorem onBsdQuery_keeps {α : Type} {f : Bsd → Step α} {report : α → Report}
    (h : onBsd (fun b => (f b).map fun v => (b, report v)) s = .next t) : DmpKeeps i s.dmp t.dmp :=
  onBsd_keeps h fun hb _ => by
    obtain ⟨v, -, hb⟩ := Step.map_ok.mp hb
    cases hb
    exact .refl _

/-- An operation on `dwin` alone reads nothing and outputs nothing. -/
theorem onDwin_keeps {f : Window → Step (Window × OpResult)} (h : onWin .dwin f s = .next t)
    (hf : ∀ {w w' r}, f w = .ok (w', r) → appendsTo i .dwin = false → w'.buf = w.buf) : DmpKeeps i s.dmp t.dmp := by
  unfold onWin at h
  obtain ⟨d, r, hd, rfl⟩ := onDmp_next.mp h
  obtain ⟨⟨w, q⟩, hw, hd⟩ := Step.bind_ok.mp hd
  cases hd
  exact ⟨hf hw, fun _ => List.prefix_rfl, fun _ _ => .refl _⟩

end

/-- R174 driven directly: the bytes moved are output behind what is there, or nothing changes. -/
theorem execSwdCopy_keeps {x : Half} {n : Five} {s t : State} (h : execSwdCopy x n s = .next t) :
    DmpKeeps (.swdCopy x n) s.dmp t.dmp := by
  unfold execSwdCopy at h
  refine onDmp_keeps_of_grows h rfl fun hd => ?_
  obtain ⟨_ | ⟨w, bs⟩, -, hd⟩ := Step.map_ok.mp hd
  · cases hd; exact .refl _
  · cases hd; exact ⟨List.prefix_append _ _, .refl _⟩

/-- R212: a query of the token interpreter changes nothing but the report. -/
theorem execTinParseToken_keeps {s t : State} (h : execTinParseToken s = .next t) :
    DmpKeeps .tinParseToken s.dmp t.dmp := by
  unfold execTinParseToken at h
  refine onDmp_keeps_of_reads h fun hd => ?_
  split at hd
  · simp at hd
  · cases hd; exact .refl _

theorem exec_dmpKeeps {i : Instr} {s t : State} (h : exec i s = .next t) : DmpKeeps i s.dmp t.dmp := by
  cases hunit : ofCompressor i with
  | true =>
    rw [((unitsShareNothing i s t h).1 hunit).1]
    exact .refl i s.dmp
  | false =>
    cases i with
    | hdr v w l k r => exact onDmp_keeps_of_reads h carryHeader_reads
    | pad k => exact onDmp_keeps_of_reads h carryPad_reads
    | litL5 _ | litL6 _ | litL7 _ | litL8 _ => exact onDmp_keeps_of_grows h rfl carryShort_grows
    | escL5 _ | escL6 _ | escL7 _ => exact onDmp_keeps_of_grows h rfl carryLiteral_grows
    | matchW8 _ _ | matchW9 _ _ | matchW10 _ _ | matchW11 _ _ | matchW12 _ _ | matchW13 _ _ | matchW14 _ _
    | matchW15 _ _ => exact onDmp_keeps_of_grows h rfl carryMatch_grows
    | dStep => exact onDmp_keeps_of_grows h rfl dStep_grows
    | swdCopy x n => exact execSwdCopy_keeps h
    | bsdClear => exact onBsd_keeps (f := fun b => .ok (bsdClear b, .done .none)) h fun _ hi => absurd rfl hi
    | bsdFeed x | dFeed x => exact onBsdCommand_keeps h bsdFeed_grows
    | bsdEnd | dEnd => exact onBsdCommand_keeps h bsdEnd_grows
    | bsdSkipBits n => exact onBsdCommand_keeps h skipBits_grows
    | bsdReadBits n => exact onBsd_keeps h fun hb _ => readBits_grows hb
    | bsdPeekBits n off => exact onBsdQuery_keeps h
    | bsdAvail | bsdTailIsPad | tinParseHeader => cases h; exact .refl _ _
    | tinParseToken => exact execTinParseToken_keeps h
    | swdClear u w =>
      cases u with
      | cwin => nomatch hunit
      | dwin =>
        exact onDwin_keeps (f := fun v => (swdClear v w).map fun v => (v, .none)) h fun hw _ => swdClearCommand_buf hw
    | swdPush u x =>
      cases u with
      | cwin => nomatch hunit
      | dwin => exact onDwin_keeps (f := fun w => .ok (push w x, .none)) h fun _ hi => nomatch hi
    | swdHist u d =>
      cases u with
      | cwin => nomatch hunit
      | dwin =>
        exact onDwin_keeps (f := fun w => (swdHist .dwin w d.toNat).map fun b => (w, .byte b)) h
          fun hw _ => swdHistCommand_buf hw
    | dReset => cases h; exact dReset_keeps s.dmp
    | noneBsd | noneSwd _ | noneDOp => cases h; exact .refl _ _
    | reservedDOp3 | reservedBsdOp _ => nomatch h
    | _ => nomatch hunit

/-! ## The obligations -/

/-- Settles O50: a push writes at the cursor, which the next push finds one cell on; and an instruction keeps the cells
of the window of either unit unless it appends to it. -/
theorem cellsChangeAtTheCursorOnly : Obligations.CellsChangeAtTheCursorOnly := by
  refine ⟨fun w bs a hw ha => memRead_pushAll hw ha, fun i u s t h hi => ?_⟩
  cases u with
  | cwin => exact (exec_cmpKeeps h).cells hi
  | dwin => exact (exec_dmpKeeps h).cells hi

/-- Settles O54: what each unit has output, and what the decompressor has read, is kept by all but the clears and
resets. -/
theorem outputsOnlyGrow : Obligations.OutputsOnlyGrow := fun _ _ _ h =>
  have hd := exec_dmpKeeps h
  ⟨(exec_cmpKeeps h).output, hd.output, fun hreset hclear =>
    have hb := hd.input hreset hclear
    ⟨hb.cursor, hb.input⟩⟩

end Sys2Proof.Proofs.Frame
end

section
/-! The decoders and the encoder are inverse (R91 to R100, R103, R108, R213 (a)). What is said per instruction in
Sys2Proof/Laws/PerInstr.lean is gathered in one case split (`roundTrip`), which serves the stream and the ports; that no
token's bits begin another's follows from it. -/

namespace Sys2Proof.Proofs.Encoding

open Sys2Proof Sys2Proof.Machine Sys2Proof.Laws

/-- R99, R213 (a): every well-formed instruction is read back from its encoding. -/
theorem roundTrip (i : Instr) : RoundTrip.Statement i := by
  cases i with
  | hdr v w l k r => exact RoundTrip.hdr v w l k r
  | litL5 c => exact RoundTrip.litL5 c
  | litL6 c => exact RoundTrip.litL6 c
  | litL7 c => exact RoundTrip.litL7 c
  | litL8 c => exact RoundTrip.litL8 c
  | escL5 r => exact RoundTrip.escL5 r
  | escL6 r => exact RoundTrip.escL6 r
  | escL7 r => exact RoundTrip.escL7 r
  | matchW8 d n => exact RoundTrip.matchW8 d n
  | matchW9 d n => exact RoundTrip.matchW9 d n
  | matchW10 d n => exact RoundTrip.matchW10 d n
  | matchW11 d n => exact RoundTrip.matchW11 d n
  | matchW12 d n => exact RoundTrip.matchW12 d n
  | matchW13 d n => exact RoundTrip.matchW13 d n
  | matchW14 d n => exact RoundTrip.matchW14 d n
  | matchW15 d n => exact RoundTrip.matchW15 d n
  | pad k => exact RoundTrip.pad k
  | bseClear => exact RoundTrip.bseClear
  | bseWriteBits v n => exact RoundTrip.bseWriteBits v n
  | bseFlush => exact RoundTrip.bseFlush
  | bsdClear => exact RoundTrip.bsdClear
  | bsdFeed b => exact RoundTrip.bsdFeed b
  | bsdEnd => exact RoundTrip.bsdEnd
  | bsdReadBits n => exact RoundTrip.bsdReadBits n
  | bsdSkipBits n => exact RoundTrip.bsdSkipBits n
  | bsdAvail => exact RoundTrip.bsdAvail
  | bsdPeekBits n off => exact RoundTrip.bsdPeekBits n off
  | bsdTailIsPad => exact RoundTrip.bsdTailIsPad
  | swdClear u w => exact RoundTrip.swdClear u w
  | swdPush u b => exact RoundTrip.swdPush u b
  | swdCopy d n => exact RoundTrip.swdCopy d n
  | swdHist u d => exact RoundTrip.swdHist u d
  | temEmitHeader w l => exact RoundTrip.temEmitHeader w l
  | temEmitLiteral b => exact RoundTrip.temEmitLiteral b
  | temEmitMatch d n => exact RoundTrip.temEmitMatch d n
  | tinParseHeader => exact RoundTrip.tinParseHeader
  | tinParseToken => exact RoundTrip.tinParseToken
  | mseSearch => exact RoundTrip.mseSearch
  | csqEncodeStep => exact RoundTrip.csqEncodeStep
  | cReset => exact RoundTrip.cReset
  | cOpen w l => exact RoundTrip.cOpen w l
  | cWrite b => exact RoundTrip.cWrite b
  | cClose => exact RoundTrip.cClose
  | dReset => exact RoundTrip.dReset
  | dFeed b => exact RoundTrip.dFeed b
  | dEnd => exact RoundTrip.dEnd
  | dStep => exact RoundTrip.dStep
  | reservedDOp3 => exact RoundTrip.reservedDOp3
  | noneBse => exact RoundTrip.noneBse
  | noneBsd => exact RoundTrip.noneBsd
  | noneSwd u => exact RoundTrip.noneSwd u
  | noneTem => exact RoundTrip.noneTem
  | noneCOp => exact RoundTrip.noneCOp
  | noneDOp => exact RoundTrip.noneDOp
  | reservedBsdOp low => exact RoundTrip.reservedBsdOp low

/-- The round trip of an instruction whose encoding is known to be of one kind. -/
theorem agrees_of_encode {i : Instr} {e : Encoded} (hi : i.wellFormed = true) (he : encode i = e) :
    RoundTrip.Agrees i e := he ▸ roundTrip i hi

/-- Settles O39: the round trip of the three kinds of stream element. -/
theorem streamDecodesWhatItEncodes : Obligations.StreamDecodesWhatItEncodes := fun _ hi =>
  ⟨fun _ rest he => agrees_of_encode hi he rest,
    fun _ rest w l he hw hl hv => agrees_of_encode hi he w l rest hw hl hv, fun _ he => agrees_of_encode hi he⟩

/-- Settles O40: the round trip of the operations. -/
theorem portsDecodeWhatTheyEncode : Obligations.PortsDecodeWhatTheyEncode := fun _ _ hi he => agrees_of_encode hi he

/-- Settles O41: 20 bits hold a token, and the decoder takes nothing but a token's encoding. -/
theorem everyBitStringParses : Obligations.EveryBitStringParses := by
  intro w l bits hw hl hbits
  obtain ⟨i, rest, hdecode⟩ := decodeToken_total hw hl hbits
  obtain ⟨hwf, hvalid, tok, henc, hsplit⟩ := decodeToken_sound hdecode
  exact ⟨i, rest, tok, hdecode, hwf, hvalid, henc, hsplit⟩

/-- Settles O42: decoding the longer token's bits gives that token with nothing left, and also the shorter one with the
rest. -/
theorem tokensArePrefixFree : Obligations.TokensArePrefixFree := by
  intro w l i j x y rest hw hl hi hj hiv hjv hx hy hsplit
  have hshort : decodeToken w l (x ++ rest) = .ok (i, rest) := agrees_of_encode hi hx w l rest hw hl hiv
  have hlong : decodeToken w l (y ++ []) = .ok (j, []) := agrees_of_encode hj hy w l [] hw hl hjv
  rw [List.append_nil, hsplit, hshort] at hlong
  cases hlong
  exact ⟨rfl, rfl⟩

/-- Settles O43: the decoders run on the six words. -/
theorem specWordsDecode : Obligations.SpecWordsDecode := ⟨rfl, rfl, rfl, rfl, rfl, rfl⟩

end Sys2Proof.Proofs.Encoding
end

section
/-! The stream elements, carried out (R100, R263 to R266), and the codes that name no operation (R108). One lemma serves
the literals of every width (`runsLiteral_of_carries`), one the matches (`runsMatch_of_carries`). -/

namespace Sys2Proof.Proofs.Elements

open Sys2Proof Sys2Proof.Machine Sys2Proof.Proofs.Lockstep

/-! ## The header -/

/-- R263, case `Header(w, l)`: the header is consumed, the registers are written and the window is cleared. -/
theorem takeHeader_eq {d : Dmp} {w l : Nibble} (hk : 16 ≤ avail d.bsd) (hw : Config.legalW w.toNat) :
    takeHeader w l d = .ok ({ d with
      bsd := { d.bsd with rpos := d.bsd.rpos + 16 }, dcfgW := w, dcfgL := l, dwin := clearWindow d.dwin w.toNat,
      dstate := .readingToken }, .done .none) := by
  simp only [takeHeader, Config.headerBits, skipBits_eq hk, swdClear_legal _ hw, Step.ok_bind, Step.pure_ok]

/-- R263, case `Corrupt`: the header is consumed before the condition is raised. -/
theorem takeCorruptHeader_eq {d : Dmp} (hk : 16 ≤ avail d.bsd) :
    takeCorruptHeader d = .ok (failDmp .corruptHeader { d with bsd := { d.bsd with rpos := d.bsd.rpos + 16 } }) := by
  simp only [takeCorruptHeader, Config.headerBits, skipBits_eq hk, Step.ok_bind, Step.pure_ok]

/-- Settles O32: in `ReadingHeader` the header is taken as legal or as corrupt; in another state it is refused. -/
theorem headerElementConfigures : Obligations.HeaderElementConfigures := by
  intro s v w l k r
  refine ⟨fun hs hk hlegal => ?_, fun hs hk hillegal => ?_, fun hs => ?_⟩
  · have hw := (headerLegal_iff.mp hlegal).2.1
    refine onDmp_ok (f := carryHeader v w l k r) ?_
    rw [carryHeader, if_neg (not_not.mpr hs), if_pos hlegal, takeHeader_eq hk hw, clearWindow]
  · refine onDmp_ok (f := carryHeader v w l k r) ?_
    rw [carryHeader, if_neg (not_not.mpr hs), if_neg (by simp [hillegal]), takeCorruptHeader_eq hk, failDmp]
  · exact onDmp_refused (f := carryHeader v w l k r) (if_pos hs)

/-! ## The literals -/

/-- R264, R265: an element that carries the literal `x` under `literal_bits` = `l` runs it. -/
theorem runsLiteral_of_carries {l k : Nat} {i : Instr} {x : Byte} (h : ∀ s, exec i s = onDmp (carryLiteral l x k) s) :
    runsLiteral l i x k := fun s hs hl hk => (h s).trans (onDmp_ok (carryLiteral_ok hs hl hk))

/-- R94: a code that is not the escape is a literal. -/
theorem carryShort_eq {l c : Nat} (h : ¬ (l < 8 ∧ c = 2 ^ l - 1)) :
    carryShort l c = carryLiteral l (literalByte c) (1 + l) := funext fun _ => if_neg h

/-- R94, R98: the short literal of each width. -/
theorem runsLiteral_of_carriesShort {l c : Nat} {i : Instr} (h : ¬ (l < 8 ∧ c = 2 ^ l - 1))
    (hi : ∀ s, exec i s = onDmp (carryShort l c) s) : runsLiteral l i (literalByte c) (1 + l) :=
  runsLiteral_of_carries fun s => by rw [hi s, carryShort_eq h]

/-- Settles O33: below L = 8 the short literals are those whose code is not all ones; at L = 8 there is no escape, and
the byte is the code. -/
theorem literalsAppendTheirByte : Obligations.LiteralsAppendTheirByte := by
  refine ⟨fun c hc => ?_, fun c hc => ?_, fun c hc => ?_, fun c => ?_, fun r => ⟨?_, ?_, ?_⟩⟩
  · exact runsLiteral_of_carriesShort (fun h => hc h.2) fun _ => rfl
  · exact runsLiteral_of_carriesShort (fun h => hc h.2) fun _ => rfl
  · exact runsLiteral_of_carriesShort (fun h => hc h.2) fun _ => rfl
  · have hbyte : literalByte c.toNat = c := ofNat_toNat_eq c _ (Nat.mod_eq_of_lt c.isLt)
    have hruns : runsLiteral 8 (.litL8 c) (literalByte c.toNat) 9 :=
      runsLiteral_of_carriesShort (fun h => absurd h.1 (Nat.lt_irrefl 8)) fun _ => rfl
    rwa [hbyte] at hruns
  · exact runsLiteral_of_carries fun _ => rfl
  · exact runsLiteral_of_carries fun _ => rfl
  · exact runsLiteral_of_carries fun _ => rfl

/-! ## The matches -/

/-- R264, R266: a match is latched, and then carried out by one `D.STEP`. -/
theorem carryMatch_eq {w dist : Nat} {n : Nibble} {s : State} (hs : s.dmp.dstate = .readingToken)
    (hw : s.dmp.dcfgW.toNat = w) (hk : 5 + w ≤ avail s.dmp.bsd) :
    carryMatch w dist n s.dmp = dStep (matchLatched s (distanceOf dist) (lengthOf n) (5 + w)).dmp := by
  have hplace : ¬ (s.dmp.dstate ≠ .readingToken ∨ s.dmp.dcfgW.toNat ≠ w) := by simp [hs, hw]
  rw [carryMatch, if_neg hplace, latchMatch, skipBits_eq hk, Step.ok_bind, Step.pure_ok, Step.ok_bind]
  rfl

/-- R266, R293: `D.STEP` carries out a latched match that reaches beyond the history. -/
theorem dStep_beyondHistory {d : Dmp} (hs : d.dstate = .copyingMatch)
    (hc : swdCopy d.dwin d.tokDist.toNat d.tokLen.toNat = .ok none) :
    dStep d = .ok (failDmp .invalidDistance d) := by
  simp only [dStep, hs, copyMatch, hc, Step.ok_bind, Step.pure_ok]

/-- R96, R97, R266: an element that carries the match with the fields `d` and `n` under `window_bits` = `w` runs it. -/
theorem runsMatch_of_carries {w : Nat} {i : Instr} {d : BitVec w} {n : Nibble}
    (h : ∀ s, exec i s = onDmp (carryMatch w d.toNat n) s) : runsMatch w i d.toNat n := by
  intro s hinv hs hw hk
  have hw15 : w ≤ 15 := hw ▸ (hinv.dmp.parsed (.inl hs)).1.2
  have hd15 : d.toNat < 2 ^ 15 := d.isLt.trans_le (Nat.pow_le_pow_right (by decide) hw15)
  have hdist := distanceOf_toNat d.toNat hd15
  have hlen := lengthOf_toNat n
  rw [← distanceOf_eq d.toNat hd15, ← lengthOf_eq n, h s]
  refine ⟨fun hin => ?_, fun hout => ?_⟩
  · obtain ⟨bs, hcopy, hbs, hbyte⟩ := swdCopy_ok (n := n.toNat + 2) hinv.dmp.dwin (Nat.succ_pos d.toNat) hin
    have hcopies := dStep_copied (d := (matchLatched s (distanceOf d.toNat) (lengthOf n) (5 + w)).dmp) (bs := bs) rfl
      (by simp only [matchLatched, hdist, hlen, hcopy])
    exact ⟨bs, ⟨hbs, hbyte⟩, onDmp_ok ((carryMatch_eq hs hw hk).trans hcopies)⟩
  · have hraise := swdCopy_raises (n := n.toNat + 2) (Nat.succ_pos d.toNat) (.inl hout)
    have hfails := dStep_beyondHistory (d := (matchLatched s (distanceOf d.toNat) (lengthOf n) (5 + w)).dmp) rfl
      (by simp only [matchLatched, hdist, hlen, hraise])
    exact onDmp_ok ((carryMatch_eq hs hw hk).trans hfails)

/-- Settles O34: the match of each width carries its two fields. -/
theorem matchesCopyTheHistory : Obligations.MatchesCopyTheHistory := fun _ =>
  ⟨fun _ => runsMatch_of_carries fun _ => rfl, fun _ => runsMatch_of_carries fun _ => rfl,
    fun _ => runsMatch_of_carries fun _ => rfl, fun _ => runsMatch_of_carries fun _ => rfl,
    fun _ => runsMatch_of_carries fun _ => rfl, fun _ => runsMatch_of_carries fun _ => rfl,
    fun _ => runsMatch_of_carries fun _ => rfl, fun _ => runsMatch_of_carries fun _ => rfl⟩

/-! ## Padding, and the codes that name no operation -/

/-- R264: the padding is consumed and the run is over. -/
theorem takePad_eq (d : Dmp) : takePad d = .ok ({ d with
    bsd := { d.bsd with rpos := d.bsd.rpos + avail d.bsd }, dstate := .done }, .done .none) := by
  rw [takePad, skipBits_eq le_rfl, Step.ok_bind, Step.pure_ok]

/-- Settles O35: the bits left are the padding the element says, so it is taken. -/
theorem paddingEndsTheRun : Obligations.PaddingEndsTheRun := by
  rintro s k hs heof rfl hk hzero
  have hpad : tailIsPad s.dmp.bsd = true := tailIsPad_of_pending heof hk hzero
  have hplace : ¬ (s.dmp.dstate ≠ .readingToken ∨ ¬ tailIsPad s.dmp.bsd ∨ avail s.dmp.bsd ≠ avail s.dmp.bsd) := by
    simp [hs, hpad]
  refine onDmp_ok (f := carryPad (avail s.dmp.bsd)) ?_
  rw [carryPad, if_neg hplace, takePad_eq]

/-- Settles O37: the meaning of code 0 on each port is the state it was given. -/
theorem codeZeroDoesNothing : Obligations.CodeZeroDoesNothing := fun _ => ⟨rfl, rfl, fun _ => rfl, rfl, rfl, rfl⟩

end Sys2Proof.Proofs.Elements
end

section
/-! The bitstream_encoder (40_bitstream_encoder.md R131 to R134). The encoder is determined by the bits it has accepted
(`acceptedBits_inj`); so the closed form of a write is found by saying which bits it holds (`acceptedBits_packed`), and
what a script of writes spells by appending the bits of each. -/

namespace Sys2Proof.Proofs.BitWriter

open Sys2Proof Sys2Proof.Machine

/-! ## An operation of the encoder alone -/

theorem onBse_ok {f : Bse → Step Bse} {s : State} {b : Bse} (h : f s.cmp.bse = .ok b) :
    onBse f s = .next { s with report := .done .none, cmp := { s.cmp with bse := b } } :=
  onCmp_ok (by rw [h, Step.ok_bind, Step.pure_ok])

theorem onBse_refused {f : Bse → Step Bse} {s : State} {r : Refusal} (h : f s.cmp.bse = refuse r) :
    onBse f s = .refused r :=
  onCmp_refused (by rw [h, refuse_bind])

/-! ## Clear and flush -/

/-- R133: the pending bits leave in the high end of one byte, zeros below. -/
theorem bseFlush_open {b : Bse} (hf : b.flushed = false) :
    bseFlush b = .ok { acc := 0, nacc := 0, flushed := true,
                       obuf := if 0 < b.nacc then b.obuf ++ [b.acc <<< (8 - b.nacc)] else b.obuf } := by
  have hbyte : BitVec.ofNat 8 (b.acc.toNat * 2 ^ (8 - b.nacc)) = b.acc <<< (8 - b.nacc) :=
    BitVec.eq_of_toNat_eq (by rw [BitVec.toNat_ofNat, BitVec.toNat_shiftLeft, Nat.shiftLeft_eq])
  rw [bseFlush, if_neg (by simp [hf]), hbyte]

theorem bseFlush_flushed {b : Bse} (hf : b.flushed = true) : bseFlush b = refuse .alreadyFlushed := if_pos hf

/-- Settles O3: the clear is the empty encoder, and a flush shifts the pending bits up to the top of a byte. -/
theorem clearAndFlushTheEncoder : Obligations.ClearAndFlushTheEncoder := fun _ =>
  ⟨onBse_ok (f := fun b => .ok (bseClear b)) rfl, fun hf _ => onBse_ok (bseFlush_open hf),
    fun hf => onBse_refused (bseFlush_flushed hf)⟩

/-! ## One write -/

theorem writeBits_flushed {v n : Nat} {b : Bse} (hf : b.flushed = true) : writeBits v n b = refuse .alreadyFlushed :=
  if_pos hf

theorem writeBits_widthOutOfRange {v n : Nat} {b : Bse} (hf : b.flushed = false) (hn : n < 1 ∨ 16 < n) :
    writeBits v n b = refuse .widthOutOfRange := by
  rw [writeBits, if_neg (by simp [hf]), if_pos (by simpa only [Config.maxWriteBits] using hn)]

/-- R132: the pending bits and the `n` bits written, as one number of `nacc + n` bits. -/
def joined (v n : Nat) (b : Bse) : Nat := b.acc.toNat * 2 ^ n + v % 2 ^ n

theorem bitsOf_joined (v n : Nat) (b : Bse) :
    bitsOf (b.nacc + n) (joined v n b) = bitsOf b.nacc b.acc.toNat ++ bitsOf n v := by
  have hhigh : joined v n b / 2 ^ n = b.acc.toNat := by
    rw [joined, Nat.mul_comm, Nat.mul_add_div (by positivity),
      Nat.div_eq_of_lt (Nat.mod_lt _ (by positivity)), Nat.add_zero]
  rw [bitsOf_append, hhigh, joined, bitsOf_add_mul, bitsOf_mod n n v le_rfl]

/-- The closed form of R132: the whole bytes of the joined number are emitted, the rest of its bits stays pending. -/
def packed (v n : Nat) (b : Bse) : Bse :=
  { acc := .ofNat 8 (joined v n b % 2 ^ ((b.nacc + n) % 8)), nacc := (b.nacc + n) % 8, flushed := false,
    obuf := b.obuf ++
      (List.range ((b.nacc + n) / 8)).map fun j => .ofNat 8 (joined v n b / 2 ^ (b.nacc + n - 8 - 8 * j)) }

theorem packed_acc_toNat (v n : Nat) (b : Bse) :
    (packed v n b).acc.toNat = joined v n b % 2 ^ ((b.nacc + n) % 8) := by
  have hlt : joined v n b % 2 ^ ((b.nacc + n) % 8) < 2 ^ ((b.nacc + n) % 8) := Nat.mod_lt _ (by positivity)
  have hbyte : 2 ^ ((b.nacc + n) % 8) ≤ 2 ^ 8 := Nat.pow_le_pow_right (by decide) (by omega)
  exact Nat.mod_eq_of_lt (hlt.trans_le hbyte)

theorem packed_inv (v n : Nat) (b : Bse) : (packed v n b).Inv where
  pending := by simp only [packed]; omega
  accBits := packed_acc_toNat v n b ▸ Nat.mod_lt _ (by positivity)
  flushedEmpty := nofun

/-- The closed form holds the bits accepted before and the `n` bits written. -/
theorem acceptedBits_packed (v n : Nat) (b : Bse) : acceptedBits (packed v n b) = acceptedBits b ++ bitsOf n v := by
  have hrange := bytesBits_range ((b.nacc + n) / 8) ((b.nacc + n) % 8) (joined v n b)
  rw [Nat.div_add_mod, bitsOf_joined] at hrange
  rw [acceptedBits, packed_acc_toNat]
  simp only [packed, bitsOf_mod _ _ _ le_rfl, bytesBits_append, List.append_assoc, hrange, acceptedBits]

/-- R132: a legal write leaves the closed form, for both hold the same bits. -/
theorem writeBits_eq_packed {v n : Nat} {b : Bse} (h : b.Inv) (hf : b.flushed = false) (h1 : 1 ≤ n) (h2 : n ≤ 16) :
    writeBits v n b = .ok (packed v n b) := by
  obtain ⟨b', hwrite, hwrote⟩ := writeBits_ok v n b h hf h1 h2
  rw [hwrite, acceptedBits_inj hwrote.inv (packed_inv v n b) hwrote.open'
    (hwrote.bits.trans (acceptedBits_packed v n b).symm)]

/-- Settles O4: a legal write leaves the closed form; the two guards of R132 refuse the others. -/
theorem writeBitsPacksMsbFirst : Obligations.WriteBitsPacksMsbFirst := fun _ _ _ hinv =>
  ⟨fun hf h1 h2 => onBse_ok (writeBits_eq_packed hinv hf h1 h2), fun hf => onBse_refused (writeBits_flushed hf),
    fun hf hn => onBse_refused (writeBits_widthOutOfRange hf hn)⟩

/-! ## A script of writes -/

/-- R134 (a): a script of legal writes completes, and the encoder accepts the bits it spells. -/
theorem runScript_writeScript {s : State} {ws : List (Half × Five)} (hws : widthsLegal ws) (h : s.cmp.bse.Inv)
    (hf : s.cmp.bse.flushed = false) :
    ∃ t, runScript (writeScript ws) s = .next t ∧ Wrote s.cmp.bse t.cmp.bse (writtenBits ws) := by
  induction ws generalizing s with
  | nil => exact ⟨s, rfl, h, hf, (List.append_nil _).symm, List.prefix_rfl⟩
  | cons w ws ih =>
    obtain ⟨hw, hrest⟩ := List.forall_mem_cons.mp hws
    obtain ⟨b, hwrite, hwrote⟩ := writeBits_ok w.1.toNat w.2.toNat s.cmp.bse h hf hw.1 hw.2
    have hexec : exec (.bseWriteBits w.1 w.2) s = .next _ := onBse_ok hwrite
    obtain ⟨t, hrun, ht⟩ := ih (s := { s with report := .done .none, cmp := { s.cmp with bse := b } }) hrest
      hwrote.inv hwrote.open'
    exact ⟨t, by simp only [writeScript, List.map_cons, runScript, hexec]; exact hrun, hwrote.trans ht⟩

/-- R131, R134 (a): after a clear, exactly the bits of the script have been accepted. -/
theorem runScript_clear_writeScript (s : State) {ws : List (Half × Five)} (hws : widthsLegal ws) :
    ∃ t, runScript (.bseClear :: writeScript ws) s = .next t ∧ t.cmp.bse.Inv ∧ t.cmp.bse.flushed = false ∧
      acceptedBits t.cmp.bse = writtenBits ws := by
  obtain ⟨t, hrun, ht⟩ := runScript_writeScript (s := { s with report := .done .none, cmp := { s.cmp with
    bse := bseClear s.cmp.bse } }) hws (bseClear_inv s.cmp.bse) rfl
  exact ⟨t, hrun, ht.inv, ht.open', ht.bits⟩

/-- R61, R134 (b): the first bits accepted are the stream bits of `obuf`. -/
theorem acceptedBits_getElem? {b : Bse} {p : Nat} (hp : p < 8 * b.obuf.length) :
    (acceptedBits b)[p]? = some (streamBit b.obuf p) := by
  rw [acceptedBits, List.getElem?_append_left (by simpa using hp), bytesBits_getElem? _ _ hp]

/-- R134 (b): the accepted bits behind those of `obuf` are the pending ones. -/
theorem acceptedBits_drop (b : Bse) :
    (acceptedBits b).drop (8 * b.obuf.length) = bitsOf b.nacc b.acc.toNat :=
  List.drop_left' (bytesBits_length _)

/-- R134 (d): the zeros a flush adds, counted from the bits accepted. -/
theorem padding_of_acceptedBits {b : Bse} (h : b.Inv) :
    (8 - b.nacc) % 8 = (8 - (acceptedBits b).length % 8) % 8 := by
  have hpending := h.pending
  rw [acceptedBits_length]
  omega

/-- Settles O5: what holds of the accepted bits of an encoder holds of the bits the script spells. -/
theorem writesSpellTheirBits : Obligations.WritesSpellTheirBits := by
  intro s ws hws
  obtain ⟨t, hrun, hinv, hopen, hbits⟩ := runScript_clear_writeScript s hws
  obtain ⟨b, hflush, -, -, -, hout⟩ := bseFlush_ok t.cmp.bse hinv hopen
  rw [padding_of_acceptedBits hinv] at hout
  rw [← hbits]
  exact ⟨t, _, hrun, onBse_ok hflush, (acceptedBits_length _).symm, fun _ => acceptedBits_getElem?,
    acceptedBits_drop _, hout⟩

end Sys2Proof.Proofs.BitWriter
end

section
/-! The bitstream_decoder (41_bitstream_decoder.md R151 to R159). A peek spells the stream bits from its offset on, one by
one (`peekBits_testBit`) and as a whole (`peekBits_eq_zero`); reads and queries answer a peek. What the writer has written
and flushed is found at the cursor as unread bits, so a read of the same width gives it back. -/

namespace Sys2Proof.Proofs.BitReader

open Sys2Proof Sys2Proof.Machine

/-! ## An operation of the decoder alone -/

theorem onBsd_ok {f : Bsd → Step (Bsd × Report)} {s : State} {b : Bsd} {r : Report} (h : f s.dmp.bsd = .ok (b, r)) :
    onBsd f s = .next { s with report := r, dmp := { s.dmp with bsd := b } } :=
  onDmp_ok (by rw [h, Step.ok_bind]; rfl)

theorem onBsd_refused {f : Bsd → Step (Bsd × Report)} {s : State} {r : Refusal} (h : f s.dmp.bsd = refuse r) :
    onBsd f s = .refused r :=
  onDmp_refused (by rw [h, refuse_bind])

/-- A command of the decoder, which reports no result. -/
theorem onBsdCommand_ok {f : Bsd → Step Bsd} {s : State} {b : Bsd} (h : f s.dmp.bsd = .ok b) :
    onBsd (fun b => (f b).map fun b => (b, .done .none)) s =
      .next { s with report := .done .none, dmp := { s.dmp with bsd := b } } :=
  onBsd_ok (by rw [h, Step.map_ok_eq])

theorem onBsdCommand_refused {f : Bsd → Step Bsd} {s : State} {r : Refusal} (h : f s.dmp.bsd = refuse r) :
    onBsd (fun b => (f b).map fun b => (b, .done .none)) s = .refused r :=
  onBsd_refused (by rw [h, map_refuse])

/-- A query of the decoder changes nothing but the report. -/
theorem onBsdQuery_ok {α : Type} {f : Bsd → Step α} {report : α → Report} {s : State} {a : α}
    (h : f s.dmp.bsd = .ok a) :
    onBsd (fun b => (f b).map fun a => (b, report a)) s = .next { s with report := report a } :=
  onBsd_ok (by rw [h, Step.map_ok_eq])

theorem onBsdQuery_refused {α : Type} {f : Bsd → Step α} {report : α → Report} {s : State} {r : Refusal}
    (h : f s.dmp.bsd = refuse r) : onBsd (fun b => (f b).map fun a => (b, report a)) s = .refused r :=
  onBsd_refused (by rw [h, map_refuse])

/-! ## Input (R151 to R153, R261, R269) -/

theorem bsdFeed_open {x : Byte} {b : Bsd} (h : b.eof = false) : bsdFeed x b = .ok { b with ibuf := b.ibuf ++ [x] } :=
  if_neg (by simp [h])

theorem bsdFeed_ended {x : Byte} {b : Bsd} (h : b.eof = true) : bsdFeed x b = refuse .inputAlreadyEnded := if_pos h

theorem bsdEnd_open {b : Bsd} (h : b.eof = false) : bsdEnd b = .ok { b with eof := true } := if_neg (by simp [h])

theorem bsdEnd_ended {b : Bsd} (h : b.eof = true) : bsdEnd b = refuse .inputAlreadyEnded := if_pos h

/-- Settles O6: `eof` decides between the two answers; the unit's commands are the block's. -/
theorem inputCommandsOfTheDecoder : Obligations.InputCommandsOfTheDecoder := fun _ _ =>
  ⟨onBsd_ok (f := fun b => .ok (bsdClear b, .done .none)) rfl,
    fun h => ⟨onBsdCommand_ok (bsdFeed_open h), onBsdCommand_ok (bsdFeed_open h), onBsdCommand_ok (bsdEnd_open h),
      onBsdCommand_ok (bsdEnd_open h)⟩,
    fun h => ⟨onBsdCommand_refused (bsdFeed_ended h), onBsdCommand_refused (bsdFeed_ended h),
      onBsdCommand_refused (bsdEnd_ended h), onBsdCommand_refused (bsdEnd_ended h)⟩⟩

/-! ## The value of a peek (R155) -/

/-- R155, R62: bit `n - 1 - k` of a peek of `n` bits is the stream bit `k` places after its offset. -/
theorem peekBits_testBit (b : Bsd) {n k : Nat} (off : Nat) (hk : k < n) :
    (peekBits b n off).testBit (n - 1 - k) = streamBit b.ibuf (b.rpos + off + k) := by
  have hspelt : bitsOf n (peekBits b n off) = streamBits b.ibuf (b.rpos + off) n := by
    simpa [peekBits] using bitsOf_valueOf (streamBits b.ibuf (b.rpos + off) n)
  have hbit := bitsOf_getElem? n (peekBits b n off) k hk
  rw [hspelt, streamBits_getElem? _ _ _ _ hk] at hbit
  exact (Option.some.inj hbit).symm

/-- R157: a peek is 0 exactly when it sees zero bits only. -/
theorem peekBits_eq_zero (b : Bsd) (n off : Nat) :
    peekBits b n off = 0 ↔ ∀ k, k < n → streamBit b.ibuf (b.rpos + off + k) = false := by
  constructor
  · intro h k hk
    rw [← peekBits_testBit b off hk, h, Nat.zero_testBit]
  · intro h
    refine Nat.zero_of_testBit_eq_false fun i => ?_
    by_cases hi : i < n
    · have hbit := peekBits_testBit b off (show n - 1 - i < n by omega)
      rwa [h _ (by omega), show n - 1 - (n - 1 - i) = i by omega] at hbit
    · exact Nat.testBit_lt_two_pow ((peekBits_lt b n off).trans_le (Nat.pow_le_pow_right (by decide) (by omega)))

/-- A peek of at most 16 bits keeps its value and its bits in the 16-bit result. -/
theorem peekedValue (b : Bsd) {n : Nat} (off : Nat) (hn : n ≤ 16) :
    (BitVec.ofNat 16 (peekBits b n off)).toNat < 2 ^ n ∧ ∀ k, k < n →
      (BitVec.ofNat 16 (peekBits b n off)).toNat.testBit (n - 1 - k) = streamBit b.ibuf (b.rpos + off + k) := by
  have hlt := peekBits_lt b n off
  rw [BitVec.toNat_ofNat, Nat.mod_eq_of_lt (hlt.trans_le (Nat.pow_le_pow_right (by decide) hn))]
  exact ⟨hlt, fun _ => peekBits_testBit b off⟩

/-! ## Reading (R156) -/

/-- R65: the widths that reads and peeks refuse. -/
theorem width_legal {n : Nat} (h1 : 1 ≤ n) (h2 : n ≤ 16) : ¬ (n < 1 ∨ n > Config.maxWriteBits) := by
  simp only [Config.maxWriteBits]; omega

theorem readBits_eq {n : Nat} {b : Bsd} (h1 : 1 ≤ n) (h2 : n ≤ 16) (h : n ≤ avail b) :
    readBits n b = .ok ({ b with rpos := b.rpos + n }, .done (.value (.ofNat 16 (peekBits b n 0)))) := by
  rw [readBits, if_neg (width_legal h1 h2), if_pos h]

theorem readBits_short {n : Nat} {b : Bsd} (h1 : 1 ≤ n) (h2 : n ≤ 16) (h : avail b < n) :
    readBits n b = .ok (b, if b.eof = true then .error .endOfStream else .hold) := by
  rw [readBits, if_neg (width_legal h1 h2), if_neg (Nat.not_le.mpr h)]
  split <;> rfl

theorem readBits_widthOutOfRange {n : Nat} {b : Bsd} (h : n < 1 ∨ 16 < n) : readBits n b = refuse .widthOutOfRange :=
  if_pos h

/-- Settles O7: a legal read answers the peek at the cursor and moves on, or waits; another width is refused. -/
theorem readBitsConsumesOrWaits : Obligations.ReadBitsConsumesOrWaits := fun s _ =>
  ⟨fun h1 h2 h =>
      have ⟨hlt, hbits⟩ := peekedValue s.dmp.bsd 0 h2
      ⟨_, hlt, hbits, onBsd_ok (readBits_eq h1 h2 h)⟩,
    fun h1 h2 h => onBsd_ok (readBits_short h1 h2 h), fun h => onBsd_refused (readBits_widthOutOfRange h)⟩

/-! ## Skipping (R158) -/

theorem skipBits_beyond {n : Nat} {b : Bsd} (h : avail b < n) : skipBits n b = refuse .beyondAvail := if_pos h

/-- Settles O8: the unread bits decide between the two answers. -/
theorem skipBitsMovesTheCursor : Obligations.SkipBitsMovesTheCursor := fun _ _ =>
  ⟨fun h => onBsdCommand_ok (Lockstep.skipBits_eq h), fun h => onBsdCommand_refused (skipBits_beyond h)⟩

/-! ## Queries (R154, R155, R157) -/

theorem bsdPeek_eq {n off : Nat} {b : Bsd} (h1 : 1 ≤ n) (h2 : n ≤ 16) (h : off + n ≤ avail b) :
    bsdPeek n off b = .ok (.ofNat 16 (peekBits b n off)) := by
  rw [bsdPeek, if_neg (width_legal h1 h2), if_neg (Nat.not_lt.mpr h)]

theorem bsdPeek_widthOutOfRange {n off : Nat} {b : Bsd} (h : n < 1 ∨ 16 < n) :
    bsdPeek n off b = refuse .widthOutOfRange := if_pos h

theorem bsdPeek_beyond {n off : Nat} {b : Bsd} (h1 : 1 ≤ n) (h2 : n ≤ 16) (h : avail b < off + n) :
    bsdPeek n off b = refuse .beyondAvail := by
  rw [bsdPeek, if_neg (width_legal h1 h2), if_pos h]

/-- R157: the padding test, bit by bit. -/
theorem tailIsPad_iff (b : Bsd) :
    tailIsPad b = true ↔ b.eof = true ∧ avail b ≤ 7 ∧ ∀ k, k < avail b → streamBit b.ibuf (b.rpos + k) = false := by
  simp only [tailIsPad, Bool.and_eq_true, decide_eq_true_eq, beq_iff_eq, peekBits_eq_zero, Nat.add_zero, and_assoc]

/-- Settles O9: each query answers from the unread bits; a peek is refused for its width or beyond them. -/
theorem queriesOfTheDecoder : Obligations.QueriesOfTheDecoder := fun s _ off =>
  ⟨onBsd_ok (f := fun b => .ok (b, .done (.count (avail b)))) rfl,
    fun h1 h2 h =>
      have ⟨hlt, hbits⟩ := peekedValue s.dmp.bsd off.toNat h2
      ⟨_, hlt, hbits, onBsdQuery_ok (bsdPeek_eq h1 h2 h)⟩,
    fun h => onBsdQuery_refused (bsdPeek_widthOutOfRange h), fun h1 h2 h => onBsdQuery_refused (bsdPeek_beyond h1 h2 h),
    _, onBsd_ok (f := fun b => .ok (b, .done (.flag (tailIsPad b)))) rfl, tailIsPad_iff s.dmp.bsd⟩

/-! ## The reader mirrors the writer (R159) -/

theorem writtenBits_append (xs ys : List (Half × Five)) : writtenBits (xs ++ ys) = writtenBits xs ++ writtenBits ys :=
  List.flatMap_append

theorem writtenBits_cons (v : Half) (n : Five) (ws : List (Half × Five)) :
    writtenBits ((v, n) :: ws) = bitsOf n.toNat v.toNat ++ writtenBits ws := rfl

/-- R134 (d): the flushed output of a script of legal writes begins with the bits written. -/
theorem flushed_beginsWithWritten {s t u : State} {ws : List (Half × Five)} (hws : widthsLegal ws)
    (hrun : runScript (.bseClear :: writeScript ws) s = .next t) (hflush : exec .bseFlush t = .next u) :
    ∃ z, bytesBits u.cmp.bse.obuf = writtenBits ws ++ z := by
  obtain ⟨t', u', hrun', hflush', -, -, -, hspells⟩ := BitWriter.writesSpellTheirBits s ws hws
  cases hrun.symm.trans hrun'
  cases hflush.symm.trans hflush'
  exact ⟨_, hspells⟩

/-- R156: with the bits of a field at the cursor, a read of its width gives the field's value. -/
theorem readBits_of_pending {b : Bsd} {v n : Nat} {rest : List Bool} (h1 : 1 ≤ n) (h2 : n ≤ 16)
    (h : pendingBits b = bitsOf n v ++ rest) :
    readBits n b = .ok ({ b with rpos := b.rpos + n }, .done (.value (.ofNat 16 (v % 2 ^ n)))) := by
  have havail := avail_of_pending h
  have hpeek := peekBits_of_pending (x := []) h
  rw [bitsOf_length, valueOf_bitsOf] at hpeek
  rw [bitsOf_length] at havail
  rw [readBits_eq h1 h2 (by omega), ← hpeek, List.length_nil]

/-- Settles O10: the bits of the chosen write stand at the cursor. -/
theorem readerMirrorsWriter : Obligations.ReaderMirrorsWriter := by
  intro s t u r pre post v n hws hrun hflush hibuf hrpos
  obtain ⟨z, hspells⟩ := flushed_beginsWithWritten hws hrun hflush
  obtain ⟨h1, h2⟩ := hws (v, n) (by simp)
  have hpending : pendingBits r.dmp.bsd = bitsOf n.toNat v.toNat ++ (writtenBits post ++ z) := by
    rw [pendingBits, hibuf, hrpos, hspells, writtenBits_append, writtenBits_cons, List.append_assoc, List.append_assoc,
      List.drop_left' rfl]
  have hcursor : (writtenBits (pre ++ [(v, n)])).length = r.dmp.bsd.rpos + n.toNat := by
    rw [writtenBits_append, List.length_append, hrpos, writtenBits_cons, List.length_append, bitsOf_length]
    rfl
  rw [hcursor]
  exact onBsd_ok (readBits_of_pending h1 h2 hpending)

end Sys2Proof.Proofs.BitReader
end

section
/-! The sliding_window_dictionary (42_sliding_window_dictionary.md R171 to R175). What a push does to the history
(`hist_push`), what a copy moves (`swdCopy_ok`) and which sequence a window holds (`pushAll_holds`) are facts about one
window; here they are read off the state, for the window of either instance. -/

namespace Sys2Proof.Proofs.History

open Sys2Proof Sys2Proof.Machine

/-! ## An operation of one window alone -/

@[simp] theorem setWin_win (s : State) (i : Win) : s.setWin i (s.win i) = s := by cases i <;> rfl

/-- The state after a command of window `i` that left it as `w`. -/
def commanded (s : State) (i : Win) (w : Window) : State := { s.setWin i w with report := .done .none }

@[simp] theorem commanded_win (s : State) (i : Win) (w : Window) : (commanded s i w).win i = w := by cases i <;> rfl

theorem onWin_ok {i : Win} {f : Window → Step (Window × OpResult)} {s : State} {w : Window} {r : OpResult}
    (h : f (s.win i) = .ok (w, r)) : onWin i f s = .next { s.setWin i w with report := .done r } := by
  cases i with
  | cwin =>
    have hf : f s.cmp.cwin = .ok (w, r) := h
    unfold onWin
    exact onCmp_ok (by rw [hf, Step.ok_bind]; rfl)
  | dwin =>
    have hf : f s.dmp.dwin = .ok (w, r) := h
    unfold onWin
    exact onDmp_ok (by rw [hf, Step.ok_bind]; rfl)

theorem onWin_refused {i : Win} {f : Window → Step (Window × OpResult)} {s : State} {r : Refusal}
    (h : f (s.win i) = refuse r) : onWin i f s = .refused r := by
  cases i with
  | cwin =>
    have hf : f s.cmp.cwin = refuse r := h
    unfold onWin
    exact onCmp_refused (by rw [hf, refuse_bind])
  | dwin =>
    have hf : f s.dmp.dwin = refuse r := h
    unfold onWin
    exact onDmp_refused (by rw [hf, refuse_bind])

/-! ## Clear (R171) -/

theorem exec_swdClear_legal (s : State) (i : Win) {w : Nat} (h : Config.legalW w) :
    exec (.swdClear i w) s = .next (commanded s i (clearWindow (s.win i) w)) :=
  onWin_ok (f := fun v => (swdClear v w).map fun v => (v, .none)) (by rw [swdClear_legal _ h, Step.map_ok_eq])

theorem swdClear_illegal (v : Window) {w : Nat} (h : ¬ Config.legalW w) : swdClear v w = refuse .windowBitsOutOfRange :=
  if_neg h

/-- Settles O11: the range check of R171 decides between the two answers. -/
theorem windowClearSetsTheSize : Obligations.WindowClearSetsTheSize := by
  intro s i w
  refine ⟨fun h1 h2 => exec_swdClear_legal s i ⟨h1, h2⟩, fun hw => ?_⟩
  have hillegal : ¬ Config.legalW w := by omega
  exact onWin_refused (f := fun v => (swdClear v w).map fun v => (v, .none))
    (by rw [swdClear_illegal _ hillegal, map_refuse])

/-! ## Push (R172) -/

theorem exec_swdPush (s : State) (i : Win) (b : Byte) :
    exec (.swdPush i b) s = .next (commanded s i (push (s.win i) b)) :=
  onWin_ok (f := fun w => .ok (push w b, .none)) rfl

/-- R172: the byte pushed is the newest. -/
theorem hist_push_one {w : Window} (b : Byte) (h : w.Inv) : hist (push w b) 1 = some b := by
  rw [hist_push w b 1 h.canonical h.cursor le_rfl w.size_pos, if_pos rfl]

/-- R172: every older byte is one place further back. -/
theorem hist_push_succ {w : Window} (b : Byte) {d : Nat} (h : w.Inv) (h1 : 1 ≤ d) (hd : d + 1 ≤ w.size) :
    hist (push w b) (d + 1) = hist w d := by
  rw [hist_push w b (d + 1) h.canonical h.cursor (by omega) hd, if_neg (by omega), Nat.add_sub_cancel]

/-- Settles O12: the state has the pushed window, whose fill keeps the distances within the ring. -/
theorem pushShiftsTheHistory : Obligations.PushShiftsTheHistory := by
  intro s i b hinv
  refine ⟨_, exec_swdPush s i b, rfl, ?_⟩
  rw [commanded_win]
  exact ⟨hist_push_one b hinv, fun a ha => Frame.memRead_push hinv ha,
    fun d h1 hd => hist_push_succ b hinv h1 (hd.trans (push_inv _ b hinv).filled)⟩

/-! ## Reading the history (R173) -/

/-- R67: the cell `d` places back, the subtraction kept above 0 by one turn of the ring. -/
theorem histAddr_eq_mod {w : Window} {d : Nat} (hd : d ≤ w.size) :
    histAddr w d = (w.wr + 2 ^ w.bits - d) % 2 ^ w.bits := by
  have hturn : ((w.wr + 2 ^ w.bits - d : Nat) : Int) = (w.wr : Int) - d + (2 ^ w.bits : Nat) := by
    have hsize : w.size = 2 ^ w.bits := rfl
    omega
  rw [histAddr, ← Int.add_emod_right, ← hturn, ← Int.natCast_emod, Int.toNat_natCast]

theorem swdHist_within {i : Win} {w : Window} {d : Nat} (h1 : 1 ≤ d) (h2 : d ≤ w.fill) :
    swdHist i w d = readHist i w d := if_pos ⟨h1, h2⟩

theorem swdHist_outside {i : Win} {w : Window} {d : Nat} (h : d < 1 ∨ w.fill < d) :
    swdHist i w d = refuse .outsideHistory := if_neg (by omega)

theorem inv_win {s : State} (h : s.Inv) (i : Win) : (s.win i).Inv :=
  match i with
  | .cwin => h.cmp.cwin
  | .dwin => h.dmp.dwin

/-- Settles O13: within `fill` the cell has been written, so the read answers its byte. -/
theorem histReadsTheHistory : Obligations.HistReadsTheHistory := by
  intro s i d
  constructor
  · intro hinv h1 h2
    have hwin : (s.win i).Inv := inv_win hinv i
    obtain ⟨b, hb, hread⟩ := readHist_ok i (s.win i) d.toNat hwin h1 h2
    refine ⟨b, by rw [← histAddr_eq_mod (h2.trans hwin.filled)]; exact hb, ?_⟩
    have hexec := onWin_ok (f := fun w => (swdHist i w d.toNat).map fun b => (w, .byte b)) (s := s) (i := i)
      (by rw [swdHist_within h1 h2, hread, Step.map_ok_eq])
    rwa [setWin_win] at hexec
  · exact fun hout => onWin_refused (f := fun w => (swdHist i w d.toNat).map fun b => (w, .byte b))
      (by rw [swdHist_outside hout, map_refuse])

/-! ## Copy (R174, R175 c) -/

/-- R174, the block driven directly: the bytes moved go to the window and to the output. -/
theorem exec_swdCopy_moved {s : State} {d : Half} {n : Five} {w : Window} {bs : List Byte}
    (h : swdCopy s.dmp.dwin d.toNat n.toNat = .ok (some (w, bs))) :
    exec (.swdCopy d n) s = .next { s with report := .done (.bytes bs), dmp := { s.dmp with
      dwin := w, rout := s.dmp.rout ++ bs } } := by
  show execSwdCopy d n s = _
  unfold execSwdCopy
  exact onDmp_ok (by rw [h, Step.map_ok_eq])

/-- R174, R293, the block driven directly: `InvalidDistance` is reported, and no register changes (assumption log 10). -/
theorem exec_swdCopy_raised {s : State} {d : Half} {n : Five}
    (h : swdCopy s.dmp.dwin d.toNat n.toNat = .ok none) :
    exec (.swdCopy d n) s = .next { s with report := .error .invalidDistance } := by
  show execSwdCopy d n s = _
  unfold execSwdCopy
  exact onDmp_ok (by rw [h, Step.map_ok_eq])

theorem exec_swdCopy_refused {s : State} {d : Half} {n : Five} {r : Refusal}
    (h : swdCopy s.dmp.dwin d.toNat n.toNat = refuse r) : exec (.swdCopy d n) s = .refused r := by
  show execSwdCopy d n s = _
  unfold execSwdCopy
  exact onDmp_refused (by rw [h, map_refuse])

theorem swdCopy_distanceZero {w : Window} {d n : Nat} (h : d = 0) : swdCopy w d n = refuse .distanceZero := if_pos h

/-- Settles O14: the three branches of R174; the bytes a valid copy moves are those of R175 (c). -/
theorem copyRepeatsTheHistory : Obligations.CopyRepeatsTheHistory := by
  intro s d n
  refine ⟨fun hinv h1 h2 => ?_, fun h1 hfar => exec_swdCopy_raised (swdCopy_raises h1 hfar),
    fun h0 => exec_swdCopy_refused (swdCopy_distanceZero h0)⟩
  obtain ⟨bs, hcopy, hlength, hbytes⟩ := swdCopy_ok (n := n.toNat) hinv.dmp.dwin h1 h2
  exact ⟨bs, ⟨hlength, hbytes⟩, exec_swdCopy_moved hcopy⟩

/-! ## What a window holds (R175 a, b) -/

/-- A script of pushes completes, and does to the window what pushing all the bytes does. -/
theorem runScript_pushes (s : State) (i : Win) (p : List Byte) :
    ∃ t, runScript (p.map (.swdPush i)) s = .next t ∧ t.win i = pushAll (s.win i) p := by
  induction p generalizing s with
  | nil => exact ⟨s, rfl, rfl⟩
  | cons b p ih =>
    obtain ⟨t, hrun, hwin⟩ := ih (commanded s i (push (s.win i) b))
    rw [commanded_win] at hwin
    exact ⟨t, by simpa only [List.map_cons, runScript, exec_swdPush] using hrun, hwin⟩

/-- R171, R172: a clear and a script of pushes leave the bytes pushed into the empty window. -/
theorem win_of_clear_pushes {s t : State} {i : Win} {p : List Byte} {w : Nat} (hw : Config.legalW w)
    (hrun : runScript (.swdClear i w :: p.map (.swdPush i)) s = .next t) :
    t.win i = pushAll (clearWindow (s.win i) w) p := by
  obtain ⟨t', hrun', hwin⟩ := runScript_pushes (commanded s i (clearWindow (s.win i) w)) i p
  rw [commanded_win] at hwin
  simp only [runScript, exec_swdClear_legal s i hw, hrun'] at hrun
  cases hrun
  exact hwin

/-- Settles O15: the cleared window holds the empty sequence, and each push appends its byte to the sequence held. -/
theorem windowHoldsWhatWasPushed : Obligations.WindowHoldsWhatWasPushed := by
  intro s t i p w h1 h2 hinv hrun
  have hwin := win_of_clear_pushes ⟨h1, h2⟩ hrun
  have hholds : (t.win i).Holds p :=
    hwin ▸ pushAll_holds p _ [] (clearWindow_inv _ w hinv ⟨h1, h2⟩) (clearWindow_holds _ w)
  have hbits : (t.win i).bits = w := by rw [hwin, pushAll_bits, clearWindow_bits]
  have hsize : (t.win i).size = 2 ^ w := by rw [Window.size, hbits]
  obtain ⟨hcursor, hfill, hbytes⟩ := hholds
  rw [hsize] at hcursor hfill
  exact ⟨hbits, hfill, hcursor, fun d hd1 hd2 => hbytes d hd1 (hfill ▸ hd2)⟩

end Sys2Proof.Proofs.History
end

section
/-! The token_emitter (43_token_emitter.md R191 to R193). That the emissions succeed and what they write is said of the
encoder (`emitHeader_ok`, `emitLiteral_ok`, `emitMatch_ok`); here it is carried to the whole state, and the bits are put
in the form of the rules. -/

namespace Sys2Proof.Proofs.TokenEmitter

open Sys2Proof Sys2Proof.Machine

/-! ## An emission -/

/-- A command of the encoder that appends `bits` completes, and changes the encoder and the report alone. -/
theorem onBse_wrote {f : Bse → Step Bse} {s : State} {bits : List Bool}
    (h : ∃ b, f s.cmp.bse = .ok b ∧ Wrote s.cmp.bse b bits) :
    ∃ b : Bse, onBse f s = .next { s with report := .done .none, cmp := { s.cmp with bse := b } } ∧
      acceptedBits b = acceptedBits s.cmp.bse ++ bits ∧ s.cmp.bse.obuf <+: b.obuf ∧ b.flushed = false ∧ b.Inv := by
  obtain ⟨b, hf, hwrote⟩ := h
  exact ⟨b, BitWriter.onBse_ok hf, hwrote.bits, hwrote.grows, hwrote.open', hwrote.inv⟩

/-! ## Header (R191) -/

/-- R91, R191: the number the emitter writes spells the five fields, VERSION 1 and the rest 0 around `w` and `l`. -/
theorem bitsOf_header (w l : Nibble) :
    bitsOf 16 (0x1000 + 0x100 * w.toNat + 0x10 * l.toNat) = headerBitsOf 1 w l 0 0 := by
  have hvalue : valueOf (headerBitsOf 1 w l 0 0) = 0x1000 + 0x100 * w.toNat + 0x10 * l.toNat := calc
    _ = 1 * 4096 + w.toNat * 256 + l.toNat * 16 + 0 * 8 + 0 := valueOf_headerBitsOf 1 w l 0 0
    _ = 0x1000 + 0x100 * w.toNat + 0x10 * l.toNat := by omega
  rw [← hvalue]
  exact bitsOf_valueOf (headerBitsOf 1 w l 0 0)

/-- Settles O16: the header is one write of 16 bits, which are the record's fields. -/
theorem emitHeaderAppendsHeader : Obligations.EmitHeaderAppendsHeader := by
  intro s w l hinv hopen
  rw [← bitsOf_header]
  exact onBse_wrote (emitHeader_ok w.toNat l.toNat s.cmp.bse hinv.cmp.bse hopen)

/-! ## Literal (R192) -/

/-- R95: the escape code is all ones. -/
theorem bitsOf_allOnes (n : Nat) : bitsOf n (2 ^ n - 1) = List.replicate n true := by
  apply List.ext_getElem?
  intro k
  by_cases hk : k < n
  · have hplace : n - 1 - k < n := by omega
    rw [bitsOf_getElem? _ _ _ hk, Nat.testBit_two_pow_sub_one, List.getElem?_replicate_of_lt hk, decide_eq_true hplace]
  · rw [List.getElem?_eq_none (by simpa using hk), List.getElem?_eq_none (by simpa using hk)]

/-- R192: the code of a byte, by the branches of the rule. -/
theorem literalCode_eq (l : Nat) (x : Byte) :
    literalCode l x = true :: (if l = 8 then bitsOf 8 x.toNat
      else if x.toNat < 2 ^ l - 1 then bitsOf l x.toNat
      else List.replicate l true ++ bitsOf 8 x.toNat) := by
  unfold literalCode covered
  by_cases h8 : l = 8
  · simp [h8, literalBitsOf]
  · by_cases hc : x.toNat < 2 ^ l - 1
    · simp [h8, hc, literalBitsOf]
    · simp [h8, hc, escapeBitsOf, bitsOf_allOnes]

/-- Settles O17: the emitter writes the code of the byte, whose branches are those of the rule. -/
theorem emitLiteralAppendsLiteral : Obligations.EmitLiteralAppendsLiteral := by
  intro s x hinv hopen hl
  rw [← literalCode_eq]
  exact onBse_wrote (emitLiteral_ok s.cmp.ccfgL.toNat x s.cmp.bse hinv.cmp.bse hopen hl)

/-! ## Match (R193) -/

/-- R96: a length field given as a number is written as its low 4 bits. -/
theorem matchBitsOf_ofNat (w d k : Nat) :
    matchBitsOf w d (.ofNat 4 k) = false :: (bitsOf w d ++ bitsOf 4 k) := by
  rw [matchBitsOf, Config.lenBits, BitVec.toNat_ofNat, bitsOf_mod 4 4 k le_rfl]

theorem emitMatch_outOfRange {w d n : Nat} {b : Bse} (h : d < 1 ∨ 2 ^ w < d ∨ n < 2 ∨ 17 < n) :
    emitMatch w d n b = refuse .matchOutOfRange := if_pos h

/-- Settles O18: the emitter writes the match's fields, or its range check refuses the operands. -/
theorem emitMatchAppendsMatch : Obligations.EmitMatchAppendsMatch := by
  intro s d n
  constructor
  · intro hinv hopen hw h1 h2 h3 h4
    rw [← matchBitsOf_ofNat]
    exact onBse_wrote
      (emitMatch_ok s.cmp.ccfgW.toNat d.toNat n.toNat s.cmp.bse hinv.cmp.bse hopen hw h1 h2 h3 h4)
  · exact fun hout => BitWriter.onBse_refused (emitMatch_outOfRange hout)

end Sys2Proof.Proofs.TokenEmitter
end

section
/-! The token_interpreter (44_token_interpreter.md R211 to R213). What a parse answers where a whole header or token stands
at the cursor is said of the decoder (`parseHeader_of_pending`, `parseToken_literalCode`, `parseToken_escaped`,
`parseToken_match`); here its other answer, `NeedMore`, is told by the first unread bit, and both are carried to the whole
state. -/

namespace Sys2Proof.Proofs.TokenInterpreter

open Sys2Proof Sys2Proof.Machine

/-! ## The queries (R211, R212) -/

theorem exec_tinParseHeader (s : State) :
    exec .tinParseHeader s = .next { s with report := .done (.header (parseHeader s.dmp.bsd)) } := rfl

theorem exec_tinParseToken {s : State} (hw : Config.legalW s.dmp.dcfgW.toNat) (hl : Config.legalL s.dmp.dcfgL.toNat) :
    exec .tinParseToken s = .next
      { s with report := .done (.token (parseToken s.dmp.dcfgW.toNat s.dmp.dcfgL.toNat s.dmp.bsd)) } := by
  show execTinParseToken s = _
  unfold execTinParseToken
  exact onDmp_ok (if_neg (not_not.mpr (Lockstep.headerParsed_of_legal hw hl)))

/-- R304: before a header has been parsed there is no pair to parse a token under. -/
theorem exec_tinParseToken_refused {s : State}
    (h : ¬ (Config.legalW s.dmp.dcfgW.toNat ∧ Config.legalL s.dmp.dcfgL.toNat)) :
    exec .tinParseToken s = .refused .headerNotParsed := by
  have hparsed : ¬ headerParsed s.dmp = true := by simpa [headerParsed] using h
  show execTinParseToken s = _
  unfold execTinParseToken
  exact onDmp_refused (if_pos hparsed)

/-- The query's answer `a` is the parse's, since the states of two answers differ in the report. -/
theorem exec_tinParseToken_iff {s : State} {a : TokenAnswer} (hw : Config.legalW s.dmp.dcfgW.toNat)
    (hl : Config.legalL s.dmp.dcfgL.toNat) :
    exec .tinParseToken s = .next { s with report := .done (.token a) } ↔
      parseToken s.dmp.dcfgW.toNat s.dmp.dcfgL.toNat s.dmp.bsd = a := by
  rw [exec_tinParseToken hw hl]
  simp

/-! ## Header (R211) -/

theorem parseHeader_needMore {b : Bsd} (h : avail b < 16) : parseHeader b = .needMore := if_pos h

/-- Settles O19: the header's 16 bits are there and spell its fields, or more are needed. -/
theorem parseHeaderAnswers : Obligations.ParseHeaderAnswers := by
  intro s
  rw [exec_tinParseHeader]
  exact ⟨fun h => by rw [parseHeader_needMore h], fun _ _ _ _ _ _ h => by rw [parseHeader_of_pending h]⟩

/-! ## An incomplete token (R212, R213 c) -/

/-- R95: a field of `n` bits holds the escape code exactly when the bits there begin with `n` set ones. -/
theorem valueOf_take_eq_allOnes {t : List Bool} {n : Nat} (h : n ≤ t.length) :
    valueOf (t.take n) = 2 ^ n - 1 ↔ List.replicate n true <+: t := by
  rw [List.prefix_iff_eq_take, List.length_replicate, ← TokenEmitter.bitsOf_allOnes]
  constructor
  · intro hones
    rw [← hones, ← take_eq_bitsOf h]
  · intro htake
    rw [← htake, valueOf_bitsOf, Nat.mod_eq_of_lt (Nat.sub_lt (Nat.two_pow_pos n) Nat.one_pos)]

theorem parseToken_of_empty {w l : Nat} {b : Bsd} (h : pendingBits b = []) : parseToken w l b = .needMore :=
  if_pos (by rw [← pendingBits_length, h]; exact Nat.one_pos)

/-- R212: a match begins, of `5 + w` bits. -/
theorem parseToken_needMore_of_clear {w l : Nat} {b : Bsd} {t : List Bool} (h : pendingBits b = false :: t) :
    parseToken w l b = .needMore ↔ avail b < 5 + w := by
  have hone : ¬ avail b < 1 := by rw [← pendingBits_length, h]; simp
  have hkind : ¬ peekBits b 1 0 = 1 := by
    rw [show peekBits b 1 0 = valueOf [false] from peekBits_of_pending (x := []) (y := [false]) h]
    decide
  simp [parseToken, hone, hkind]

/-- R212: a literal begins, of `1 + l` bits, or of 8 more where its code is the escape. -/
theorem parseToken_needMore_of_set {w l : Nat} {b : Bsd} {t : List Bool} (h : pendingBits b = true :: t) :
    parseToken w l b = .needMore ↔
      avail b < 1 + l ∨ l < 8 ∧ avail b < 9 + l ∧ List.replicate l true <+: t := by
  have hlength : avail b = t.length + 1 := by rw [← pendingBits_length, h, List.length_cons]
  have hone : ¬ avail b < 1 := by omega
  have hkind : peekBits b 1 0 = 1 := peekBits_of_pending (x := []) (y := [true]) h
  by_cases hcode : avail b < 1 + l
  · simp [parseToken, hone, hkind, hcode]
  have hfits : l ≤ t.length := by omega
  have hpeek : peekBits b l 1 = valueOf (t.take l) := by
    rw [peekBits_eq b l 1 (by omega), h, List.drop_one, List.tail_cons]
  have hescape : 1 + l + 8 = 9 + l := by omega
  by_cases hesc : l < 8 ∧ List.replicate l true <+: t
  · simp [parseToken, hone, hkind, hcode, hpeek, valueOf_take_eq_allOnes hfits, hesc, hescape]
  · simp only [parseToken, hone, hkind, hcode, hpeek, valueOf_take_eq_allOnes hfits, hesc, if_true, if_false, false_or,
      reduceCtorEq, false_iff]
    exact fun ⟨h8, _, hones⟩ => hesc ⟨h8, hones⟩

/-- R213 (c): `NeedMore` is answered exactly when the unread bits end before the token that begins there. -/
theorem parseToken_needMore_iff (w l : Nat) (b : Bsd) :
    parseToken w l b = .needMore ↔
      pendingBits b = [] ∨ ((pendingBits b).head? = some false ∧ avail b < 5 + w) ∨
      ((pendingBits b).head? = some true ∧ avail b < 1 + l) ∨
      (l < 8 ∧ avail b < 9 + l ∧ List.replicate (1 + l) true <+: pendingBits b) := by
  rw [Nat.add_comm 1 l, List.replicate_succ, Nat.add_comm l 1]
  match h : pendingBits b with
  | [] => simp [parseToken_of_empty h]
  | false :: t => simp [parseToken_needMore_of_clear h]
  | true :: t => simp [parseToken_needMore_of_set h]

/-! ## Token (R212, R213) -/

/-- R97, R212: a match at the cursor, its distance and length as numbers. -/
theorem parseToken_matchFields {w l d : Nat} {n : Nibble} {b : Bsd} {rest : List Bool} (hw : Config.legalW w)
    (hd : d < 2 ^ w) (h : pendingBits b = matchBitsOf w d n ++ rest) :
    parseToken w l b = .matched (.ofNat 16 (d + 1)) (.ofNat 5 (n.toNat + 2)) (w + 5) := by
  have hrange : d < 2 ^ 15 := hd.trans_le (Nat.pow_le_pow_right (by decide) hw.2)
  rw [parseToken_match h hd, distanceOf_eq d hrange, lengthOf_eq, Nat.add_comm 5 w]

/-- R95, R212: an escaped byte at the cursor, whether or not it needs the escape. -/
theorem parseToken_escapedByte {w l : Nat} {x : Byte} {b : Bsd} {rest : List Bool} (h8 : l < 8)
    (h : pendingBits b = escapeBitsOf l x ++ rest) : parseToken w l b = .literal x (l + 9) := by
  rw [parseToken_escaped h h8, show 1 + l + 8 = l + 9 by omega]

/-- Settles O20: each token form at the cursor is answered as such, and what is missing is told by the first bit. -/
theorem parseTokenAnswers : Obligations.ParseTokenAnswers := by
  refine ⟨fun _ => exec_tinParseToken_refused, fun s hw hl => ?_⟩
  simp only [exec_tinParseToken_iff hw hl]
  exact ⟨fun _ _ => parseToken_literalCode hl, fun _ _ => parseToken_escapedByte,
    fun _ _ _ => parseToken_matchFields hw, parseToken_needMore_iff _ _ s.dmp.bsd⟩

end Sys2Proof.Proofs.TokenInterpreter
end

section
/-! The match_search_engine (45_match_search_engine.md R231 to R233, R243). What the search answers is said of the
compressor (`search_ok`, `Best.bounds`), in terms of the bytes it looks for; here it is carried to the whole state and
to `agreesTo`, which speaks of the lookahead cells. -/

namespace Sys2Proof.Proofs.MatchSearch

open Sys2Proof Sys2Proof.Machine

/-- R231: agreement of the lookahead cells is agreement of the bytes the search looks for. -/
theorem agreesTo_iff {c : Cmp} {d k : Nat} (hla : c.la.length = 17) :
    agreesTo c d k ↔
      k ≤ min (lookahead c).length d ∧ ∀ j, j < k → (lookahead c)[j]? = hist c.cwin (d - j) := by
  rw [agreesTo, lookahead_length c hla, Config.maxMatch]
  refine and_congr_right fun hk => forall₂_congr fun j hj => ?_
  rw [lookahead_getElem? c j (by omega)]

/-- R232: the query reports the search's answer and changes nothing. -/
theorem exec_mseSearch {s : State} {len dist : Nat} (h : search s.cmp = .ok (len, dist)) :
    exec .mseSearch s = .next { s with report := .done (.search len dist) } := by
  show execMseSearch s = _
  unfold execMseSearch
  exact onCmp_ok (by rw [h, Step.map_ok_eq])

/-- R232, R233: the query answers, and its answer is the best. -/
theorem exec_mseSearch_best {s : State} (h : s.cmp.cwin.Inv) :
    ∃ len dist, exec .mseSearch s = .next { s with report := .done (.search len dist) } ∧
      Best s.cmp.cwin (lookahead s.cmp) s.cmp.cwin.fill (len, dist) := by
  obtain ⟨⟨len, dist⟩, hfound, hbest⟩ := search_ok s.cmp h
  exact ⟨len, dist, exec_mseSearch hfound, hbest⟩

/-- Settles O21: the answer of the loop is the best over all distances of the history. -/
theorem searchFindsTheLongestNearest : Obligations.SearchFindsTheLongestNearest := by
  rintro s ⟨-, hwin, hla, -⟩
  obtain ⟨len, dist, hexec, hbest⟩ := exec_mseSearch_best hwin
  refine ⟨len, dist, hexec, ?_, fun d k h1 h2 hagree => ?_⟩
  · obtain hnone | ⟨hlen, h1, h2, hagree⟩ := hbest.found
    · exact .inl hnone
    · exact .inr ⟨hlen, h1, h2, (agreesTo_iff hla).mpr hagree⟩
  · obtain ⟨hfits, hbytes⟩ := (agreesTo_iff hla).mp hagree
    exact hbest.best d k h1 h2 hfits hbytes

/-- Settles O23: the reported answer is the best, so the bounds of a best answer hold of it. -/
theorem emittedMatchesStayInHistory : Obligations.EmittedMatchesStayInHistory := by
  rintro s t len dist ⟨-, hwin, hla, -⟩ hexec hreport hlen
  obtain ⟨len', dist', hexec', hbest⟩ := exec_mseSearch_best hwin
  rw [hexec'] at hexec
  cases hexec
  cases hreport
  obtain ⟨hahead, h17, hdist⟩ := hbest.bounds hla
  obtain ⟨-, hfill, hle⟩ := hdist (by omega)
  exact ⟨hle, hfill, h17, hahead⟩

end Sys2Proof.Proofs.MatchSearch
end

section
/-! The compressor sequencer (45_match_search_engine.md R235 to R238). An encode step is said forwards by
`encodeStep_ok`; a write is at most one such step (R237) and a close a run of them (R238), so with a stream open both
complete. -/

namespace Sys2Proof.Proofs.Sequencer

open Sys2Proof Sys2Proof.Machine Sys2Proof.Proofs.Units

/-! ## A command of the sequencer -/

/-- The state after a command that left the compressor as `c` and reports no result. -/
def completed (s : State) (c : Cmp) : State := { s with cmp := c, report := .done .none }

theorem onCmpCommand_ok {f : Cmp → Step Cmp} {s : State} {c : Cmp} (h : f s.cmp = .ok c) :
    onCmp (fun c => (f c).map fun c => (c, .done .none)) s = .next (completed s c) :=
  onCmp_ok (by rw [h, Step.map_ok_eq])

theorem onCmpCommand_refused {f : Cmp → Step Cmp} {s : State} {r : Refusal} (h : f s.cmp = refuse r) :
    onCmp (fun c => (f c).map fun c => (c, .done .none)) s = .refused r :=
  onCmp_refused (by rw [h, map_refuse])

/-! ## The encode step (R235) -/

theorem encodeStep_refused {c : Cmp} (h : c.cstate ≠ .opened ∨ c.laN = 0) :
    encodeStep c = refuse .nothingToEncode := if_pos (h.imp_right Nat.lt_one_iff.mpr)

section
variable {c c' : Cmp} {len dist : Nat} (h : EncodeDone c c' len dist)
include h

theorem stepBytes_length : (stepBytes c len).length = encodedBytes len := h.count

/-- The bytes a step encodes are the front of the lookahead. -/
theorem stepBytes_eq_take : stepBytes c len = c.la.take (encodedBytes len) := stepBytes_length h ▸ h.taken

theorem encodedBytes_le_laN : encodedBytes len ≤ c.laN := stepBytes_length h ▸ h.fits

/-- R235: the compressor after a step, in the terms of the rule. -/
theorem eq_dropEncoded :
    c' = dropEncoded (encodedBytes len) { c with
      bse := c'.bse, cwin := pushAll c.cwin (c.la.take (encodedBytes len)) } := by
  rw [← stepBytes_eq_take h, ← stepBytes_length h]
  exact h.after

theorem laN_of_encodeDone : c'.laN = c.laN - encodedBytes len := by
  rw [eq_dropEncoded h]
  rfl

end

/-- Settles O22: the step asks the search, emits by its answer, and moves the bytes it encodes. -/
theorem encodeStepEmitsOneToken : Obligations.EncodeStepEmitsOneToken := by
  intro s
  refine ⟨fun ⟨hbse, hwin, hla, hlaN⟩ ⟨hopen, hflushed, hsize⟩ hw hl h1 => ?_, fun h =>
    onCmpCommand_refused (encodeStep_refused h)⟩
  obtain ⟨c, len, dist, hstep, hdone⟩ := encodeStep_ok hbse hwin hla hlaN h1 hopen hflushed hsize hw hl
  have hexec : exec .csqEncodeStep s = .next (completed s c) := onCmpCommand_ok hstep
  rw [eq_dropEncoded hdone] at hexec
  exact ⟨len, dist, c.bse, MatchSearch.exec_mseSearch hdone.found, encodedBytes_le_laN hdone, hdone.wrote.bits,
    hdone.wrote.open', hdone.wrote.inv, hexec⟩

/-! ## Driving an open stream -/

/-- A stream is open and something may be encoded, the lookahead being full at most (R237). -/
structure Encoding (c : Cmp) : Prop where
  busy : c.Busy
  opened : streamOpen c

/-- A stream is open between two commands. -/
structure Streaming (c : Cmp) : Prop where
  inv : c.Inv
  opened : streamOpen c

theorem Streaming.encoding {c : Cmp} (h : Streaming c) : Encoding c := ⟨h.inv.busy, h.opened⟩

theorem Streaming.accept {c : Cmp} (h : Streaming c) (x : Byte) : Encoding (acceptByte x c) :=
  ⟨h.inv.accept x, h.opened⟩

/-- R235, R291: with something to encode the step completes, and the stream stays open. -/
theorem encodeStep_completes {c : Cmp} (h : Encoding c) (h1 : 1 ≤ c.laN) :
    ∃ c' len dist, encodeStep c = .ok c' ∧ EncodeDone c c' len dist ∧ Streaming c' := by
  obtain ⟨hopen, hflushed, hsize⟩ := h.opened
  obtain ⟨hw, hl⟩ := h.busy.opened hopen
  obtain ⟨c', len, dist, hstep, hdone⟩ :=
    encodeStep_ok h.busy.bse h.busy.cwin h.busy.cells h.busy.full h1 hopen hflushed hsize hw hl
  obtain ⟨hinv, -, -, hstate, hcfgW, -, -, hbits⟩ := encodeStep_keeps hstep h.busy
  exact ⟨c', len, dist, hstep, hdone, hinv, hstate.trans hopen, hdone.wrote.open', by rw [hbits, hcfgW, hsize]⟩

/-- What a step that completed did. -/
theorem encodeStep_done {c c' : Cmp} (h : Encoding c) (hstep : encodeStep c = .ok c') :
    Streaming c' ∧ ∃ len dist, EncodeDone c c' len dist := by
  obtain ⟨_, _, hinv⟩ := encodeStep_inv hstep
  obtain ⟨c1, len, dist, hstep1, hdone, hstream⟩ := encodeStep_completes h hinv.some
  cases hstep.symm.trans hstep1
  exact ⟨hstream, len, dist, hdone⟩

/-! ## Write (R237) -/

theorem cWrite_refused {c : Cmp} (x : Byte) (h : c.cstate ≠ .opened) : cWrite x c = refuse .noStreamOpen := if_pos h

theorem cWrite_room {c : Cmp} (x : Byte) (h : c.cstate = .opened) (h17 : c.laN + 1 ≠ 17) :
    cWrite x c = .ok (acceptByte x c) := by
  rw [cWrite, if_neg (not_not.mpr h)]
  exact if_neg h17

theorem cWrite_full {c : Cmp} (x : Byte) (h : c.cstate = .opened) (h17 : c.laN + 1 = 17) :
    cWrite x c = encodeStep (acceptByte x c) := by
  rw [cWrite, if_neg (not_not.mpr h)]
  exact if_pos h17

/-- Settles O25: with the lookahead full the write is the encode step of the state that has taken the byte. -/
theorem writeFillsTheLookahead : Obligations.WriteFillsTheLookahead := by
  intro s x
  refine ⟨fun h h17 => onCmpCommand_ok (cWrite_room x h h17), fun h h17 => ?_,
    fun h => onCmpCommand_refused (cWrite_refused x h)⟩
  show execCWrite x s = execCsqEncodeStep (completed s (acceptByte x s.cmp))
  simp only [execCWrite, execCsqEncodeStep, onCmp, cWrite_full x h h17, completed]

/-- R237, R291: with a stream open a write completes and keeps the stream open. -/
theorem cWrite_completes {c : Cmp} (x : Byte) (h : Streaming c) : ∃ c', cWrite x c = .ok c' ∧ Streaming c' := by
  have hopen := h.opened.1
  by_cases h17 : c.laN + 1 = 17
  · obtain ⟨c', -, -, hstep, -, hstream⟩ := encodeStep_completes (h.accept x) (Nat.le_add_left 1 c.laN)
    exact ⟨c', (cWrite_full x hopen h17).trans hstep, hstream⟩
  · have hwrite := cWrite_room x hopen h17
    exact ⟨_, hwrite, cWrite_inv hwrite h.inv, h.opened⟩

theorem cWrite_streaming {x : Byte} {c c' : Cmp} (h : Streaming c) (hwrite : cWrite x c = .ok c') : Streaming c' := by
  obtain ⟨c1, hwrite1, hstream⟩ := cWrite_completes x h
  cases hwrite.symm.trans hwrite1
  exact hstream

/-- R237: a write adds at most its one byte to the lookahead, and does not touch `cerr`. -/
theorem cWrite_bounds {x : Byte} {c c' : Cmp} (hi : c.Inv) (h : cWrite x c = .ok c') :
    c'.laN ≤ c.laN + 1 ∧ c'.cerr = c.cerr := by
  obtain ⟨-, ⟨-, rfl⟩ | ⟨-, hstep⟩⟩ := cWrite_cases h
  · exact ⟨le_rfl, rfl⟩
  · obtain ⟨-, hlaN, -, -, -, -, hcerr, -⟩ := encodeStep_keeps hstep (hi.accept x)
    exact ⟨hlaN.le, hcerr⟩

/-- Settles O26: the write completes, and its result meets the invariant, which bounds the lookahead. -/
theorem writeAlwaysCompletes : Obligations.WriteAlwaysCompletes := by
  intro s x hinv hopen
  obtain ⟨c, hwrite, hstream⟩ := cWrite_completes x ⟨hinv.cmp, hopen⟩
  obtain ⟨hlaN, hcerr⟩ := cWrite_bounds hinv.cmp hwrite
  obtain ⟨hcfgW, hcfgL⟩ := cWrite_config hwrite
  exact ⟨completed s c, onCmpCommand_ok hwrite, hstream.opened, Nat.le_of_lt_succ hstream.inv.ahead, hlaN, rfl, hcfgW,
    hcfgL, hcerr⟩

/-! ## Close (R238) -/

theorem cClose_refused {c : Cmp} (h : c.cstate ≠ .opened) : cClose c = refuse .noStreamOpen := if_pos h

/-- R238: the loop is a script of encode steps, at most one a turn. -/
theorem runScript_of_drain {n : Nat} {s : State} {c : Cmp} (h : drain n s.cmp = .ok c) :
    ∃ k r, k ≤ n ∧
      runScript (List.replicate k .csqEncodeStep) s = .next { s with cmp := c, report := r } := by
  induction n generalizing s with
  | zero => cases h; exact ⟨0, s.report, le_rfl, rfl⟩
  | succ n ih =>
    unfold drain at h
    split at h
    · cases h; exact ⟨0, s.report, Nat.zero_le _, rfl⟩
    · obtain ⟨c1, hstep, hrest⟩ := Step.bind_ok.mp h
      have hexec : exec .csqEncodeStep s = .next (completed s c1) := onCmpCommand_ok hstep
      obtain ⟨k, r, hk, hrun⟩ := ih (s := completed s c1) hrest
      exact ⟨k + 1, r, Nat.succ_le_succ hk, by simp only [List.replicate_succ, runScript, hexec]; exact hrun⟩

/-- R238: with a stream open a close drains the lookahead, flushes and closes. -/
theorem cClose_completes {c : Cmp} (h : Streaming c) :
    ∃ c1 b, drain c.laN c = .ok c1 ∧ c1.laN = 0 ∧ bseFlush c1.bse = .ok b ∧
      cClose c = .ok { c1 with bse := b, cstate := .closed } ∧
      bytesBits b.obuf = acceptedBits c1.bse ++ List.replicate ((8 - c1.bse.nacc) % 8) false := by
  obtain ⟨hopen, hflushed, hsize⟩ := h.opened
  obtain ⟨c1, hdrain, hempty, hflushed1⟩ := drain_ok h.inv hopen hflushed hsize le_rfl
  obtain ⟨b, hflush, -, -, -, hbits⟩ := bseFlush_ok c1.bse (drain_keeps hdrain h.inv).1.bse hflushed1
  refine ⟨c1, b, hdrain, hempty, hflush, ?_, hbits⟩
  rw [cClose, if_neg (not_not.mpr hopen), hdrain, Step.ok_bind, hflush, Step.ok_bind, Step.pure_ok]

/-- Settles O27: the close is the loop, which is a script of encode steps, then the flush and the change of state. -/
theorem closeDrainsAndFlushes : Obligations.CloseDrainsAndFlushes := by
  intro s
  refine ⟨fun hinv hopen => ?_, fun h => onCmpCommand_refused (cClose_refused h)⟩
  obtain ⟨c1, b, hdrain, hempty, hflush, hclose, hbits⟩ := cClose_completes ⟨hinv.cmp, hopen⟩
  obtain ⟨k, r, hk, hrun⟩ := runScript_of_drain hdrain
  exact ⟨k, _, _, hk, hrun, hempty, BitWriter.onBse_ok hflush, onCmpCommand_ok hclose, hbits⟩

/-! ## Open (R236) -/

/-- R191: the header as the first write of a cleared encoder, in whole bytes. -/
theorem emitHeader_cleared {w l : Nat} (hw : Config.legalW w) (hl : Config.legalL l) (b : Bse) :
    emitHeader w l (bseClear b) = .ok { acc := 0, nacc := 0, flushed := false,
                                        obuf := [.ofNat 8 (0x10 + w), .ofNat 8 (0x10 * l)] } := by
  obtain ⟨-, hw15⟩ := hw
  obtain ⟨-, hl8⟩ := hl
  have hvalue : BitWriter.joined (0x1000 + 0x100 * w + 0x10 * l) 16 (bseClear b) = 0x1000 + 0x100 * w + 0x10 * l := by
    have hzero : (bseClear b).acc.toNat = 0 := rfl
    rw [BitWriter.joined, hzero]
    omega
  have hhigh : (0x1000 + 0x100 * w + 0x10 * l) / 256 = 0x10 + w := by omega
  have hlow : BitVec.ofNat 8 (0x1000 + 0x100 * w + 0x10 * l) = .ofNat 8 (0x10 * l) :=
    BitVec.eq_of_toNat_eq (by simp only [BitVec.toNat_ofNat]; omega)
  rw [emitHeader, BitWriter.writeBits_eq_packed (bseClear_inv b) rfl (by decide) (by decide), BitWriter.packed, hvalue]
  simp [bseClear, List.range_succ, hhigh, hlow, Nat.mod_one]

/-- The compressor after an accepted opening of a cleared one (R236). -/
def openedWith (w l : Nat) (c : Cmp) : Cmp :=
  { c with ccfgW := .ofNat 4 w, ccfgL := .ofNat 4 l, cwin := clearWindow c.cwin w, laN := 0, cstate := .opened,
           bse := { acc := 0, nacc := 0, flushed := false, obuf := [.ofNat 8 (0x10 + w), .ofNat 8 (0x10 * l)] } }

theorem cOpen_legal {w l : Nat} {c : Cmp} (hidle : c.cstate = .idle)
    (hbse : c.bse = { acc := 0, nacc := 0, flushed := false, obuf := [] }) (hw : Config.legalW w)
    (hl : Config.legalL l) : cOpen w l c = .ok (openedWith w l c, .done .none) := by
  have hlegal : ¬ (w < 8 ∨ w > 15 ∨ l < 5 ∨ l > 8) := by
    obtain ⟨_, _⟩ := hw
    obtain ⟨_, _⟩ := hl
    omega
  have hheader : emitHeader w l c.bse = .ok (openedWith w l c).bse := hbse ▸ emitHeader_cleared hw hl c.bse
  rw [cOpen, if_neg (not_not.mpr hidle), if_neg hlegal, swdClear_legal _ hw, hheader]
  rfl

theorem cOpen_illegal {w l : Nat} {c : Cmp} (hidle : c.cstate = .idle) (h : w < 8 ∨ 15 < w ∨ l < 5 ∨ 8 < l) :
    cOpen w l c = .ok (failCmp .invalidConfiguration c) := by
  rw [cOpen, if_neg (not_not.mpr hidle)]
  exact if_pos h

/-- Settles O24: the three branches of R236. -/
theorem openWritesTheHeader : Obligations.OpenWritesTheHeader := fun _ w l =>
  ⟨fun hidle hbse h8 h15 h5 hl8 => onCmp_ok (f := cOpen w l) (cOpen_legal hidle hbse ⟨h8, h15⟩ ⟨h5, hl8⟩),
    fun hidle h => onCmp_ok (f := cOpen w l) (cOpen_illegal hidle h),
    fun h => onCmp_refused (f := cOpen w l) (if_pos h)⟩

end Sys2Proof.Proofs.Sequencer
end

section
/-! The compress run (45_match_search_engine.md R239, R241, R291). With a stream open the writes and the close complete
(`writeAndClose_completes`). What they emit is a function of what the rules let a step read, on which two compressors
may agree while their stale cells differ (`Alike`, R36): every command keeps the agreement. -/

namespace Sys2Proof.Proofs.CompressRun

open Sys2Proof Sys2Proof.Machine Sys2Proof.Proofs.Units Sys2Proof.Proofs.Sequencer

/-! ## The run after the opening (R239) -/

/-- One `C.WRITE` per byte, then `C.CLOSE`, on the compressor alone. -/
def writeAndClose : List Byte → Cmp → Step Cmp
  | [], c => cClose c
  | x :: data, c => cWrite x c >>= writeAndClose data

/-- The script of R239 behind `C.OPEN` does this to the compressor. -/
theorem runScript_writeAndClose {data : List Byte} {s : State} {c : Cmp} (h : writeAndClose data s.cmp = .ok c) :
    runScript (data.map .cWrite ++ [.cClose]) s = .next (completed s c) := by
  induction data generalizing s with
  | nil =>
    have hexec : exec .cClose s = .next (completed s c) := onCmpCommand_ok h
    simp only [List.map_nil, List.nil_append, runScript, hexec]
  | cons x data ih =>
    obtain ⟨c1, hwrite, hrest⟩ := Step.bind_ok.mp h
    have hexec : exec (.cWrite x) s = .next (completed s c1) := onCmpCommand_ok hwrite
    simp only [List.map_cons, List.cons_append, runScript, hexec]
    exact ih (s := completed s c1) hrest

/-- R239, R291: with a stream open the run ends in `C_CLOSED`, behind what has been output. -/
theorem writeAndClose_completes (data : List Byte) {c : Cmp} (h : Streaming c) :
    ∃ c', writeAndClose data c = .ok c' ∧ c'.cstate = .closed ∧ c.bse.obuf <+: c'.bse.obuf := by
  induction data generalizing c with
  | nil =>
    obtain ⟨c1, b, -, -, -, hclose, -⟩ := cClose_completes h
    exact ⟨_, hclose, rfl, Frame.cClose_output hclose⟩
  | cons x data ih =>
    obtain ⟨c1, hwrite, hstream⟩ := cWrite_completes x h
    obtain ⟨c', hrest, hclosed, hgrows⟩ := ih hstream
    exact ⟨c', by rw [writeAndClose, hwrite, Step.ok_bind, hrest], hclosed, (Frame.cWrite_output hwrite).trans hgrows⟩

theorem compressResult_closed {s : State} (h : s.cmp.cstate = .closed) :
    compressResult (.next s) = .ok s.cmp.bse.obuf := by simp only [compressResult, h]

/-! ## Opening (R236, R330) -/

/-- R236: a stream is open behind a reset and an accepted opening. -/
theorem streaming_openedWith {w l : Nat} {c : Cmp} (h : c.Inv) (hw : Config.legalW w) (hl : Config.legalL l) :
    Streaming (openedWith w l (resetCmp c)) := by
  have hbits : w = (BitVec.ofNat 4 w).toNat := by
    obtain ⟨-, hw15⟩ := hw
    rw [BitVec.toNat_ofNat]
    omega
  exact ⟨cOpen_inv (cOpen_legal rfl rfl hw hl) (resetCmp_inv h), rfl, rfl, hbits⟩

theorem exec_cReset (s : State) : exec .cReset s = .next (completed s (resetCmp s.cmp)) := rfl

/-- R236, R239: under a supported pair the run goes on with a stream open. -/
theorem runScript_open_legal (s : State) {w l : Nat} (hw : Config.legalW w) (hl : Config.legalL l) :
    runScript [.cReset, .cOpen w l] s = .next (completed s (openedWith w l (resetCmp s.cmp))) := by
  have hexec : exec (.cOpen w l) (completed s (resetCmp s.cmp)) =
      .next (completed s (openedWith w l (resetCmp s.cmp))) :=
    onCmp_ok (f := cOpen w l) (cOpen_legal rfl rfl hw hl)
  simp only [runScript, exec_cReset, hexec]

/-- R239, R291: under a supported pair the result is what the writes and the close leave in `obuf`. -/
theorem compress_legal {s : State} (data : List Byte) {w l : Nat} {c : Cmp} (hw : Config.legalW w)
    (hl : Config.legalL l) (hrun : writeAndClose data (openedWith w l (resetCmp s.cmp)) = .ok c)
    (hclosed : c.cstate = .closed) : compress s data w l = .ok c.bse.obuf := by
  have hopen : ¬ (completed s (openedWith w l (resetCmp s.cmp))).cmp.cstate = .error := nofun
  rw [compress, runScript_open_legal s hw hl]
  show (if _ then _ else compressResult _) = _
  rw [if_neg hopen, runScript_writeAndClose hrun]
  exact compressResult_closed hclosed

/-- R236, R239: under any other pair the run ends where `C.OPEN` raises. -/
theorem compress_illegal (s : State) (data : List Byte) {w l : Nat} (h : ¬ (Config.legalW w ∧ Config.legalL l)) :
    compress s data w l = .err .invalidConfiguration := by
  have hexec : exec (.cOpen w l) (completed s (resetCmp s.cmp)) = .next { s with
      cmp := (failCmp .invalidConfiguration (resetCmp s.cmp)).1, report := .error .invalidConfiguration } :=
    onCmp_ok (f := cOpen w l) (cOpen_illegal rfl (by simp only [Config.legalW, Config.legalL] at h; omega))
  simp only [compress, runScript, exec_cReset, hexec, failCmp_cstate, if_true, compressResult, failCmp_cerr]

/-- Settles O56: the run completes from the opened compressor, whose `obuf` is the header. -/
theorem compressAlwaysEnds : Obligations.CompressAlwaysEnds := by
  intro s data w l hinv
  refine ⟨fun hw hl => ?_, compress_illegal s data⟩
  obtain ⟨c, hrun, hclosed, hgrows⟩ := writeAndClose_completes data (streaming_openedWith hinv.cmp hw hl)
  exact ⟨c.bse.obuf, compress_legal data hw hl hrun hclosed, hgrows⟩

/-! ## What a run may depend on (R241, R36) -/

/-- Two compressors that agree on all a command reads of an open stream: not on the cells outside the history, nor on
the lookahead cells from `la_n` on. -/
structure Alike (a b : Cmp) : Prop where
  bse : a.bse = b.bse
  cwin : windowsAgree a.cwin b.cwin
  ccfgW : a.ccfgW = b.ccfgW
  ccfgL : a.ccfgL = b.ccfgL
  laN : a.laN = b.laN
  ahead : a.la.take a.laN = b.la.take b.laN

/-- R236, R330: the reset and the opening leave nothing of the past that a command reads. -/
theorem alike_openedWith (w l : Nat) (a b : Cmp) :
    Alike (openedWith w l (resetCmp a)) (openedWith w l (resetCmp b)) where
  bse := rfl
  cwin := ⟨rfl, rfl, rfl, fun _ h1 h2 => absurd (h1.trans h2) (Nat.not_succ_le_zero 0)⟩
  ccfgW := rfl
  ccfgL := rfl
  laN := rfl
  ahead := rfl

/-! ## The search (R231, R232) -/

theorem agree_congr {a b : Window} {n : Nat} (h : ∀ d, 1 ≤ d → d ≤ n → hist a d = hist b d) (x : List Byte) {d : Nat}
    (hd : d ≤ n) : agree a x d = agree b x d := by
  induction x generalizing d with
  | nil => rfl
  | cons y x ih =>
    cases d with
    | zero => rfl
    | succ d => simp only [agree, readHist, h (d + 1) (Nat.succ_pos d) hd, ih (Nat.le_of_succ_le hd)]

theorem searchTo_congr {a b : Window} {n : Nat} (h : ∀ d, 1 ≤ d → d ≤ n → hist a d = hist b d) (x : List Byte) {d : Nat}
    (hd : d ≤ n) : searchTo a x d = searchTo b x d := by
  induction d with
  | zero => rfl
  | succ d ih => simp only [searchTo, ih (Nat.le_of_succ_le hd), agree_congr h x hd]

/-- The bytes the search looks for stand before `la_n`. -/
theorem lookahead_eq_take (c : Cmp) : lookahead c = (c.la.take c.laN).take Config.maxMatch := by
  rw [lookahead, List.take_take, Nat.min_comm]

theorem search_congr {a b : Cmp} (h : Alike a b) : search a = search b := by
  obtain ⟨-, -, hfill, hhist⟩ := h.cwin
  have hx : lookahead a = lookahead b := by rw [lookahead_eq_take, lookahead_eq_take, h.ahead]
  rw [search, search, hx, ← hfill]
  exact searchTo_congr hhist _ le_rfl

/-! ## The encode step (R235) -/

/-- What is before `la_n` after a step was behind the encoded bytes before it. -/
theorem take_dropEncoded {c : Cmp} {m : Nat} (hn : c.laN ≤ c.la.length) :
    (dropEncoded m c).la.take (dropEncoded m c).laN = (c.la.take c.laN).drop m := by
  have hlen : ((c.la.drop m).take (c.laN - m)).length = c.laN - m := by
    rw [List.length_take, List.length_drop]
    omega
  rw [dropEncoded_la, dropEncoded_laN, List.take_left' hlen, List.drop_take]

/-- R235: the lookahead after a step is the lookahead before it without the encoded bytes. -/
theorem take_of_encodeDone {c c' : Cmp} {len dist : Nat} (hc : Encoding c) (h : EncodeDone c c' len dist) :
    c'.la.take c'.laN = (c.la.take c.laN).drop (encodedBytes len) := by
  rw [eq_dropEncoded h]
  exact take_dropEncoded (hc.busy.cells ▸ hc.busy.full)

section
variable {a b a' b' : Cmp}

/-- Alike compressors have the same front of the lookahead. -/
theorem Alike.take_eq {m : Nat} (h : Alike a b) (hm : m ≤ a.laN) : a.la.take m = b.la.take m := calc
  a.la.take m = (a.la.take a.laN).take m := by rw [List.take_take, Nat.min_eq_left hm]
  _ = (b.la.take b.laN).take m := by rw [h.ahead]
  _ = b.la.take m := by rw [List.take_take, Nat.min_eq_left (h.laN ▸ hm)]

/-- Alike compressors emit the same token for the same answer of the search. -/
theorem Alike.stepBits_eq {len dist : Nat} (h : Alike a b) (h1 : 1 ≤ a.laN) :
    stepBits a len dist = stepBits b len dist := by
  have hfront (t : List Byte) : t.getD 0 0 = (t.take 1).getD 0 0 := by cases t <;> rfl
  rw [stepBits, stepBits, hfront, h.take_eq h1, ← hfront, h.ccfgL, h.ccfgW]

/-- R241: alike compressors take the same step and stay alike. -/
theorem encodeStep_alike (h : Alike a b) (ha : Encoding a) (hb : Encoding b) (sa : encodeStep a = .ok a')
    (sb : encodeStep b = .ok b') : Alike a' b' := by
  obtain ⟨-, len, dist, da⟩ := encodeStep_done ha sa
  obtain ⟨-, len', dist', db⟩ := encodeStep_done hb sb
  cases da.found.symm.trans ((search_congr h).trans db.found)
  obtain ⟨_, _, hinv⟩ := encodeStep_inv sa
  have hbytes : stepBytes a len = stepBytes b len := by
    rw [stepBytes_eq_take da, stepBytes_eq_take db, h.take_eq (encodedBytes_le_laN da)]
  constructor
  case bse =>
    exact acceptedBits_inj da.wrote.inv db.wrote.inv (da.wrote.open'.trans db.wrote.open'.symm)
      (by rw [da.wrote.bits, db.wrote.bits, h.bse, h.stepBits_eq hinv.some])
  case cwin =>
    rw [Lockstep.cwin_of_encodeDone da, Lockstep.cwin_of_encodeDone db, hbytes]
    exact Lockstep.windowsAgree_pushAll _ ha.busy.cwin hb.busy.cwin h.cwin
  case ccfgW => rw [(encodeStep_config sa).1, (encodeStep_config sb).1, h.ccfgW]
  case ccfgL => rw [(encodeStep_config sa).2, (encodeStep_config sb).2, h.ccfgL]
  case laN => rw [laN_of_encodeDone da, laN_of_encodeDone db, h.laN]
  case ahead => rw [take_of_encodeDone ha da, take_of_encodeDone hb db, h.ahead]

/-! ## The commands (R237, R238) -/

theorem drain_alike {n : Nat} (h : Alike a b) (ha : Streaming a) (hb : Streaming b) (da : drain n a = .ok a')
    (db : drain n b = .ok b') : Alike a' b' := by
  induction n generalizing a b with
  | zero => cases da; cases db; exact h
  | succ n ih =>
    unfold drain at da db
    rw [← h.laN] at db
    split at da
    · rename_i h0
      rw [if_pos h0] at db
      cases da; cases db; exact h
    · rename_i h0
      rw [if_neg h0] at db
      obtain ⟨a1, ea, da⟩ := Step.bind_ok.mp da
      obtain ⟨b1, eb, db⟩ := Step.bind_ok.mp db
      exact ih (encodeStep_alike h ha.encoding hb.encoding ea eb) (encodeStep_done ha.encoding ea).1
        (encodeStep_done hb.encoding eb).1 da db

/-- What is before `la_n` after a byte has joined. -/
theorem take_acceptByte {c : Cmp} (x : Byte) (h : Streaming c) :
    (acceptByte x c).la.take (acceptByte x c).laN = c.la.take c.laN ++ [x] := by
  have hroom : c.laN < c.la.length := h.inv.cells ▸ h.inv.ahead
  rw [acceptByte_la, acceptByte_laN, List.take_add_one, List.take_set_of_le le_rfl, List.getElem?_set_self hroom]
  rfl

theorem acceptByte_alike (x : Byte) (h : Alike a b) (ha : Streaming a) (hb : Streaming b) :
    Alike (acceptByte x a) (acceptByte x b) :=
  ⟨h.bse, h.cwin, h.ccfgW, h.ccfgL, congrArg (· + 1) h.laN, by rw [take_acceptByte x ha, take_acceptByte x hb, h.ahead]⟩

theorem cWrite_alike {x : Byte} (h : Alike a b) (ha : Streaming a) (hb : Streaming b) (wa : cWrite x a = .ok a')
    (wb : cWrite x b = .ok b') : Alike a' b' := by
  have haccept := acceptByte_alike x h ha hb
  by_cases h17 : a.laN + 1 = 17
  · rw [cWrite_full x ha.opened.1 h17] at wa
    rw [cWrite_full x hb.opened.1 (h.laN ▸ h17)] at wb
    exact encodeStep_alike haccept (ha.accept x) (hb.accept x) wa wb
  · rw [cWrite_room x ha.opened.1 h17] at wa
    rw [cWrite_room x hb.opened.1 (h.laN ▸ h17)] at wb
    cases wa; cases wb; exact haccept

/-- R238: the flush that ends the run writes what the same encoder holds. -/
theorem cClose_alike (h : Alike a b) (ha : Streaming a) (hb : Streaming b) (ca : cClose a = .ok a')
    (cb : cClose b = .ok b') : a'.bse = b'.bse := by
  obtain ⟨-, a1, da, fa, -⟩ := cClose_cases ca
  obtain ⟨-, b1, db, fb, -⟩ := cClose_cases cb
  rw [← h.laN] at db
  rw [(drain_alike h ha hb da db).bse] at fa
  exact Except.ok.inj (fa.symm.trans fb)

theorem writeAndClose_alike {data : List Byte} (h : Alike a b) (ha : Streaming a) (hb : Streaming b)
    (ra : writeAndClose data a = .ok a') (rb : writeAndClose data b = .ok b') : a'.bse = b'.bse := by
  induction data generalizing a b with
  | nil => exact cClose_alike h ha hb ra rb
  | cons x data ih =>
    obtain ⟨a1, wa, ra⟩ := Step.bind_ok.mp ra
    obtain ⟨b1, wb, rb⟩ := Step.bind_ok.mp rb
    exact ih (cWrite_alike h ha hb wa wb) (cWrite_streaming ha wa) (cWrite_streaming hb wb) ra rb

end

/-- Settles O59: both runs complete from alike compressors, so their encoders end the same; an illegal pair raises from
every state. -/
theorem compressIgnoresThePast : Obligations.CompressIgnoresThePast := by
  intro s r data w l hs hr
  by_cases hlegal : Config.legalW w ∧ Config.legalL l
  · obtain ⟨hw, hl⟩ := hlegal
    have hstream := streaming_openedWith hs.cmp hw hl
    have hstream' := streaming_openedWith hr.cmp hw hl
    obtain ⟨c, hrun, hclosed, -⟩ := writeAndClose_completes data hstream
    obtain ⟨c', hrun', hclosed', -⟩ := writeAndClose_completes data hstream'
    rw [compress_legal data hw hl hrun hclosed, compress_legal data hw hl hrun' hclosed',
      writeAndClose_alike (alike_openedWith w l s.cmp r.cmp) hstream hstream' hrun hrun']
  · rw [compress_illegal s data hlegal, compress_illegal r data hlegal]

end Sys2Proof.Proofs.CompressRun
end

section
/-! The decompressor_state_machine (46_decompressor_state_machine.md R262 to R268, R273). What one `D.STEP` does is said
once, as the relation `Transition`: each of its cases is what the step answers (`Transition.dStep_eq`), and under the
invariant there is always one (`exists_transition`). -/

namespace Sys2Proof.Proofs.StateMachine

open Sys2Proof Sys2Proof.Machine Sys2Proof.Proofs.Lockstep

/-! ## What a step does -/

/-- The decompressor with `k` bits consumed. -/
def skipped (k : Nat) (d : Dmp) : Dmp := { d with bsd := { d.bsd with rpos := d.bsd.rpos + k } }

/-- R262: the next decompressor and the report of one `D.STEP`, told by `dstate`, the unread bits and the latch. -/
inductive Transition (d : Dmp) : Dmp × Report → Prop
  | shortHeader (hs : d.dstate = .readingHeader) (h : parseHeader d.bsd = .needMore) :
      Transition d (needMore d)
  | corruptHeader (hs : d.dstate = .readingHeader) (h : parseHeader d.bsd = .corrupt) :
      Transition d (failDmp .corruptHeader (skipped 16 d))
  | header {w l : Nibble} (hs : d.dstate = .readingHeader) (h : parseHeader d.bsd = .header w l) :
      Transition d ({ skipped 16 d with
        dcfgW := w, dcfgL := l, dwin := clearWindow d.dwin w.toNat, dstate := .readingToken }, .done .none)
  | padding (hs : d.dstate = .readingToken) (h : tailIsPad d.bsd = true) :
      Transition d ({ skipped (avail d.bsd) d with dstate := .done }, .done .none)
  | shortToken (hs : d.dstate = .readingToken) (hp : tailIsPad d.bsd = false) (hh : headerParsed d = true)
      (h : parseToken d.dcfgW.toNat d.dcfgL.toNat d.bsd = .needMore) : Transition d (needMore d)
  | literal {x : Byte} {k : Nat} (hs : d.dstate = .readingToken) (hp : tailIsPad d.bsd = false)
      (hh : headerParsed d = true) (h : parseToken d.dcfgW.toNat d.dcfgL.toNat d.bsd = .literal x k) :
      Transition d ({ skipped k d with tokKind := true, tokByte := x, dstate := .appendingLiteral }, .done .none)
  | matched {dist : Half} {len : Five} {k : Nat} (hs : d.dstate = .readingToken) (hp : tailIsPad d.bsd = false)
      (hh : headerParsed d = true) (h : parseToken d.dcfgW.toNat d.dcfgL.toNat d.bsd = .matched dist len k) :
      Transition d ({ skipped k d with
        tokKind := false, tokDist := dist, tokLen := len, dstate := .copyingMatch }, .done .none)
  | appended (hs : d.dstate = .appendingLiteral) : Transition d (appendLiteral d, .done .none)
  | copied {bs : List Byte} (hs : d.dstate = .copyingMatch)
      (h : swdCopy d.dwin d.tokDist.toNat d.tokLen.toNat = .ok (some (pushAll d.dwin bs, bs))) :
      Transition d ({ d with dwin := pushAll d.dwin bs, rout := d.rout ++ bs, dstate := .readingToken }, .done .none)
  | beyondHistory (hs : d.dstate = .copyingMatch)
      (h : swdCopy d.dwin d.tokDist.toNat d.tokLen.toNat = .ok none) : Transition d (failDmp .invalidDistance d)
  | ended (hs : d.dstate = .done ∨ d.dstate = .error) : Transition d (d, .noStep)

theorem headerParsed_iff {d : Dmp} :
    headerParsed d = true ↔ Config.legalW d.dcfgW.toNat ∧ Config.legalL d.dcfgL.toNat := by
  simp [headerParsed]

/-- R211: a header that is legal or not is all there. -/
theorem avail_of_parsed {b : Bsd} (h : parseHeader b ≠ .needMore) : 16 ≤ avail b :=
  Nat.not_lt.mp fun hlt => h (TokenInterpreter.parseHeader_needMore hlt)

/-- R212: what a match token takes is there, and not nothing. -/
theorem width_of_matched {d : Dmp} {dist : Half} {len : Five} {k : Nat} (hh : headerParsed d = true)
    (h : parseToken d.dcfgW.toNat d.dcfgL.toNat d.bsd = .matched dist len k) : 1 ≤ k ∧ k ≤ avail d.bsd := by
  obtain ⟨hk1, hk, -⟩ := parseToken_matched (headerParsed_iff.mp hh).1.2 h
  exact ⟨hk1, hk⟩

/-- R262: `D.STEP` answers what the relation says. -/
theorem Transition.dStep_eq {d : Dmp} {p : Dmp × Report} (h : Transition d p) : dStep d = .ok p := by
  cases h with
  | shortHeader hs h => simp only [dStep, hs, stepHeader, h]
  | corruptHeader hs h =>
    simp only [dStep, hs, stepHeader, h]
    exact Elements.takeCorruptHeader_eq (avail_of_parsed (by simp [h]))
  | header hs h =>
    simp only [dStep, hs, stepHeader, h]
    exact Elements.takeHeader_eq (avail_of_parsed (by simp [h])) (parseHeader_header h).2.1
  | padding hs h =>
    simp only [dStep, hs, stepToken, h, if_true]
    exact Elements.takePad_eq d
  | shortToken hs hp hh h =>
    simp only [dStep, hs, stepToken, hp, hh, h, not_true, Bool.false_eq_true, if_false]
  | literal hs hp hh h => exact dStep_literal hs hp hh h
  | matched hs hp hh h => exact dStep_matched hs hp hh (width_of_matched hh h).2 h
  | appended hs => simp only [dStep, hs]
  | copied hs h => exact dStep_copied hs h
  | beyondHistory hs h => exact Elements.dStep_beyondHistory hs h
  | ended hs => rcases hs with hs | hs <;> simp only [dStep, hs]

/-- R262, R304: under the invariant no step is refused. -/
theorem exists_transition {d : Dmp} (hi : d.Inv) : ∃ p, Transition d p := by
  cases hs : d.dstate with
  | readingHeader =>
    cases h : parseHeader d.bsd with
    | needMore => exact ⟨_, .shortHeader hs h⟩
    | corrupt => exact ⟨_, .corruptHeader hs h⟩
    | header w l => exact ⟨_, .header hs h⟩
  | readingToken =>
    have hh := headerParsed_iff.mpr (hi.parsed (.inl hs))
    cases hp : tailIsPad d.bsd with
    | true => exact ⟨_, .padding hs hp⟩
    | false =>
      cases h : parseToken d.dcfgW.toNat d.dcfgL.toNat d.bsd with
      | needMore => exact ⟨_, .shortToken hs hp hh h⟩
      | literal x k => exact ⟨_, .literal hs hp hh h⟩
      | matched dist len k => exact ⟨_, .matched hs hp hh h⟩
  | appendingLiteral => exact ⟨_, .appended hs⟩
  | copyingMatch =>
    obtain ⟨-, hd1, -⟩ := hi.latched hs
    by_cases hd : d.tokDist.toNat ≤ d.dwin.fill
    · obtain ⟨bs, h, -⟩ := swdCopy_ok hi.dwin hd1 hd
      exact ⟨_, .copied hs h⟩
    · exact ⟨_, .beyondHistory hs (swdCopy_raises hd1 (.inl (Nat.not_le.mp hd)))⟩
  | done => exact ⟨_, .ended (.inl hs)⟩
  | error => exact ⟨_, .ended (.inr hs)⟩

/-- R262: under the invariant `D.STEP` did what the relation says. -/
theorem transition_of_dStep {d : Dmp} {p : Dmp × Report} (hi : d.Inv) (h : dStep d = .ok p) : Transition d p := by
  obtain ⟨q, hq⟩ := exists_transition hi
  cases hq.dStep_eq.symm.trans h
  exact hq

theorem exec_dStep_of_transition {s : State} {d : Dmp} {r : Report} (h : Transition s.dmp (d, r)) :
    exec .dStep s = .next { s with dmp := d, report := r } := onDmp_ok (f := dStep) h.dStep_eq

/-- The same of the whole state. -/
theorem transition_of_exec {s t : State} (hs : s.Inv) (h : exec .dStep s = .next t) :
    ∃ d r, Transition s.dmp (d, r) ∧ t = { s with dmp := d, report := r } := by
  obtain ⟨d, r, hd, rfl⟩ := (onDmp_next (f := dStep)).mp h
  exact ⟨d, r, transition_of_dStep hs.dmp hd, rfl⟩

/-! ## The statements about one step -/

theorem needMore_open {d : Dmp} (h : d.bsd.eof = false) : needMore d = (d, .hold) := if_neg (by simp [h])

theorem needMore_ended {d : Dmp} (h : d.bsd.eof = true) : needMore d = failDmp .truncatedStream d := if_pos h

/-- R263, R264, R294: a step without a whole element waits, or fails where the input has ended. -/
theorem exec_dStep_of_needMore {s : State} (h : Transition s.dmp (needMore s.dmp)) :
    exec .dStep s =
      if s.dmp.bsd.eof = true then .next (dmpFailed s .truncatedStream) else .next { s with report := .hold } := by
  split
  · rename_i heof
    rw [needMore_ended heof] at h
    exact exec_dStep_of_transition h
  · rename_i heof
    rw [needMore_open (by simpa using heof)] at h
    exact exec_dStep_of_transition h

/-- Settles O28: the header is short, or its fields decide between the two other cases. -/
theorem stepReadsTheHeader : Obligations.StepReadsTheHeader := by
  intro s hs
  have hshort (h : avail s.dmp.bsd < 16) :=
    exec_dStep_of_needMore (.shortHeader hs (TokenInterpreter.parseHeader_needMore h))
  refine ⟨fun h heof => by simp [hshort h, heof], fun h heof => by simp [hshort h, heof],
    fun v w l k r rest hb => ⟨fun hillegal => ?_, fun hlegal => ?_⟩⟩
  · exact exec_dStep_of_transition (.corruptHeader hs (by simp [parseHeader_of_pending hb, hillegal]))
  · exact exec_dStep_of_transition (.header hs (by simp [parseHeader_of_pending hb, hlegal]))

/-- Settles O29: the padding test, then the answer of the query, picks the transition. -/
theorem stepReadsAToken : Obligations.StepReadsAToken := by
  intro s hs hw hl
  have hh : headerParsed s.dmp = true := headerParsed_iff.mpr ⟨hw, hl⟩
  simp only [TokenInterpreter.exec_tinParseToken_iff hw hl]
  exact ⟨fun hp => exec_dStep_of_transition (.padding hs hp), fun hp =>
    ⟨fun _ _ h => exec_dStep_of_transition (.literal hs hp hh h),
      fun _ _ _ h => exec_dStep_of_transition (.matched hs hp hh h),
      fun h => exec_dStep_of_needMore (.shortToken hs hp hh h)⟩⟩

/-- Settles O30: the latch decides what is appended; a latched distance is at least 1, so no copy is refused. -/
theorem stepCarriesOutTheLatch : Obligations.StepCarriesOutTheLatch := by
  intro s
  refine ⟨fun hs => exec_dStep_of_transition (.appended hs), fun hs hinv hin => ?_, fun hs hinv hout => ?_,
    fun hs => exec_dStep_of_transition (.ended hs)⟩
  · obtain ⟨-, hd1, -⟩ := hinv.dmp.latched hs
    obtain ⟨bs, hcopy, hbs, hbyte⟩ := swdCopy_ok (n := s.dmp.tokLen.toNat) hinv.dmp.dwin hd1 hin
    exact ⟨bs, ⟨hbs, hbyte⟩, exec_dStep_of_transition (.copied hs hcopy)⟩
  · obtain ⟨-, hd1, -⟩ := hinv.dmp.latched hs
    exact exec_dStep_of_transition (.beyondHistory hs (swdCopy_raises hd1 (.inl hout)))

/-! ## Feeding (R261, R273) -/

/-- The decompressor with a byte more of input. -/
def fed (x : Byte) (d : Dmp) : Dmp := { d with bsd := { d.bsd with ibuf := d.bsd.ibuf ++ [x] } }

theorem exec_dFeed_of_open {s : State} (x : Byte) (h : s.dmp.bsd.eof = false) :
    exec (.dFeed x) s = .next { s with dmp := fed x s.dmp, report := .done .none } :=
  BitReader.onBsdCommand_ok (BitReader.bsdFeed_open h)

theorem exec_dFeed_next {s t : State} {x : Byte} (h : exec (.dFeed x) s = .next t) :
    s.dmp.bsd.eof = false ∧ t = { s with dmp := fed x s.dmp, report := .done .none } := by
  cases heof : s.dmp.bsd.eof with
  | false =>
    cases (exec_dFeed_of_open x heof).symm.trans h
    exact ⟨rfl, rfl⟩
  | true =>
    have hrefused : exec (.dFeed x) s = .refused .inputAlreadyEnded :=
      BitReader.onBsdCommand_refused (BitReader.bsdFeed_ended heof)
    cases hrefused.symm.trans h

/-- R157: before the end of the input nothing is padding. -/
theorem tailIsPad_open {b : Bsd} (h : b.eof = false) : tailIsPad b = false := by simp [tailIsPad, h]

/-- R213 (b), R273: a byte fed at the end changes no step that does not wait for it. -/
theorem Transition.feed {d : Dmp} {p : Dmp × Report} (x : Byte) (h : Transition d p) (heof : d.bsd.eof = false)
    (hcursor : d.bsd.rpos ≤ 8 * d.bsd.ibuf.length) (hhold : p.2 ≠ .hold) : Transition (fed x d) (fed x p.1, p.2) := by
  have hopen : tailIsPad (fed x d).bsd = false := tailIsPad_open heof
  have hwait : (needMore d).2 = .hold := by rw [needMore_open heof]
  have header {a : HeaderAnswer} (hp : parseHeader d.bsd = a) (ha : a ≠ .needMore) : parseHeader (fed x d).bsd = a :=
    (parseHeader_feed x hcursor (hp ▸ ha)).trans hp
  have token {a : TokenAnswer} (hp : parseToken d.dcfgW.toNat d.dcfgL.toNat d.bsd = a) (ha : a ≠ .needMore) :
      parseToken (fed x d).dcfgW.toNat (fed x d).dcfgL.toNat (fed x d).bsd = a :=
    (parseToken_feed x hcursor (hp ▸ ha)).trans hp
  cases h with
  | shortHeader => exact absurd hwait hhold
  | corruptHeader hs h => exact .corruptHeader hs (header h nofun)
  | header hs h => exact .header hs (header h nofun)
  | padding hs h => rw [tailIsPad_open heof] at h; cases h
  | shortToken => exact absurd hwait hhold
  | literal hs hp hh h => exact .literal hs hopen hh (token h nofun)
  | matched hs hp hh h => exact .matched hs hopen hh (token h nofun)
  | appended hs => exact .appended hs
  | copied hs h => exact .copied hs h
  | beyondHistory hs h => exact .beyondHistory hs h
  | ended hs => exact .ended hs

/-- R269: a step does not end the input. -/
theorem Transition.eof_eq {d : Dmp} {p : Dmp × Report} (h : Transition d p) : p.1.bsd.eof = d.bsd.eof := by
  have hneed : (needMore d).1.bsd.eof = d.bsd.eof := by
    unfold needMore
    split <;> rfl
  cases h with
  | shortHeader => exact hneed
  | shortToken => exact hneed
  | _ => rfl

/-- Settles O31: the step is the same transition before and after the feed. -/
theorem feedingCommutesWithSteps : Obligations.FeedingCommutesWithSteps := by
  intro s t u x hinv hstep hhold hfeed
  obtain ⟨d, r, htrans, rfl⟩ := transition_of_exec hinv hstep
  obtain ⟨heof, rfl⟩ := exec_dFeed_next hfeed
  exact ⟨_, _, exec_dStep_of_transition (htrans.feed x heof hinv.dmp.cursor hhold),
    exec_dFeed_of_open x (htrans.eof_eq.trans heof), rfl, rfl⟩

end Sys2Proof.Proofs.StateMachine
end

section
/-! The stream element at the read cursor (46_decompressor_state_machine.md R262 to R266, 30_encoding.md R99, R100). What
`fetchElement` answers and what a step of the decompressor does are both told by the unread bits, so the element fetched is
the one `D.STEP` reads. -/

namespace Sys2Proof.Proofs.AtCursor

open Sys2Proof Sys2Proof.Machine Sys2Proof.Proofs.Lockstep Sys2Proof.Proofs.StateMachine

/-! ## What the fetch answers -/

/-- The fetch sees an element of at most 20 bits with some of the bits behind it. -/
theorem unread_of_pending {b : Bsd} {bits rest : List Bool} (h : pendingBits b = bits ++ rest)
    (hlen : bits.length ≤ maxElementBits) : unread b = bits ++ rest.take (maxElementBits - bits.length) := by
  rw [unread_eq, h, List.take_append, List.take_of_length_le hlen]

/-- What the fetch sees stands at the front of the unread bits. -/
theorem pending_of_unread {b : Bsd} {bits rest : List Bool} (h : unread b = bits ++ rest) :
    ∃ rest', pendingBits b = bits ++ rest' :=
  ⟨rest ++ (pendingBits b).drop maxElementBits, by
    rw [← List.append_assoc, ← h, unread_eq, List.take_append_drop]⟩

/-- R98: the longest token is the match of 20 bits. -/
theorem length_of_tokenForm {w l : Nat} {bits : List Bool} {i : Instr} (hw : Config.legalW w) (hl : Config.legalL l)
    (h : TokenForm w l bits [] i) : bits.length ≤ maxElementBits := by
  obtain ⟨-, hw15⟩ := hw
  obtain ⟨-, hl8⟩ := hl
  unfold maxElementBits
  cases h with
  | short c lt plain is hb => rw [hb]; simp [literalBitsOf]; omega
  | escaped x lt is hb => rw [hb]; simp [escapeBitsOf]; omega
  | matched d n lt is hb => rw [hb]; simp [matchBitsOf, Config.lenBits]; omega

theorem fetchElement_header {d : Dmp} {v w l : Nibble} {k : BitVec 1} {r : BitVec 3} {rest : List Bool}
    (hs : d.dstate = .readingHeader) (h : pendingBits d.bsd = headerBitsOf v w l k r ++ rest) :
    fetchElement d = some (.hdr v w l k r) := by
  have hunread := unread_of_pending h (by simp [headerBitsOf_length, Config.headerBits, maxElementBits])
  simp only [fetchElement, hs, hunread, decodeHeader_headerBitsOf]
  rfl

theorem fetchElement_token {d : Dmp} {i : Instr} {bits rest : List Bool} (hs : d.dstate = .readingToken)
    (hp : tailIsPad d.bsd = false) (hw : Config.legalW d.dcfgW.toNat) (hl : Config.legalL d.dcfgL.toNat)
    (hi : i.wellFormed = true) (hv : i.validUnder d.dcfgW.toNat d.dcfgL.toNat = true) (he : encode i = .token bits)
    (h : pendingBits d.bsd = bits ++ rest) : fetchElement d = some i := by
  have hdecode (t : List Bool) := (Encoding.streamDecodesWhatItEncodes i hi).2.1 bits t _ _ he hw hl hv
  obtain ⟨-, -, hform⟩ := decodeToken_form (hdecode [])
  have hunread := unread_of_pending h (length_of_tokenForm hw hl (by simpa using hform))
  simp only [fetchElement, hs, hp, hunread, hdecode]
  rfl

/-- R157: the unread bits are zeros, at most 7 of them. -/
theorem pendingBits_of_tailIsPad {b : Bsd} (h : tailIsPad b = true) :
    avail b ≤ 7 ∧ (pendingBits b).all (! ·) = true := by
  simp only [tailIsPad, Bool.and_eq_true, decide_eq_true_eq, beq_iff_eq] at h
  obtain ⟨⟨-, hk⟩, hzero⟩ := h
  rw [peekBits_eq b _ 0 (Nat.zero_add _).le, List.drop_zero, ← pendingBits_length, List.take_length,
    valueOf_eq_zero] at hzero
  exact ⟨hk, hzero⟩

theorem fetchElement_padding {d : Dmp} (hs : d.dstate = .readingToken) (hp : tailIsPad d.bsd = true) :
    fetchElement d = some (.pad (avail d.bsd)) := by
  obtain ⟨hk, hzero⟩ := pendingBits_of_tailIsPad hp
  have hlen := pendingBits_length d.bsd
  have hunread : unread d.bsd = pendingBits d.bsd := by
    rw [unread_eq, List.take_of_length_le (by simp only [maxElementBits]; omega)]
  simp only [fetchElement, hs, hp, hunread, decodeTail, hlen, hk, hzero, and_self, if_true]
  rfl

/-! ## What a step of the machine runs -/

theorem step_of_fetched {s : State} {i : Instr} (hin : s.inbox = []) (h : fetchElement s.dmp = some i) :
    step s = exec i s := by simp only [step, hin, h]

theorem step_of_nothing {s : State} (hin : s.inbox = []) (h : fetchElement s.dmp = none) :
    step s = exec .dStep s := by simp only [step, hin, h]

/-- Settles O45: the fetch decodes the bits at the cursor, and decoding inverts the encoding. -/
theorem stepRunsTheElementAtTheCursor : Obligations.StepRunsTheElementAtTheCursor := by
  intro s hin
  exact ⟨fun _ _ _ _ _ _ hs h => step_of_fetched hin (fetchElement_header hs h),
    fun _ _ _ hs hp hw hl hi hv he h => step_of_fetched hin (fetchElement_token hs hp hw hl hi hv he h),
    fun hs hp => step_of_fetched hin (fetchElement_padding hs hp), step_of_nothing hin⟩

/-! ## The element fetched -/

/-- R91: the five fields of a value, in order, are its 16 bits. -/
theorem headerBitsOf_fields (h : Nat) :
    headerBitsOf (.ofNat 4 (h / 0x1000)) (.ofNat 4 (h / 0x100)) (.ofNat 4 (h / 0x10)) (.ofNat 1 (h / 8)) (.ofNat 3 h) =
      bitsOf 16 h := by
  simp only [headerBitsOf, BitVec.toNat_ofNat, bitsOf_mod _ _ _ le_rfl]
  rw [show 16 = 4 + (4 + (4 + (1 + 3))) from rfl]
  simp only [bitsOf_append]
  rfl

/-- R91: a header decoded is the header its bits spell. -/
theorem decodeHeader_form {bits rest : List Bool} {i : Instr} (h : decodeHeader bits = .ok (i, rest)) :
    ∃ v w l k r, i = .hdr v w l k r ∧ bits = headerBitsOf v w l k r ++ rest := by
  unfold decodeHeader at h
  split at h
  · cases h
  · rename_i hlen
    cases h
    have hfront : bits.take Config.headerBits = bitsOf 16 _ := take_eq_bitsOf (Nat.not_lt.mp hlen)
    refine ⟨_, _, _, _, _, rfl, ?_⟩
    rw [headerBitsOf_fields, ← hfront, List.take_append_drop]

/-- What the fetch may have found, with the state it was found in. -/
inductive Fetched (d : Dmp) (i : Instr) : Prop
  | header {v w l : Nibble} {k : BitVec 1} {r : BitVec 3} {rest : List Bool} (hs : d.dstate = .readingHeader)
      (is : i = .hdr v w l k r) (h : pendingBits d.bsd = headerBitsOf v w l k r ++ rest)
  | padding (hs : d.dstate = .readingToken) (hp : tailIsPad d.bsd = true) (is : i = .pad (avail d.bsd))
  | token {rest : List Bool} (hs : d.dstate = .readingToken) (hp : tailIsPad d.bsd = false)
      (hw : Config.legalW d.dcfgW.toNat) (hl : Config.legalL d.dcfgL.toNat)
      (h : TokenForm d.dcfgW.toNat d.dcfgL.toNat (pendingBits d.bsd) rest i)

/-- A form does not depend on the bits behind it. -/
theorem tokenForm_behind {w l : Nat} {bits rest t : List Bool} {i : Instr} (h : TokenForm w l bits rest i) :
    TokenForm w l (bits ++ t) (rest ++ t) i := by
  cases h with
  | short c lt plain is hb => exact .short c lt plain is (by rw [hb, List.append_assoc])
  | escaped x lt is hb => exact .escaped x lt is (by rw [hb, List.append_assoc])
  | matched d n lt is hb => exact .matched d n lt is (by rw [hb, List.append_assoc])

theorem toOption_map_eq_some {α β ε : Type} {x : Except ε (α × β)} {a : α} (h : x.toOption.map Prod.fst = some a) :
    ∃ b, x = .ok (a, b) := by
  cases x with
  | error e => cases h
  | ok p => cases h; exact ⟨p.2, rfl⟩

theorem fetched_of_fetchElement {d : Dmp} {i : Instr} (h : fetchElement d = some i) : Fetched d i := by
  cases hs : d.dstate with
  | readingHeader =>
    simp only [fetchElement, hs] at h
    obtain ⟨rest, hdecode⟩ := toOption_map_eq_some h
    obtain ⟨v, w, l, k, r, is, hbits⟩ := decodeHeader_form hdecode
    obtain ⟨rest', hpending⟩ := pending_of_unread hbits
    exact .header hs is hpending
  | readingToken =>
    cases hp : tailIsPad d.bsd with
    | true => exact .padding hs hp (Option.some.inj (h.symm.trans (fetchElement_padding hs hp)))
    | false =>
      simp only [fetchElement, hs, hp] at h
      obtain ⟨rest, hdecode⟩ := toOption_map_eq_some h
      obtain ⟨hw, hl, hform⟩ := decodeToken_form hdecode
      rw [unread_eq] at hform
      have hform := tokenForm_behind (t := (pendingBits d.bsd).drop maxElementBits) hform
      rw [List.take_append_drop] at hform
      exact .token hs hp hw hl hform
  | _ => simp [fetchElement, hs] at h

/-! ## The element and the steps that carry it out -/

/-- Two operations that answer the same for the decompressors of two states which agree elsewhere answer the same. -/
theorem onDmp_congr {f g : Dmp → Step (Dmp × Report)} {s : State} {d : Dmp} {q : Report} (h : f s.dmp = g d) :
    onDmp f s = onDmp g { s with dmp := d, report := q } := by simp only [onDmp, h]

theorem runScript_one (i : Instr) (s : State) : runScript [i] s = exec i s := by
  unfold runScript
  split <;> rename_i h <;> rw [h]
  rfl

theorem runScript_cons_of_next {i : Instr} {is : List Instr} {s t : State} (h : exec i s = .next t) :
    runScript (i :: is) s = runScript is t := by simp only [runScript, h]

/-- R263: the header element is the step in `ReadingHeader`. -/
theorem exec_hdr_eq_dStep {s : State} {v w l : Nibble} {k : BitVec 1} {r : BitVec 3} {rest : List Bool}
    (hs : s.dmp.dstate = .readingHeader) (h : pendingBits s.dmp.bsd = headerBitsOf v w l k r ++ rest) :
    exec (.hdr v w l k r) s = exec .dStep s := by
  refine onDmp_congr (f := carryHeader v w l k r) (g := dStep) ?_
  rw [carryHeader, if_neg (not_not.mpr hs), dStep, hs]
  simp only [stepHeader, parseHeader_of_pending h]
  split <;> rfl

/-- R264: the padding element is the step that finds the padding. -/
theorem exec_pad_eq_dStep {s : State} (hs : s.dmp.dstate = .readingToken) (hp : tailIsPad s.dmp.bsd = true) :
    exec (.pad (avail s.dmp.bsd)) s = exec .dStep s := by
  refine onDmp_congr (f := carryPad (avail s.dmp.bsd)) (g := dStep) ?_
  simp [carryPad, dStep, stepToken, hs, hp]

/-- R264, R265: a literal element is the step that latches it and the step that appends it. -/
theorem carryLiteral_eq_twoSteps {s : State} {x : Byte} {k : Nat} (hs : s.dmp.dstate = .readingToken)
    (hp : tailIsPad s.dmp.bsd = false) (hh : headerParsed s.dmp = true)
    (h : parseToken s.dmp.dcfgW.toNat s.dmp.dcfgL.toNat s.dmp.bsd = .literal x k) :
    onDmp (carryLiteral s.dmp.dcfgL.toNat x k) s = runScript [.dStep, .dStep] s := by
  rw [onDmp_ok (carryLiteral_ok hs rfl (parseToken_literal h).2),
    runScript_twoSteps (Transition.literal hs hp hh h).dStep_eq (Transition.appended rfl).dStep_eq]
  rfl

/-- R264, R266: a match element is the step that latches it and the step that copies, or raises. -/
theorem carryMatch_eq_twoSteps {s : State} {dist : Nat} {n : Nibble} (hs : s.dmp.dstate = .readingToken)
    (hp : tailIsPad s.dmp.bsd = false) (hh : headerParsed s.dmp = true)
    (h : parseToken s.dmp.dcfgW.toNat s.dmp.dcfgL.toNat s.dmp.bsd =
      .matched (distanceOf dist) (lengthOf n) (5 + s.dmp.dcfgW.toNat)) :
    onDmp (carryMatch s.dmp.dcfgW.toNat dist n) s = runScript [.dStep, .dStep] s := by
  rw [runScript_cons_of_next (exec_dStep_of_transition (.matched hs hp hh h)), runScript_one]
  exact onDmp_congr (g := dStep) (Elements.carryMatch_eq hs rfl (width_of_matched hh h).2)

/-- R264 to R266: a token, of whichever form, is its two steps. -/
theorem exec_token_eq_twoSteps {s : State} {i : Instr} {rest : List Bool} (hs : s.dmp.dstate = .readingToken)
    (hp : tailIsPad s.dmp.bsd = false) (hw : Config.legalW s.dmp.dcfgW.toNat) (hl : Config.legalL s.dmp.dcfgL.toNat)
    (h : TokenForm s.dmp.dcfgW.toNat s.dmp.dcfgL.toNat (pendingBits s.dmp.bsd) rest i) :
    (∃ bits, encode i = .token bits) ∧ exec i s = runScript [.dStep, .dStep] s := by
  have hh := headerParsed_of_legal hw hl
  cases h with
  | short c lt plain is hb =>
    obtain ⟨-, -, he, hexec⟩ := literalOf_ok is lt plain
    refine ⟨⟨_, he⟩, ?_⟩
    rw [hexec, Elements.carryShort_eq plain]
    exact carryLiteral_eq_twoSteps hs hp hh (parseToken_short hb lt plain)
  | escaped x lt is hb =>
    obtain ⟨-, -, he, hexec⟩ := escapeOf_ok is
    refine ⟨⟨_, he⟩, ?_⟩
    rw [hexec]
    exact carryLiteral_eq_twoSteps hs hp hh (parseToken_escaped hb lt)
  | matched d n lt is hb =>
    obtain ⟨-, -, he, hexec⟩ := matchOf_ok is lt
    refine ⟨⟨_, he⟩, ?_⟩
    rw [hexec]
    exact carryMatch_eq_twoSteps hs hp hh (parseToken_match hb lt)

/-- Settles O36: the fetched element and the steps read the same bits. -/
theorem elementIsItsSteps : Obligations.ElementIsItsSteps := by
  intro s i _ hfetch
  cases fetched_of_fetchElement hfetch with
  | header hs is h =>
    subst is
    exact (exec_hdr_eq_dStep hs h).trans (runScript_one _ _).symm
  | padding hs hp is =>
    subst is
    exact (exec_pad_eq_dStep hs hp).trans (runScript_one _ _).symm
  | token hs hp hw hl h =>
    obtain ⟨⟨bits, he⟩, hexec⟩ := exec_token_eq_twoSteps hs hp hw hl h
    rw [he]
    exact hexec

end Sys2Proof.Proofs.AtCursor
end

section
/-! The decompress run (46_decompressor_state_machine.md R270, R311). Once the input has ended every live step lowers
`rank`, so the steps end within the budget of the run. -/

namespace Sys2Proof.Proofs.DecompressRun

open Sys2Proof Sys2Proof.Machine Sys2Proof.Proofs.StateMachine

/-! ## Loading the stream (R270) -/

/-- The state in which a reset decompressor holds the whole stream and the input has ended. -/
def loaded (s : State) (comp : List Byte) : State :=
  { s with report := .done .none, dmp := { resetDmp s.dmp with bsd := { ibuf := comp, rpos := 0, eof := true } } }

theorem loaded_inv {s : State} (hs : s.Inv) (comp : List Byte) : (loaded s comp).Inv :=
  ⟨hs.cmp, (resetDmp_inv hs.dmp).withBsd (Nat.zero_le _)⟩

/-- R261, R269: the feeds append their bytes, and the end is marked. -/
theorem runScript_feeds {s : State} (comp : List Byte) (h : s.dmp.bsd.eof = false) :
    runScript (comp.map .dFeed ++ [.dEnd]) s = .next { s with report := .done .none, dmp := { s.dmp with
      bsd := { s.dmp.bsd with ibuf := s.dmp.bsd.ibuf ++ comp, eof := true } } } := by
  induction comp generalizing s with
  | nil =>
    rw [List.map_nil, List.nil_append, AtCursor.runScript_one, List.append_nil]
    exact BitReader.onBsdCommand_ok (BitReader.bsdEnd_open h)
  | cons x comp ih =>
    rw [List.map_cons, List.cons_append, AtCursor.runScript_cons_of_next (exec_dFeed_of_open x h)]
    exact (ih (s := { s with dmp := fed x s.dmp, report := .done .none }) h).trans (by simp [fed])

/-- R270: the result is that of the steps from the loaded stream. -/
theorem decompress_eq (s : State) (comp : List Byte) :
    decompress s comp = decompressResult (settle (stepBudget comp) (loaded s comp)) := by
  have hreset : exec .dReset s = .next { s with dmp := resetDmp s.dmp, report := .done .none } := rfl
  have hload : runScript (.dReset :: comp.map .dFeed ++ [.dEnd]) s = .next (loaded s comp) := by
    rw [List.cons_append, AtCursor.runScript_cons_of_next hreset, runScript_feeds comp rfl]
    rfl
  rw [decompress, hload]

/-! ## Steps (R270) -/

/-- The decompressor has come to an end (R267, R268). -/
abbrev Ended (d : Dmp) : Prop := d.dstate = .done ∨ d.dstate = .error

theorem settle_ended {s : State} (h : Ended s.dmp) (n : Nat) : settle n s = .next s := by
  cases n with
  | zero => rfl
  | succ n => exact if_pos h

theorem settle_succ {s t : State} (h : ¬ Ended s.dmp) (hstep : exec .dStep s = .next t) (n : Nat) :
    settle (n + 1) s = settle n t := by
  rw [settle, if_neg h, hstep]

/-- More steps are the steps that follow. -/
theorem settle_add {n : Nat} {s t : State} (h : settle n s = .next t) (m : Nat) : settle (m + n) s = settle m t := by
  induction n generalizing s with
  | zero => cases h; rfl
  | succ n ih =>
    by_cases hs : Ended s.dmp
    · cases (settle_ended hs _).symm.trans h
      rw [settle_ended hs, settle_ended hs]
    · unfold settle at h
      rw [if_neg hs] at h
      split at h
      · rename_i t1 hstep
        rw [← Nat.add_assoc, settle_succ hs hstep]
        exact ih h
      · cases h
      · cases h

/-- A bound on the steps ahead of a decompressor whose input has ended: two for each unread bit, since a token consumes
one at least and takes two. -/
def rank (d : Dmp) : Nat :=
  match d.dstate with
  | .readingHeader => 2 * avail d.bsd + 2
  | .readingToken => 2 * avail d.bsd + 1
  | .appendingLiteral => 2 * avail d.bsd + 2
  | .copyingMatch => 2 * avail d.bsd + 2
  | .done => 0
  | .error => 0

theorem ended_of_rank {d : Dmp} (h : rank d ≤ 0) : Ended d := by
  cases hs : d.dstate with
  | done => exact .inl hs
  | error => exact .inr hs
  | _ => simp [rank, hs] at h

theorem avail_skipped (k : Nat) (d : Dmp) : avail (skipped k d).bsd = avail d.bsd - k := by
  simp only [skipped, avail]
  omega

/-- R311: once the input has ended every step brings the end nearer. -/
theorem rank_lt_of_transition {d : Dmp} {p : Dmp × Report} (h : Transition d p) (heof : d.bsd.eof = true)
    (hlive : ¬ Ended d) : rank p.1 < rank d := by
  have hfails : (needMore d).1.dstate = .error := by rw [needMore_ended heof, failDmp_dstate]
  cases h with
  | shortHeader hs => simp [rank, hs, hfails]
  | corruptHeader hs => simp [rank, hs]
  | header hs =>
    simp only [rank, hs, avail_skipped]
    omega
  | padding hs => simp [rank, hs]
  | shortToken hs => simp [rank, hs, hfails]
  | literal hs hp hh h =>
    have := parseToken_literal h
    simp only [rank, hs, avail_skipped]
    omega
  | matched hs hp hh h =>
    have := width_of_matched hh h
    simp only [rank, hs, avail_skipped]
    omega
  | appended hs => simp [rank, hs]
  | copied hs => simp [rank, hs]
  | beyondHistory hs => simp [rank, hs]
  | ended hs => exact absurd hs hlive

theorem exec_dStep_inv {s : State} {d : Dmp} {r : Report} (hs : s.Inv) (h : Transition s.dmp (d, r)) :
    State.Inv { s with dmp := d, report := r } := Units.exec_inv hs (exec_dStep_of_transition h)

/-- R311: once the input has ended, `rank` many steps reach the end. -/
theorem settle_ends {n : Nat} {s : State} (hs : s.Inv) (heof : s.dmp.bsd.eof = true) (hn : rank s.dmp ≤ n) :
    ∃ t, settle n s = .next t ∧ t.Inv ∧ Ended t.dmp := by
  induction n generalizing s with
  | zero => exact ⟨s, rfl, hs, ended_of_rank hn⟩
  | succ n ih =>
    by_cases hlive : Ended s.dmp
    · exact ⟨s, settle_ended hlive _, hs, hlive⟩
    · obtain ⟨⟨d, r⟩, htrans⟩ := exists_transition hs.dmp
      have hlt := rank_lt_of_transition htrans heof hlive
      rw [settle_succ hlive (exec_dStep_of_transition htrans)]
      exact ih (exec_dStep_inv hs htrans) (htrans.eof_eq.trans heof) (Nat.le_of_lt_succ (hlt.trans_le hn))

/-- R270, R311: the budget of the run is enough. -/
theorem settle_budget {s : State} (hs : s.Inv) (comp : List Byte) :
    ∃ t, settle (stepBudget comp) (loaded s comp) = .next t ∧ t.Inv ∧ Ended t.dmp :=
  settle_ends (loaded_inv hs comp) rfl (show 2 * (8 * comp.length - 0) + 2 ≤ 16 * comp.length + 4 by omega)

/-- R9: the result of a run that has come to an end without an error. -/
theorem decompressResult_done {s : State} (h : s.dmp.dstate = .done) : decompressResult (.next s) = .ok s.dmp.rout := by
  simp only [decompressResult, h]

theorem decompressResult_error {s : State} {c : Condition} (h : s.dmp.dstate = .error) (hc : s.dmp.derr = some c) :
    decompressResult (.next s) = .err c := by simp only [decompressResult, h, hc]

/-- Settles O57: the steps end within the budget, in `Done` or in one of the three errors of the invariant. -/
theorem decompressAlwaysEnds : Obligations.DecompressAlwaysEnds := by
  intro s comp hs
  obtain ⟨t, hrun, ht, hend⟩ := settle_budget hs comp
  rw [decompress_eq, hrun]
  rcases hend with hdone | herror
  · exact .inl ⟨_, decompressResult_done hdone⟩
  · exact .inr ((ht.dmp.failed herror).imp (decompressResult_error herror)
      (Or.imp (decompressResult_error herror) (decompressResult_error herror)))

end Sys2Proof.Proofs.DecompressRun
end

section
/-! The round trip (46_decompressor_state_machine.md R271, R272). Every command of the compressor that leaves a stream open
emits tokens which a decompressor that follows it (R33) carries out; what the decompressor has output and what still waits
in the lookahead are together the bytes written (`Passes`). -/

namespace Sys2Proof.Proofs.CodecRoundTrip

open Sys2Proof Sys2Proof.Machine Sys2Proof.Proofs.StateMachine Sys2Proof.Proofs.DecompressRun
  Sys2Proof.Proofs.Sequencer Sys2Proof.Proofs.CompressRun

/-! ## Runs of steps -/

/-- Steps of the decompressor lead from `s` to `t`. -/
def Reaches (s t : State) : Prop := ∃ k, ∀ n, settle (n + k) s = settle n t

theorem Reaches.refl (s : State) : Reaches s s := ⟨0, fun _ => rfl⟩

theorem Reaches.trans {s t u : State} (h : Reaches s t) (h' : Reaches t u) : Reaches s u := by
  obtain ⟨j, hj⟩ := h
  obtain ⟨k, hk⟩ := h'
  exact ⟨k + j, fun n => by rw [← Nat.add_assoc, hj, hk]⟩

theorem reaches_of_transition {s : State} {d : Dmp} {r : Report} (hlive : ¬ Ended s.dmp)
    (h : Transition s.dmp (d, r)) : Reaches s { s with dmp := d, report := r } :=
  ⟨1, settle_succ hlive (exec_dStep_of_transition h)⟩

/-- The budget of a run is enough for whatever end the steps reach. -/
theorem settle_budget_of_reaches {s t : State} {comp : List Byte} (hs : s.Inv) (h : Reaches (loaded s comp) t)
    (hend : Ended t.dmp) : settle (stepBudget comp) (loaded s comp) = .next t := by
  obtain ⟨u, hrun, -, hu⟩ := settle_budget hs comp
  obtain ⟨k, hk⟩ := h
  have hmore := settle_add hrun k
  rw [settle_ended hu, Nat.add_comm, hk, settle_ended hend] at hmore
  rw [hrun, hmore]

/-! ## The two steps of a token -/

/-- R24: what a step outside `ReadingHeader` keeps. -/
structure Configured (d d' : Dmp) : Prop where
  dcfgW : d'.dcfgW = d.dcfgW
  dcfgL : d'.dcfgL = d.dcfgL
  parsed : d'.dstate ≠ .readingHeader

theorem configured_of_transition {d : Dmp} {p : Dmp × Report} (h : Transition d p) (hs : d.dstate ≠ .readingHeader) :
    Configured d p.1 := by
  have hshort : Configured d (needMore d).1 := by
    unfold needMore
    split
    · exact ⟨rfl, rfl, nofun⟩
    · exact ⟨rfl, rfl, hs⟩
  cases h with
  | shortHeader => exact hshort
  | shortToken => exact hshort
  | header hs' => exact absurd hs' hs
  | ended => exact ⟨rfl, rfl, hs⟩
  | _ => exact ⟨rfl, rfl, nofun⟩

theorem exec_of_runScript_cons {i : Instr} {is : List Instr} {s u : State} (h : runScript (i :: is) s = .next u) :
    ∃ t, exec i s = .next t ∧ runScript is t = .next u := by
  unfold runScript at h
  split at h
  · exact ⟨_, ‹_›, h⟩
  · cases h
  · cases h

/-- Two steps from one token boundary to another: both are live, and neither changes the configuration. -/
theorem reaches_twoSteps {r r' : State} (hr : r.Inv) (hs : r.dmp.dstate = .readingToken)
    (h : runScript [.dStep, .dStep] r = .next r') (hs' : r'.dmp.dstate = .readingToken) :
    Reaches r r' ∧ r'.Inv ∧ r'.dmp.bsd.eof = r.dmp.bsd.eof ∧ r'.dmp.dcfgW = r.dmp.dcfgW ∧
      r'.dmp.dcfgL = r.dmp.dcfgL := by
  obtain ⟨t, hfirst, h⟩ := exec_of_runScript_cons h
  rw [AtCursor.runScript_one] at h
  obtain ⟨d1, q1, h1, rfl⟩ := transition_of_exec hr hfirst
  have ht := exec_dStep_inv hr h1
  obtain ⟨d2, q2, h2, rfl⟩ := transition_of_exec ht h
  have hc1 := configured_of_transition h1 (by simp [hs])
  have hc2 := configured_of_transition h2 hc1.parsed
  have hmid : ¬ Ended d1 := fun hend => by
    cases (Transition.ended hend).dStep_eq.symm.trans h2.dStep_eq
    rcases hend with hend | hend <;> cases hs'.symm.trans hend
  exact ⟨(reaches_of_transition (by simp [hs]) h1).trans (reaches_of_transition hmid h2), exec_dStep_inv ht h2,
    h2.eof_eq.trans h1.eof_eq, hc2.dcfgW.trans hc1.dcfgW, hc2.dcfgL.trans hc1.dcfgL⟩

/-! ## Following the encoder (R33, R242) -/

/-- A decompressor at a token boundary, holding the rest of the stream, with the encoder's configuration and history. -/
structure Follows (c : Cmp) (r : State) : Prop where
  inv : r.Inv
  eof : r.dmp.bsd.eof = true
  dwin : windowsAgree c.cwin r.dmp.dwin
  dstate : r.dmp.dstate = .readingToken
  dcfgW : r.dmp.dcfgW = c.ccfgW
  dcfgL : r.dmp.dcfgL = c.ccfgL

/-- The decompressor goes on from `r` to follow `c` again, having read up to `rest` and output `bs`. -/
def CatchesUp (c : Cmp) (r : State) (bs : List Byte) (rest : List Bool) : Prop :=
  ∃ r', Reaches r r' ∧ Follows c r' ∧ pendingBits r'.dmp.bsd = rest ∧ r'.dmp.rout = r.dmp.rout ++ bs

/-- Between `c` and `c'` the encoder has emitted `toks`, and these bits stand for the bytes `bs`. -/
structure Emits (c c' : Cmp) (toks : List Bool) (bs : List Byte) : Prop where
  bits : acceptedBits c'.bse = acceptedBits c.bse ++ toks
  decodes : ∀ r rest, Follows c r → pendingBits r.dmp.bsd = toks ++ rest → CatchesUp c' r bs rest

theorem Emits.trans {a b c : Cmp} {x y : List Bool} {bs cs : List Byte} (h : Emits a b x bs) (h' : Emits b c y cs) :
    Emits a c (x ++ y) (bs ++ cs) where
  bits := by rw [h'.bits, h.bits, List.append_assoc]
  decodes := fun r rest hr hb => by
    obtain ⟨r1, hreach, hfollows, hrest, hout⟩ := h.decodes r (y ++ rest) hr (by rw [hb, List.append_assoc])
    obtain ⟨r2, hreach', hfollows', hrest', hout'⟩ := h'.decodes r1 rest hfollows hrest
    exact ⟨r2, hreach.trans hreach', hfollows', hrest', by rw [hout', hout, List.append_assoc]⟩

/-- Where the encoder, its window and the configuration are as they were, nothing has been emitted. -/
theorem emits_nothing {c c' : Cmp} (hbse : c'.bse = c.bse) (hwin : c'.cwin = c.cwin) (hw : c'.ccfgW = c.ccfgW)
    (hl : c'.ccfgL = c.ccfgL) : Emits c c' [] [] where
  bits := by rw [hbse, List.append_nil]
  decodes := fun r rest hr hb => ⟨r, .refl r, ⟨hr.inv, hr.eof, hwin ▸ hr.dwin, hr.dstate, hr.dcfgW.trans hw.symm,
    hr.dcfgL.trans hl.symm⟩, hb, (List.append_nil _).symm⟩

/-- R33, R242: the token of an encode step stands for the bytes the step encodes. -/
theorem emits_encodeStep {c c' : Cmp} {len dist : Nat} (hc : Encoding c) (hstep : encodeStep c = .ok c')
    (h : EncodeDone c c' len dist) : Emits c c' (stepBits c len dist) (stepBytes c len) where
  bits := h.wrote.bits
  decodes := fun r rest hr hb => by
    obtain ⟨hopen, -, hsize⟩ := hc.opened
    obtain ⟨hw, hl⟩ := hc.busy.opened hopen
    obtain ⟨hcfgW, hcfgL⟩ := Units.encodeStep_config hstep
    obtain ⟨r', hrun, hcarried⟩ := Lockstep.twoSteps_of_encodeDone h
      ⟨hc.busy.bse, hc.busy.cwin, hc.busy.cells, hc.busy.full⟩ hsize hw hl hr.inv hr.dwin hr.dstate hr.dcfgW hr.dcfgL hb
    obtain ⟨hreach, hinv, heof, hdcfgW, hdcfgL⟩ := reaches_twoSteps hr.inv hr.dstate hrun hcarried.dstate
    have hagree : windowsAgree c'.cwin r'.dmp.dwin := by
      rw [hcarried.dwin, Lockstep.cwin_of_encodeDone h]
      exact Lockstep.windowsAgree_pushAll _ hc.busy.cwin hr.inv.dmp.dwin hr.dwin
    exact ⟨r', hreach, ⟨hinv, heof.trans hr.eof, hagree, hcarried.dstate, by rw [hdcfgW, hr.dcfgW, hcfgW],
      by rw [hdcfgL, hr.dcfgL, hcfgL]⟩, hcarried.pending, hcarried.rout⟩

/-! ## The bytes written and the bytes that come out -/

/-- The bytes that wait in the lookahead. -/
def ahead (c : Cmp) : List Byte := c.la.take c.laN

/-- From `c` to `c'` the encoder has taken in the bytes `xs`: what was waiting and these are what it has emitted and what
waits now. -/
def Passes (c c' : Cmp) (xs : List Byte) : Prop :=
  ∃ toks bs, Emits c c' toks bs ∧ bs ++ ahead c' = ahead c ++ xs

theorem Passes.refl (c : Cmp) : Passes c c [] := ⟨[], [], emits_nothing rfl rfl rfl rfl, (List.append_nil _).symm⟩

theorem Passes.trans {a b c : Cmp} {xs ys : List Byte} (h : Passes a b xs) (h' : Passes b c ys) :
    Passes a c (xs ++ ys) := by
  obtain ⟨x, bs, hemits, hbytes⟩ := h
  obtain ⟨y, cs, hemits', hbytes'⟩ := h'
  exact ⟨x ++ y, bs ++ cs, hemits.trans hemits', by
    rw [List.append_assoc, hbytes', ← List.append_assoc, hbytes, List.append_assoc]⟩

/-- R235: an encode step takes nothing in. -/
theorem passes_encodeStep {c c' : Cmp} (hc : Encoding c) (hstep : encodeStep c = .ok c') : Passes c c' [] := by
  obtain ⟨-, len, dist, h⟩ := encodeStep_done hc hstep
  refine ⟨_, _, emits_encodeStep hc hstep h, ?_⟩
  have hfront : stepBytes c len = (ahead c).take (encodedBytes len) := by
    rw [stepBytes_eq_take h, ahead, List.take_take, Nat.min_eq_left (encodedBytes_le_laN h)]
  have hbehind : ahead c' = (ahead c).drop (encodedBytes len) := take_of_encodeDone hc h
  rw [hfront, hbehind, List.take_append_drop, List.append_nil]

/-- R237: a byte joins the lookahead. -/
theorem passes_acceptByte {c : Cmp} (x : Byte) (hc : Streaming c) : Passes c (acceptByte x c) [x] :=
  ⟨[], [], emits_nothing rfl rfl rfl rfl, take_acceptByte x hc⟩

/-- R237: a write takes its byte in. -/
theorem passes_cWrite {c c' : Cmp} {x : Byte} (hc : Streaming c) (h : cWrite x c = .ok c') : Passes c c' [x] := by
  obtain ⟨-, ⟨-, rfl⟩ | ⟨-, hstep⟩⟩ := cWrite_cases h
  · exact passes_acceptByte x hc
  · exact (passes_acceptByte x hc).trans (passes_encodeStep (hc.accept x) hstep)

/-- R238: the loop of the close takes nothing in. -/
theorem passes_drain {n : Nat} {c c' : Cmp} (hc : Streaming c) (h : drain n c = .ok c') : Passes c c' [] := by
  induction n generalizing c with
  | zero => cases h; exact .refl _
  | succ n ih =>
    unfold drain at h
    split at h
    · cases h; exact .refl _
    · obtain ⟨c1, hstep, hrest⟩ := Step.bind_ok.mp h
      exact (passes_encodeStep hc.encoding hstep).trans (ih (encodeStep_done hc.encoding hstep).1 hrest)

/-- R238, R239: the run takes the data in, empties the lookahead, and then only pads the last byte. -/
theorem passes_writeAndClose {data : List Byte} {c c' : Cmp} (hc : Streaming c) (h : writeAndClose data c = .ok c') :
    ∃ c1 k, Passes c c1 data ∧ ahead c1 = [] ∧ k ≤ 7 ∧
      bytesBits c'.bse.obuf = acceptedBits c1.bse ++ List.replicate k false := by
  induction data generalizing c with
  | nil =>
    obtain ⟨c1, b, hdrain, hempty, -, hclose, hbits⟩ := cClose_completes hc
    cases hclose.symm.trans h
    exact ⟨c1, _, passes_drain hc hdrain, by rw [ahead, hempty, List.take_zero], by omega, hbits⟩
  | cons x data ih =>
    obtain ⟨c1, hwrite, hrest⟩ := Step.bind_ok.mp h
    obtain ⟨c2, k, hpasses, hlast⟩ := ih (cWrite_streaming hc hwrite) hrest
    exact ⟨c2, k, (passes_cWrite hc hwrite).trans hpasses, hlast⟩

/-! ## The stream of a run (R106, R239) -/

theorem nibble_toNat {n : Nat} (h : n ≤ 15) : (BitVec.ofNat 4 n).toNat = n := by
  rw [BitVec.toNat_ofNat]
  omega

/-- R236, R191: what an opening has emitted is the header. -/
theorem acceptedBits_openedWith {w l : Nat} (hw : Config.legalW w) (hl : Config.legalL l) (c : Cmp) :
    acceptedBits (openedWith w l c).bse = headerBitsOf 1 (.ofNat 4 w) (.ofNat 4 l) 0 0 := by
  obtain ⟨b, hheader, hwrote⟩ := emitHeader_ok w l (bseClear c.bse) (bseClear_inv c.bse) rfl
  cases (emitHeader_cleared hw hl c.bse).symm.trans hheader
  rw [← TokenEmitter.bitsOf_header, nibble_toNat hw.2, nibble_toNat (hl.2.trans (by decide))]
  exact hwrote.bits

/-- R106, R239: the stream is the header, the tokens that stand for the data, and the padding of the last byte. -/
theorem compress_spells {s : State} {data comp : List Byte} {w l : Nat} (hs : s.Inv) (hw : Config.legalW w)
    (hl : Config.legalL l) (h : compress s data w l = .ok comp) :
    ∃ c toks k, Emits (openedWith w l (resetCmp s.cmp)) c toks data ∧ k ≤ 7 ∧
      bytesBits comp = headerBitsOf 1 (.ofNat 4 w) (.ofNat 4 l) 0 0 ++ (toks ++ List.replicate k false) := by
  have hstream := streaming_openedWith hs.cmp hw hl
  obtain ⟨c', hrun, hclosed, -⟩ := writeAndClose_completes data hstream
  cases (compress_legal data hw hl hrun hclosed).symm.trans h
  obtain ⟨c, k, ⟨toks, bs, hemits, hbytes⟩, hempty, hk, hbits⟩ := passes_writeAndClose hstream hrun
  have hdata : bs = data := by
    rw [hempty, List.append_nil] at hbytes
    exact hbytes
  exact ⟨c, toks, k, hdata ▸ hemits, hk, by
    rw [hbits, hemits.bits, acceptedBits_openedWith hw hl, List.append_assoc]⟩

/-! ## The header step (R263, R272) -/

theorem headerLegal_of_pair {w l : Nat} (hw : Config.legalW w) (hl : Config.legalL l) :
    headerLegal 1 (.ofNat 4 w) (.ofNat 4 l) 0 0 = true :=
  headerLegal_iff.mpr ⟨rfl, by rwa [nibble_toNat hw.2], by rwa [nibble_toNat (hl.2.trans (by decide))], rfl, rfl⟩

/-- R191, R211: the header step finds the pair in the stream. -/
theorem parseHeader_of_stream {b : Bsd} {w l : Nat} {rest : List Bool} (hw : Config.legalW w) (hl : Config.legalL l)
    (h : pendingBits b = headerBitsOf 1 (.ofNat 4 w) (.ofNat 4 l) 0 0 ++ rest) :
    parseHeader b = .header (.ofNat 4 w) (.ofNat 4 l) := by
  rw [parseHeader_of_pending h, if_pos (headerLegal_of_pair hw hl)]

/-- Settles O60: the stream begins with the header of its pair, so the step is the one that takes that header. -/
theorem configurationIsRecovered : Obligations.ConfigurationIsRecovered := by
  intro s r t data comp w l hs hw hl hcomp hstate hrpos hibuf hstep
  obtain ⟨c, toks, k, -, -, hbits⟩ := compress_spells hs hw hl hcomp
  have hb : pendingBits r.dmp.bsd = bytesBits comp := by rw [pendingBits, hrpos, hibuf, List.drop_zero]
  have htake := exec_dStep_of_transition (.header hstate (parseHeader_of_stream hw hl (hb.trans hbits)))
  cases htake.symm.trans hstep
  exact ⟨rfl, nibble_toNat hw.2, nibble_toNat (hl.2.trans (by decide))⟩

/-- R263, R330: having taken the header, a decompressor follows the encoder as it was opened. -/
theorem follows_after_header {r : State} {c : Cmp} {comp : List Byte} {w l : Nat} {rest : List Bool} (hr : r.Inv)
    (hw : Config.legalW w) (hl : Config.legalL l)
    (hb : bytesBits comp = headerBitsOf 1 (.ofNat 4 w) (.ofNat 4 l) 0 0 ++ rest) :
    ∃ r', Reaches (loaded r comp) r' ∧ Follows (openedWith w l c) r' ∧ pendingBits r'.dmp.bsd = rest ∧
      r'.dmp.rout = [] := by
  have hpending : pendingBits (loaded r comp).dmp.bsd = _ := hb
  have htake := Transition.header (d := (loaded r comp).dmp) rfl (parseHeader_of_stream hw hl hpending)
  have hagree : windowsAgree (clearWindow c.cwin w)
      (clearWindow (loaded r comp).dmp.dwin (BitVec.ofNat 4 w).toNat) :=
    ⟨(nibble_toNat hw.2).symm, rfl, rfl, fun d h1 h2 => absurd (h1.trans h2) (Nat.not_succ_le_zero 0)⟩
  exact ⟨_, reaches_of_transition (by simp [loaded]) htake,
    ⟨exec_dStep_inv (loaded_inv hr comp) htake, rfl, hagree, rfl, rfl, rfl⟩,
    pendingBits_skip hpending, rfl⟩

/-! ## The round trip (R271) -/

/-- R100, R264: a decompressor that follows with only the padding unread ends in `Done`. -/
theorem reaches_done {c : Cmp} {r : State} {k : Nat} (h : Follows c r) (hk : k ≤ 7)
    (hb : pendingBits r.dmp.bsd = List.replicate k false) :
    ∃ t, Reaches r t ∧ t.dmp.dstate = .done ∧ t.dmp.rout = r.dmp.rout :=
  ⟨_, reaches_of_transition (by simp [h.dstate]) (.padding h.dstate (tailIsPad_of_pending h.eof hk hb)), rfl, rfl⟩

/-- Settles O58: the decompressor takes the header, carries out the tokens, and ends at the padding. -/
theorem decompressInvertsCompress : Obligations.DecompressInvertsCompress := by
  intro s r data w l hs hr hw hl
  obtain ⟨comp, hcomp, -⟩ := (compressAlwaysEnds s data w l hs).1 hw hl
  refine ⟨comp, hcomp, ?_⟩
  obtain ⟨c, toks, k, hemits, hk, hbits⟩ := compress_spells hs hw hl hcomp
  obtain ⟨r1, hheader, hfollows, hb, hout⟩ := follows_after_header hr hw hl hbits
  obtain ⟨r2, htokens, hfollows2, hb2, hout2⟩ := hemits.decodes r1 _ hfollows hb
  obtain ⟨t, hpadding, hdone, hout3⟩ := reaches_done hfollows2 hk hb2
  have hrun := settle_budget_of_reaches hr ((hheader.trans htokens).trans hpadding) (.inl hdone)
  rw [decompress_eq, hrun, decompressResult_done hdone, hout3, hout2, hout, List.nil_append]

end Sys2Proof.Proofs.CodecRoundTrip
end

section
/-! Exceptions (60_exceptions.md R300 to R304): how an error state, or `Done`, holds until the unit's reset. An
operation on one block does not touch the registers of the state machine, the commands and the stream elements are refused there,
and `D.STEP` has no step. -/

namespace Sys2Proof.Proofs.Exceptions

open Sys2Proof Sys2Proof.Machine Sys2Proof.Proofs.Sequencer Sys2Proof.Proofs.DecompressRun

/-! ## What is refused in a terminal state -/

theorem ne_opened_of_error {c : Cmp} (h : c.cstate = .error) : c.cstate ≠ .opened := by simp [h]

theorem cOpen_refused {w l : Nat} {c : Cmp} (h : c.cstate ≠ .idle) : cOpen w l c = refuse .notIdle := if_pos h

theorem ne_readingHeader_of_ended {d : Dmp} (h : Ended d) : d.dstate ≠ .readingHeader := by
  rcases h with h | h
  · simp [h]
  · simp [h]

theorem ne_readingToken_of_ended {d : Dmp} (h : Ended d) : d.dstate ≠ .readingToken := by
  rcases h with h | h
  · simp [h]
  · simp [h]

section
variable {d : Dmp} (h : Ended d)
include h

theorem carryHeader_ended (v w l : Nibble) (k : BitVec 1) (r : BitVec 3) :
    carryHeader v w l k r d = refuse .elementOutOfPlace := if_pos (ne_readingHeader_of_ended h)

theorem carryLiteral_ended (l : Nat) (x : Byte) (k : Nat) : carryLiteral l x k d = refuse .elementOutOfPlace :=
  if_pos (.inl (ne_readingToken_of_ended h))

theorem carryShort_ended (l c : Nat) : carryShort l c d = refuse .elementOutOfPlace := by
  rw [carryShort, carryLiteral_ended h, ite_self]

theorem carryMatch_ended (w dist : Nat) (n : Nibble) : carryMatch w dist n d = refuse .elementOutOfPlace :=
  if_pos (.inl (ne_readingToken_of_ended h))

theorem carryPad_ended (k : Nat) : carryPad k d = refuse .elementOutOfPlace :=
  if_pos (.inl (ne_readingToken_of_ended h))

/-- R267, R268: `Done` and `Error` have no step. -/
theorem dStep_ended : dStep d = .ok (d, .noStep) := by
  rcases h with h | h
  · simp [dStep, h]
  · simp [dStep, h]

end

/-! ## The registers an error holds -/

/-- Instruction `i` leaves the compressor in `C_ERROR`, with its condition, unless it is the reset (R301). -/
def CmpHolds (i : Instr) (c c' : Cmp) : Prop :=
  c.cstate = .error → i ≠ .cReset → c'.cstate = c.cstate ∧ c'.cerr = c.cerr

/-- Instruction `i` leaves the decompressor in `Error` or `Done`, with its condition, unless it is the reset (R267,
R268, R301). -/
def DmpHolds (i : Instr) (d d' : Dmp) : Prop :=
  Ended d → i ≠ .dReset → d'.dstate = d.dstate ∧ d'.derr = d.derr

/-- Both units hold. -/
structure Holds (i : Instr) (s t : State) : Prop where
  cmp : CmpHolds i s.cmp t.cmp
  dmp : DmpHolds i s.dmp t.dmp

section
variable {i : Instr} {s t : State}

theorem Holds.refl (i : Instr) (s : State) : Holds i s s := ⟨fun _ _ => ⟨rfl, rfl⟩, fun _ _ => ⟨rfl, rfl⟩⟩

theorem onCmp_holds {f : Cmp → Step (Cmp × Report)} (h : onCmp f s = .next t)
    (hf : ∀ {c r}, f s.cmp = .ok (c, r) → CmpHolds i s.cmp c) : Holds i s t := by
  obtain ⟨c, r, hc, rfl⟩ := onCmp_next.mp h
  exact ⟨hf hc, fun _ _ => ⟨rfl, rfl⟩⟩

theorem onDmp_holds {f : Dmp → Step (Dmp × Report)} (h : onDmp f s = .next t)
    (hf : ∀ {d r}, f s.dmp = .ok (d, r) → DmpHolds i s.dmp d) : Holds i s t := by
  obtain ⟨d, r, hd, rfl⟩ := onDmp_next.mp h
  exact ⟨fun _ _ => ⟨rfl, rfl⟩, hf hd⟩

/-- An operation on the BSE alone. -/
theorem onBse_holds {f : Bse → Step Bse} (h : onBse f s = .next t) : Holds i s t :=
  onCmp_holds h fun hc => by
    obtain ⟨b, -, hc⟩ := Step.bind_ok.mp hc
    cases hc
    exact fun _ _ => ⟨rfl, rfl⟩

/-- An operation on the BSD alone. -/
theorem onBsd_holds {f : Bsd → Step (Bsd × Report)} (h : onBsd f s = .next t) : Holds i s t :=
  onDmp_holds h fun hd => by
    obtain ⟨⟨b, q⟩, -, hd⟩ := Step.bind_ok.mp hd
    cases hd
    exact fun _ _ => ⟨rfl, rfl⟩

/-- An operation on the window of either unit alone. -/
theorem onWin_holds {u : Win} {f : Window → Step (Window × OpResult)} (h : onWin u f s = .next t) : Holds i s t := by
  unfold onWin at h
  cases u with
  | cwin =>
    refine onCmp_holds h fun hc => ?_
    obtain ⟨⟨w, q⟩, -, hc⟩ := Step.bind_ok.mp hc
    cases hc
    exact fun _ _ => ⟨rfl, rfl⟩
  | dwin =>
    refine onDmp_holds h fun hd => ?_
    obtain ⟨⟨w, q⟩, -, hd⟩ := Step.bind_ok.mp hd
    cases hd
    exact fun _ _ => ⟨rfl, rfl⟩

/-- An operation that is refused in `C_ERROR` answers no next state there. -/
theorem onCmp_holds_of_refused {f : Cmp → Step (Cmp × Report)} {r : Refusal} (h : onCmp f s = .next t)
    (hr : s.cmp.cstate = .error → f s.cmp = refuse r) : Holds i s t :=
  onCmp_holds h fun hc he => absurd ((hr he).symm.trans hc) (refuse_ne_ok _ _)

/-- A command of the sequencer that is refused in `C_ERROR`. -/
theorem onCmpCommand_holds {f : Cmp → Step Cmp} {r : Refusal}
    (h : onCmp (fun c => (f c).map fun c => (c, .done .none)) s = .next t)
    (hr : s.cmp.cstate = .error → f s.cmp = refuse r) : Holds i s t :=
  onCmp_holds_of_refused h fun he => by rw [hr he, map_refuse]

/-- An operation that is refused in `Error` and `Done` answers no next state there. -/
theorem onDmp_holds_of_refused {f : Dmp → Step (Dmp × Report)} {r : Refusal} (h : onDmp f s = .next t)
    (hr : Ended s.dmp → f s.dmp = refuse r) : Holds i s t :=
  onDmp_holds h fun hd he => absurd ((hr he).symm.trans hd) (refuse_ne_ok _ _)

end

/-- R232: a search changes nothing but the report. -/
theorem execMseSearch_holds {i : Instr} {s t : State} (h : execMseSearch s = .next t) : Holds i s t :=
  onCmp_holds h fun hc => by
    obtain ⟨_, -, hc⟩ := Step.map_ok.mp hc
    cases hc
    exact fun _ _ => ⟨rfl, rfl⟩

/-- Assumption log 10: `SWD.COPY` driven directly raises no error of the unit. -/
theorem execSwdCopy_holds {i : Instr} {x : Half} {n : Five} {s t : State} (h : execSwdCopy x n s = .next t) :
    Holds i s t :=
  onDmp_holds h fun hd => by
    obtain ⟨_ | ⟨w, bs⟩, -, hd⟩ := Step.map_ok.mp hd
    · cases hd; exact fun _ _ => ⟨rfl, rfl⟩
    · cases hd; exact fun _ _ => ⟨rfl, rfl⟩

/-- R212: a query of the token interpreter changes nothing but the report. -/
theorem execTinParseToken_holds {i : Instr} {s t : State} (h : execTinParseToken s = .next t) : Holds i s t :=
  onDmp_holds h fun hd => by
    split at hd
    · simp at hd
    · cases hd; exact fun _ _ => ⟨rfl, rfl⟩

theorem execDStep_holds {i : Instr} {s t : State} (h : execDStep s = .next t) : Holds i s t :=
  onDmp_holds h fun hd he _ => by
    cases (dStep_ended he).symm.trans hd
    exact ⟨rfl, rfl⟩

theorem exec_holds {i : Instr} {s t : State} (h : exec i s = .next t) : Holds i s t := by
  cases i with
  | bseClear | bseWriteBits _ _ | bseFlush | temEmitHeader _ _ | temEmitLiteral _ | temEmitMatch _ _ =>
    simp only [exec, execBseClear, execBseWriteBits, execBseFlush, execTemEmitHeader, execTemEmitLiteral,
      execTemEmitMatch] at h
    exact onBse_holds h
  | bsdClear | bsdFeed _ | bsdEnd | bsdReadBits _ | bsdSkipBits _ | bsdAvail | bsdPeekBits _ _ | bsdTailIsPad
  | dFeed _ | dEnd =>
    simp only [exec, execBsdClear, execBsdFeed, execBsdEnd, execBsdReadBits, execBsdSkipBits, execBsdAvail,
      execBsdPeekBits, execBsdTailIsPad, execDFeed, execDEnd] at h
    exact onBsd_holds h
  | swdClear _ _ | swdPush _ _ | swdHist _ _ =>
    simp only [exec, execSwdClear, execSwdPush, execSwdHist] at h
    exact onWin_holds h
  | swdCopy _ _ => exact execSwdCopy_holds h
  | tinParseHeader => cases h; exact ⟨fun _ _ => ⟨rfl, rfl⟩, fun _ _ => ⟨rfl, rfl⟩⟩
  | tinParseToken => exact execTinParseToken_holds h
  | mseSearch => exact execMseSearch_holds h
  | csqEncodeStep => exact onCmpCommand_holds h fun he => encodeStep_refused (.inl (ne_opened_of_error he))
  | cOpen _ _ => exact onCmp_holds_of_refused h fun he => cOpen_refused (by simp [he])
  | cWrite x => exact onCmpCommand_holds h fun he => cWrite_refused x (ne_opened_of_error he)
  | cClose => exact onCmpCommand_holds h fun he => cClose_refused (ne_opened_of_error he)
  | hdr v w l k r => exact onDmp_holds_of_refused h fun he => carryHeader_ended he v w l k r
  | litL5 _ | litL6 _ | litL7 _ | litL8 _ => exact onDmp_holds_of_refused h fun he => carryShort_ended he _ _
  | escL5 _ | escL6 _ | escL7 _ => exact onDmp_holds_of_refused h fun he => carryLiteral_ended he _ _ _
  | matchW8 _ _ | matchW9 _ _ | matchW10 _ _ | matchW11 _ _ | matchW12 _ _ | matchW13 _ _ | matchW14 _ _
  | matchW15 _ _ => exact onDmp_holds_of_refused h fun he => carryMatch_ended he _ _ _
  | pad k => exact onDmp_holds_of_refused h fun he => carryPad_ended he k
  | dStep => exact execDStep_holds h
  | cReset => cases h; exact ⟨fun _ hi => absurd rfl hi, fun _ _ => ⟨rfl, rfl⟩⟩
  | dReset => cases h; exact ⟨fun _ _ => ⟨rfl, rfl⟩, fun _ hi => absurd rfl hi⟩
  | noneBse | noneBsd | noneSwd _ | noneTem | noneCOp | noneDOp => cases h; exact .refl _ _
  | reservedDOp3 | reservedBsdOp _ => nomatch h

/-! ## The obligations -/

/-- Settles O52: every instruction but the unit's reset holds the unit's terminal state, and the commands of the
compressor are refused there. -/
theorem onlyResetLeavesAnError : Obligations.OnlyResetLeavesAnError := by
  refine ⟨fun i s t h => ?_, fun s w l x he => ?_⟩
  · obtain ⟨hcmp, hdmp⟩ := exec_holds h
    refine ⟨fun he hi => ?_, fun he hi => ?_, fun hd hi => ?_⟩
    · exact (hcmp he hi).imp_left (·.trans he)
    · exact (hdmp (.inr he) hi).imp_left (·.trans he)
    · exact (hdmp (.inl hd) hi).1.trans hd
  · have hopen := ne_opened_of_error he
    exact ⟨onCmp_refused (cOpen_refused (by simp [he])), onCmpCommand_refused (cWrite_refused x hopen),
      onCmpCommand_refused (cClose_refused hopen), onCmpCommand_refused (encodeStep_refused (.inl hopen))⟩

/-- Settles O38: the meaning of the three codes is the refusal. -/
theorem unusedCodesAreRefused : Obligations.UnusedCodesAreRefused := fun _ _ => ⟨rfl, rfl⟩

end Sys2Proof.Proofs.Exceptions
end

section
/-! Reset (70_reset_and_hazards.md R330 to R333): what the two commands leave, in any state, and what a host then
observes. -/

namespace Sys2Proof.Proofs.Reset

open Sys2Proof Sys2Proof.Machine Sys2Proof.Proofs.Sequencer Sys2Proof.Proofs.CompressRun

/-- R332 `D.RESET`; the counterpart of `exec_cReset`. -/
theorem exec_dReset (s : State) :
    exec .dReset s = .next { s with dmp := resetDmp s.dmp, report := .done .none } := rfl

/-- Settles O1: the next state of each command is its unit reset, whose registers the statement lists. -/
theorem resetCommandsRestoreResetValues : Obligations.ResetCommandsRestoreResetValues := fun s =>
  ⟨exec_cReset s, exec_dReset s⟩

/-- R330, R332: both units at their reset values. -/
def bothReset (s : State) : State :=
  { s with cmp := resetCmp s.cmp, dmp := resetDmp s.dmp, report := .done .none }

theorem runScript_resets (s : State) : runScript [.cReset, .dReset] s = .next (bothReset s) := by
  simp only [runScript, exec_cReset, exec_dReset, completed, bothReset]

/-- R331 as R9 says it: every register a host observes reads 0 and every stream is empty. -/
theorem observe_bothReset (s : State) : observe (bothReset s) =
    { obuf := [], cstate := 0, cerr := 0, rout := [], dstate := 0, derr := 0, dcfgW := 0, dcfgL := 0 } := by
  simp [observe, bothReset, CState.code, DState.code, errCode]

/-- R333: the launch state holds the reset values. -/
theorem bothReset_reset : bothReset State.reset = State.reset := rfl

/-- Settles O2: both resets lead to `bothReset`, which is observed as zeros and which the launch state is. -/
theorem resetIsObservedAsZero : Obligations.ResetIsObservedAsZero :=
  ⟨fun s => ⟨bothReset s, runScript_resets s, observe_bothReset s, rfl, rfl, rfl, rfl, rfl, rfl, rfl, rfl, rfl,
      rfl⟩,
    (runScript_resets State.reset).trans (congrArg Host.Outcome.next bothReset_reset)⟩

end Sys2Proof.Proofs.Reset
end
